-- ==== Sys2Proof/Word.lean ====
section
/-! DEFINITION. The block's word types (00_scope.md R7, R9) and the operand forms a PDU's payload can take
(30_encoding.md R77, R78, R79, R83). -/

namespace Sys2Proof

/-- One byte (R9): bit 7 most significant. -/
abbrev Byte := BitVec 8

/-- A 16-bit word (R9): transaction ids, addresses, quantities, register values. -/
abbrev Word := BitVec 16

/-- One cell of a discrete-input or coil bank (R7, R22). -/
abbrev Bit := BitVec 1

/-- The time base (R36): TIME_W = 32 bits. -/
abbrev Ticks := BitVec 32

/-- The payload of a PDU whose request format is `RQ-READ` (R77) or `RQ-WSINGLE` (R78). -/
inductive PairForm where
  /-- fewer than the four payload bytes of the fixed part (R123 answers it) -/
  | cut (payload : List Byte)
  /-- the two big-endian words of the fixed part, and whatever bytes follow them (none in a request
  of the exact length, R125) -/
  | full (first second : Word) (tail : List Byte)
deriving DecidableEq, Repr

/-- The payload of a PDU whose request format is `RQ-WMULTI` (R79). -/
inductive MultiForm where
  /-- fewer than the five payload bytes of the fixed part (R123 answers it) -/
  | cut (payload : List Byte)
  /-- address, quantity, byte count, and the bytes after the fixed part (the values) -/
  | full (addr qty : Word) (bc : Byte) (data : List Byte)
deriving DecidableEq, Repr

/-- The payload of a PDU whose first byte has bit 7 set (R83). -/
inductive ExcForm where
  /-- no exception code byte -/
  | cut
  /-- the exception code, and whatever bytes follow it (none in a PDU of format `RS-EXC`) -/
  | full (code : Byte) (tail : List Byte)
deriving DecidableEq, Repr

end Sys2Proof
end

