-- ==== Sys2Proof/Syntax.lean ====
section
/-! DEFINITION. The instructions: one constructor per row of spec/opcode_table.json (30_encoding.md R82, R83).
A constructor's operands are the PDU's whole payload, so no byte of a PDU is lost (log 3). -/

namespace Sys2Proof

/-- A PDU by its function-code byte (R75). The seven function codes carry the request format of their
row; the same bytes as a response PDU are read back by the correlator (log 4). -/
inductive Instr where
  /-- RC, 0x01 Read Coils: words `addr`, `qty` (R130) -/
  | rc (p : PairForm)
  /-- RDI, 0x02 Read Discrete Inputs: words `addr`, `qty` (R131) -/
  | rdi (p : PairForm)
  /-- RHR, 0x03 Read Holding Registers: words `addr`, `qty` (R132) -/
  | rhr (p : PairForm)
  /-- RIR, 0x04 Read Input Registers: words `addr`, `qty` (R133) -/
  | rir (p : PairForm)
  /-- WSC, 0x05 Write Single Coil: words `addr`, `value` (R134) -/
  | wsc (p : PairForm)
  /-- WSR, 0x06 Write Single Register: words `addr`, `value` (R135) -/
  | wsr (p : PairForm)
  /-- WMR, 0x10 Write Multiple Registers: `addr`, `qty`, `bc`, values (R136) -/
  | wmr (m : MultiForm)
  /-- EXC, 0x80 to 0xFF: the low seven bits of the first byte, and the exception code (R83) -/
  | exc (fc : BitVec 7) (e : ExcForm)
deriving DecidableEq, Repr

end Sys2Proof
end

