-- ==== Sys2Proof/WellFormed.lean ====
section
/-! DEFINITION. Which terms of `Instr` are the reading of a PDU of 1 to `MAX_PDU` bytes (30_encoding.md R76). -/

namespace Sys2Proof

/-- A cut form is shorter than the fixed part (R123). -/
def PairForm.formOk : PairForm → Bool
  | .cut payload => decide (payload.length < 4)
  | .full _ _ _ => true

/-- A cut form is shorter than the fixed part (R123). -/
def MultiForm.formOk : MultiForm → Bool
  | .cut payload => decide (payload.length < 5)
  | .full _ _ _ _ => true

/-- Payload bytes of the form. -/
def PairForm.size : PairForm → Nat
  | .cut payload => payload.length
  | .full _ _ tail => 4 + tail.length

/-- Payload bytes of the form. -/
def MultiForm.size : MultiForm → Nat
  | .cut payload => payload.length
  | .full _ _ _ data => 5 + data.length

/-- Payload bytes of the form. -/
def ExcForm.size : ExcForm → Nat
  | .cut => 0
  | .full _ tail => 1 + tail.length

/-- The form of the operands. -/
def Instr.formOk : Instr → Bool
  | .rc p | .rdi p | .rhr p | .rir p | .wsc p | .wsr p => p.formOk
  | .wmr m => m.formOk
  | .exc _ _ => true

/-- The PDU's length in bytes: the function code and the payload (R75). -/
def Instr.pduLength : Instr → Nat
  | .rc p | .rdi p | .rhr p | .rir p | .wsc p | .wsr p => 1 + p.size
  | .wmr m => 1 + m.size
  | .exc _ e => 1 + e.size

/-- `i` is the reading of a PDU of at most `maxPdu` bytes (R76). -/
def Instr.wellFormed (maxPdu : Nat) (i : Instr) : Bool :=
  i.formOk && decide (i.pduLength ≤ maxPdu)

end Sys2Proof
end

