-- ==== Sys2Proof/Decode.lean ====
section
/-! DEFINITION. Big-endian words, the decoder of a PDU into an instruction, total and rejecting by name, and the
encoder, from 30_encoding.md R75 to R85 and R89. -/

namespace Sys2Proof

/-- `be16(w) = [w[15:8], w[7:0]]` (R10, R52). -/
def be16 (w : Word) : List Byte := [w.extractLsb' 8 8, w.extractLsb' 0 8]

/-- The word whose high byte is `hi` and whose low byte is `lo`: `hi*256 + lo` (R10). -/
def wordOf (hi lo : Byte) : Word := BitVec.ofNat 16 (hi.toNat * 256 + lo.toNat)

/-- `u16(s, i)` (R10): the big-endian word at index `i`. -/
def u16 (s : List Byte) (i : Nat) : Word := wordOf (s.getD i 0) (s.getD (i + 1) 0)

/-- Why the decoder refuses a PDU. -/
inductive DecodeError where
  /-- no bytes: no function code (R75) -/
  | emptyPdu
  /-- a function code that is none of the seven and has bit 7 clear (R85) -/
  | illegalFunction (fc : Byte)
deriving DecidableEq, Repr

/-- `RQ-READ` and `RQ-WSINGLE` payloads (R77, R78, R89). -/
def decodePair : List Byte → PairForm
  | a :: b :: c :: d :: tail => .full (wordOf a b) (wordOf c d) tail
  | payload => .cut payload

/-- `RQ-WMULTI` payloads (R79, R89). -/
def decodeMulti : List Byte → MultiForm
  | a :: b :: c :: d :: bc :: data => .full (wordOf a b) (wordOf c d) bc data
  | payload => .cut payload

/-- `RS-EXC` payloads (R83). -/
def decodeExc : List Byte → ExcForm
  | [] => .cut
  | code :: tail => .full code tail

/-- The function-code map (R82, R85) and the exception bit (R75). -/
def decodePdu : List Byte → Except DecodeError Instr
  | [] => .error .emptyPdu
  | fc :: payload =>
    if fc = 0x01#8 then .ok (.rc (decodePair payload))
    else if fc = 0x02#8 then .ok (.rdi (decodePair payload))
    else if fc = 0x03#8 then .ok (.rhr (decodePair payload))
    else if fc = 0x04#8 then .ok (.rir (decodePair payload))
    else if fc = 0x05#8 then .ok (.wsc (decodePair payload))
    else if fc = 0x06#8 then .ok (.wsr (decodePair payload))
    else if fc = 0x10#8 then .ok (.wmr (decodeMulti payload))
    else if fc.getLsbD 7 then .ok (.exc (fc.extractLsb' 0 7) (decodeExc payload))
    else .error (.illegalFunction fc)

/-- Payload bytes (R77, R78). -/
def PairForm.bytes : PairForm → List Byte
  | .cut payload => payload
  | .full first second tail => be16 first ++ be16 second ++ tail

/-- Payload bytes (R79). -/
def MultiForm.bytes : MultiForm → List Byte
  | .cut payload => payload
  | .full addr qty bc data => be16 addr ++ be16 qty ++ [bc] ++ data

/-- Payload bytes (R83). -/
def ExcForm.bytes : ExcForm → List Byte
  | .cut => []
  | .full code tail => code :: tail

/-- The first byte of an exception response: bit 7 set, the request's function code below it (R75, R83). -/
def excByte (fc : BitVec 7) : Byte := BitVec.ofNat 8 (128 + fc.toNat)

/-- The PDU an instruction stands for (R75 to R83). -/
def encodePdu : Instr → List Byte
  | .rc p => 0x01#8 :: p.bytes
  | .rdi p => 0x02#8 :: p.bytes
  | .rhr p => 0x03#8 :: p.bytes
  | .rir p => 0x04#8 :: p.bytes
  | .wsc p => 0x05#8 :: p.bytes
  | .wsr p => 0x06#8 :: p.bytes
  | .wmr m => 0x10#8 :: m.bytes
  | .exc fc e => excByte fc :: e.bytes

/-- The `n` low bytes of `w`, the least significant first: the numbering of spec/opcode_table.json, whose
first PDU byte is bits 7..0. -/
def tableBytes : Nat → Nat → List Byte
  | 0, _ => []
  | n + 1, w => BitVec.ofNat 8 w :: tableBytes n (w / 256)

/-- The length of a PDU that follows from its function code, with its byte count where it has one (R88). -/
def formatLength (pdu : List Byte) : Nat :=
  let fc := pdu.getD 0 0
  if fc = 0x10#8 then 6 + (pdu.getD 5 0).toNat
  else if fc.getLsbD 7 then 2
  else if fc = 0x01#8 ∨ fc = 0x02#8 ∨ fc = 0x03#8 ∨ fc = 0x04#8 ∨ fc = 0x05#8 ∨ fc = 0x06#8 then 5
  else 1

/-- The PDU a table word stands for: its bytes, then zeros up to the length its format gives (log 27). -/
def tablePdu (nbits w : Nat) : List Byte :=
  let bytes := tableBytes (nbits / 8) w
  bytes ++ List.replicate (formatLength bytes - bytes.length) 0

/-- The instruction the decoder reads from a word of spec/opcode_table.json. -/
def decodeTableWord (nbits w : Nat) : Option Instr :=
  match decodePdu (tablePdu nbits w) with
  | .ok i => some i
  | .error _ => none

end Sys2Proof
end

