-- ==== Sys2Proof/Config.lean ====
section
/-! DEFINITION. What an instance of the block fixes at reset (00_scope.md R6, 10_state.md R26), and the one free
value of the model. -/

namespace Sys2Proof.Machine

/-- The two banks of 1-bit cells (R12, R22). -/
inductive BitBank where
  | di | co
deriving DecidableEq, Repr

/-- The two banks of 16-bit cells (R12, R22). -/
inductive RegBank where
  | hr | ir
deriving DecidableEq, Repr

/-- A bank name (R12). -/
inductive Bank where
  | bits (b : BitBank)
  | regs (r : RegBank)
deriving DecidableEq, Repr

/-- The four register banks (R22): each a list of (cell address, value) pairs, addresses strictly rising,
no value equal to 0, which is what an unlisted cell reads as (log 11). -/
structure Memory where
  di : List (Nat × Bit)
  co : List (Nat × Bit)
  hr : List (Nat × Word)
  ir : List (Nat × Word)
deriving DecidableEq, Repr

/-- All cells 0. -/
def Memory.zero : Memory := { di := [], co := [], hr := [], ir := [] }

/-- The parameters of R6 that some rule depends on; `TICK` is left out (log 23), and `TIME_W` is 32 in every
instance. -/
structure Config where
  capDi : Nat
  capCo : Nat
  capHr : Nat
  capIr : Nat
  timeout : Nat
  pendingDepth : Nat
  tidInit : Word
  unitId : Byte
  maxPdu : Nat
  maxRdBits : Nat
  maxRdRegs : Nat
  maxWrRegs : Nat
  /-- `N_CONN`, how many server agents there are; `none`: any finite number (log 31) -/
  nConn : Option Nat
  /-- `N_CALLER`, how many callers there are; `none`: any finite number (log 31) -/
  nCaller : Option Nat
  initImage : Memory
deriving DecidableEq, Repr

/-- The column "this hardware" of R6. -/
def Config.reference : Config :=
  { capDi := 100, capCo := 100, capHr := 100, capIr := 100, timeout := 3, pendingDepth := 16,
    tidInit := 0x0000#16, unitId := 0x01#8, maxPdu := 253, maxRdBits := 2000, maxRdRegs := 125,
    maxWrRegs := 123, nConn := none, nCaller := none, initImage := Memory.zero }

/-- The value `PT[k].val` takes when the operation writes no value (R183, R185, R186, R187 give none), by
function code, address and quantity: a free value (log 15). -/
opaque Config.unstatedVal : Byte → Word → Word → Word

end Sys2Proof.Machine
end

