-- ==== Sys2Proof/Machine/State.lean ====
section
/-! DEFINITION. Everything the spec gives the block to hold (10_state.md R20 to R41), the offers and outputs that stand for
its ports (30_encoding.md R86, R87), the reasons a step can stop, and the state after reset (R41). -/

namespace Sys2Proof.Machine

/-- Agent names (R12). -/
inductive Agent where
  | server (i : Nat)
  | caller (j : Nat)
  | readLoop
  | clock
  | host
deriving DecidableEq, Repr

/-- A bank's lock (R25). -/
inductive Lock where
  | free
  | held (a : Agent)
deriving DecidableEq, Repr

/-- `LOCK[bank]` for the four banks (R25). -/
structure Locks where
  di : Lock
  co : Lock
  hr : Lock
  ir : Lock
deriving DecidableEq, Repr

/-- The client's transmit arbiter `CL.tx` (R37). -/
inductive Arbiter where
  | free
  | held (j : Nat)
deriving DecidableEq, Repr

/-- What a receive stream reports next (R87, R110). -/
inductive StreamItem where
  | byte (b : Byte)
  | eof
  | ioError
deriving DecidableEq, Repr

/-- `S[i].fsm` (R28, R29). -/
inductive ConnFsm where
  | closed | recv | route | reply
deriving DecidableEq, Repr

/-- A server connection agent `S[i]` (R28). -/
structure Conn where
  fsm  : ConnFsm
  /-- bytes of the frame being received -/
  rx   : List Byte
  tid  : Word
  uid  : Byte
  req  : List Byte
  resp : List Byte
  /-- MODEL'S OWN: what the connection's receive stream holds and the agent has not read (R40, log 5) -/
  inp  : List StreamItem
deriving DecidableEq, Repr

/-- `S[i]` after reset (R28); the fields that hold no value are 0 or empty (log 9). -/
def Conn.reset : Conn :=
  { fsm := .closed, rx := [], tid := 0, uid := 0, req := [], resp := [], inp := [] }

/-- `PT[k].st` (R32). -/
inductive EntryState where
  | free | pending | resolved
deriving DecidableEq, Repr

/-- The errors a facade operation returns (R200). -/
inductive ModbusError where
  | exception (code : Byte)
  | timeout
  | connectionClosed
  | malformedResponse
  | invalidArgument
deriving DecidableEq, Repr

/-- What a facade operation returns on success (R86). -/
inductive Payload where
  | unit
  | bits (bs : List Bit)
  | regs (ws : List Word)
deriving DecidableEq, Repr

/-- `Ok(payload)` or `Err(e)` (R11). -/
inductive CallResult where
  | ok (p : Payload)
  | err (e : ModbusError)
deriving DecidableEq, Repr

/-- One row of the pending-transaction table (R31); `slot = none` is the spec's `Empty`. -/
structure Entry where
  st    : EntryState
  tid   : Word
  fc    : Byte
  addr  : Word
  qty   : Word
  val   : Word
  tSub  : Ticks
  owner : Nat
  slot  : Option CallResult
deriving DecidableEq, Repr

/-- `PT[k]` after reset (R31); the fields that hold no value are 0 (log 10). -/
def Entry.reset : Entry :=
  { st := .free, tid := 0, fc := 0, addr := 0, qty := 0, val := 0, tSub := 0, owner := 0, slot := none }

/-- The six facade operations (R86). The arguments are natural numbers, so that a call outside the domain of
R164 can be made. -/
inductive FacadeOp where
  | writeCoil (address : Nat) (value : Bool)
  | readCoils (address count : Nat)
  | writeRegister (address value : Nat)
  | writeRegisters (address : Nat) (values : List Nat)
  | readHoldingRegisters (address count : Nat)
  | readInputRegisters (address count : Nat)
deriving DecidableEq, Repr

/-- `C[j].fsm` (R34). -/
inductive CallerFsm where
  | idle | issue | wait
deriving DecidableEq, Repr

/-- A client caller agent `C[j]` (R34). -/
structure Caller where
  fsm : CallerFsm
  op  : FacadeOp
  k   : Nat
deriving DecidableEq, Repr

/-- `C[j]` after reset (R34); `op` and `k` hold no value (log 10). -/
def Caller.reset : Caller := { fsm := .idle, op := .readCoils 0 0, k := 0 }

/-- A decoded frame (R104). -/
structure Frame where
  tid : Word
  uid : Byte
  pdu : List Byte
deriving DecidableEq, Repr

/-- The reason tags of `MalformedFrameError` (R102, R103). -/
inductive MalformedTag where
  | short | proto | length | empty | tooLong
deriving DecidableEq, Repr

/-- The result of `Decode` inside the block, with its reason tag (R102). -/
inductive Decoded where
  | frame (f : Frame)
  | malformed (tag : MalformedTag)
deriving DecidableEq, Repr

/-- What the codec port's `Decode` returns (R86): the reason tag does not leave the block (R201). -/
inductive DecodeResult where
  | frame (f : Frame)
  | malformedFrameError
deriving DecidableEq, Repr

/-- One offer of a step to an agent, with what HOST supplies to it (R86, R87). An offer the agent cannot take
in the state it is in passes with no effect: the agent holds (R11, log 1). -/
inductive Offer where
  /-- HOST opens connection `i` (R112) -/
  | openConn (i : Nat)
  /-- the transport of connection `i` holds one more item (R87) -/
  | deliver (i : Nat) (x : StreamItem)
  /-- `S[i]` in RECV takes one item from its stream (R113, R114, R117) -/
  | receive (i : Nat)
  /-- `S[i]` in ROUTE routes its request (R115) -/
  | route (i : Nat)
  /-- `S[i]` in REPLY sends its reply; `sent = false` is a transmit I/O error (R116, R117) -/
  | reply (i : Nat) (sent : Bool)
  /-- the seed port (R67) -/
  | seedRead (b : Bank) (addr n : Nat)
  | seedWrite (b : Bank) (addr : Nat) (vals : List Nat)
  /-- the codec port (R100, R102) -/
  | encode (tid : Word) (uid : Byte) (pdu : List Byte)
  | decode (bytes : List Byte)
  /-- `connect()`; `ok` is HOST's draw (R161) -/
  | connect (ok : Bool)
  /-- `disconnect()` (R162) -/
  | disconnect
  /-- `C[j]` starts a facade operation (R163, R164, R167) -/
  | call (j : Nat) (op : FacadeOp)
  /-- `C[j]` takes its own step: issue (R167) or collect (R181); `sent = false` is a transmit I/O error (R179) -/
  | callerStep (j : Nat) (sent : Bool)
  /-- the client's transport holds one more item (R87) -/
  | clientDeliver (x : StreamItem)
  /-- `RL` takes one item from the client's stream (R170, R179) -/
  | clientReceive
  /-- `CLK` advances `NOW` (R175) -/
  | tick
  /-- the timeout step of entry `k` (R176) -/
  | timeout (k : Nat)
  /-- the block reset, with the configuration it fixes and the time base it leaves (R36, R230; log 28) -/
  | reset (c : Config) (now : Ticks)
deriving DecidableEq, Repr

/-- What the block emits (R87). -/
inductive Output where
  /-- `emit tx(i, frame)` (R116); `sent = false`: the transmit stream reported an I/O error (log 16) -/
  | tx (i : Nat) (frame : List Byte) (sent : Bool)
  /-- `emit close(i)` (R114, R117) -/
  | close (i : Nat)
  /-- `emit ctx(frame)` (R167); `sent` as for `tx` -/
  | ctx (frame : List Byte) (sent : Bool)
  /-- `emit cclose` (R178) -/
  | cclose
  /-- `emit log(unexpected(tid))` (R172) -/
  | unexpected (tid : Word)
  /-- a facade operation of caller `j` returns -/
  | ret (j : Nat) (r : CallResult)
  /-- `connect()` returns (R161) -/
  | connected (ok : Bool)
  /-- `SeedRead` returns cells (R67) -/
  | cells (b : Bank) (vals : List Nat)
  /-- `Encode` returns (R100) -/
  | encoded (bytes : List Byte)
  /-- `Decode` returns (R86, R102, R201) -/
  | decoded (r : DecodeResult)
deriving DecidableEq, Repr

/-- Which agent executes a PDU: a server agent routes it (R115), or the read loop correlates it as the PDU of
a response frame with transaction id `tid` (R171). -/
inductive Active where
  | server (i : Nat)
  | client (tid : Word)
deriving DecidableEq, Repr

/-- Why a step stops the machine. -/
inductive Fault where
  /-- ROUTE offered to an agent whose request register holds no value (no bytes; I5). Raised by `routeOffer`.
  Safe: no run from reset reaches it, and the spec gives reading such a field no meaning. -/
  | noRequest
deriving DecidableEq, Repr

/-- Why a step has no meaning. -/
inductive Refusal where
  /-- An instruction with no meaning yet. Raised by `exec`'s arms only; no arm raises it. Safe. -/
  | notModelled (mnemonic : String)
  /-- A configuration outside its legal range (R26, R139, I14). Raised by `step` and by the reset offer. Safe. -/
  | illegalConfiguration
  /-- `Encode` of a PDU of no bytes or of more than MAX_PDU bytes (R100, I13). Raised by the codec port, and by
  a reply or an issue step in states no run reaches. Safe. -/
  | encodeDomain
  /-- A seed access outside the bank, or a value too wide for the cell (R67, I15). Raised by the seed port. Safe. -/
  | seedRange
  /-- A connection opened, or a facade operation called, at an agent the instance does not have: its index is not below
  N_CONN or N_CALLER (R6; log 31). Raised by `openOffer` and `callOffer`. Safe. -/
  | noSuchAgent
deriving DecidableEq, Repr

/-- The block. -/
structure State where
  /-- configuration, read-only (R26) -/
  cfg     : Config
  /-- the four banks (R22) -/
  mem     : Memory
  /-- the bank locks (R25) -/
  locks   : Locks
  /-- the server agents `S[i]` (R28); an unlisted one is `Conn.reset` -/
  conns   : List (Nat × Conn)
  /-- `CL.up` (R30) -/
  up      : Bool
  /-- `PT[0 .. PENDING_DEPTH-1]` (R31) -/
  pt      : List Entry
  /-- `CL.tidc` (R33) -/
  tidc    : Word
  /-- the caller agents `C[j]` (R34); an unlisted one is `Caller.reset` -/
  callers : List (Nat × Caller)
  /-- `RL.rx` (R35) -/
  rlRx    : List Byte
  /-- `NOW` (R36) -/
  now     : Ticks
  /-- `CL.tx` (R37) -/
  tx      : Arbiter
  /-- MODEL'S OWN: what the client's receive stream holds and `RL` has not read (R40, log 5) -/
  clInp   : List StreamItem
  /-- MODEL'S OWN: the offers still to be made, oldest first (R40, log 1) -/
  sched   : List Offer
  /-- MODEL'S OWN: what the block has emitted, oldest first (R40, log 6) -/
  outputs : List Output
  /-- MODEL'S OWN: whose PDU `exec` executes (log 2) -/
  active  : Active
deriving DecidableEq, Repr

/-- The block right after reset with configuration `c`, and `now` on the time base, which the spec leaves to be
any value (R36, R41, R230). -/
def State.boot (c : Config) (now : Ticks) : State :=
  { cfg := c, mem := c.initImage, locks := { di := .free, co := .free, hr := .free, ir := .free },
    conns := [], up := false, pt := List.replicate c.pendingDepth Entry.reset, tidc := c.tidInit,
    callers := [], rlRx := [], now := now, tx := .free, clInp := [], sched := [], outputs := [],
    active := .server 0 }

/-- This hardware right after reset: its own configuration (R6), and `NOW = 0` (log 8). -/
def State.reset : State := State.boot Config.reference 0

end Sys2Proof.Machine
end

