-- ==== Sys2Proof/Machine/Flags.lean ====
section
/-! DEFINITION. The block has no condition codes (10_state.md R38). What stands in their place: the exception bit of a
function-code byte, the exception codes, and the status of a pending entry against the time base. -/

namespace Sys2Proof.Machine

/-- The exception bit (R75): bit 7 of a function-code byte. -/
def exceptionBit (fc : Byte) : Bool := fc.getLsbD 7

/-- `fc | 0x80` (R83, R126). -/
def withExceptionBit (fc : Byte) : Byte := fc ||| 0x80#8

/-- The errors the router answers with (R84). -/
inductive ExcCode where
  | illegalFunction | illegalDataAddress | illegalDataValue | serverFailure
deriving DecidableEq, Repr

/-- The codes on the wire (R84). -/
def excCodeByte : ExcCode → Byte
  | .illegalFunction => 0x01#8
  | .illegalDataAddress => 0x02#8
  | .illegalDataValue => 0x03#8
  | .serverFailure => 0x04#8

/-- `EXC(fc, code) = [fc | 0x80, code]` (R126). -/
def excPdu (fc : Byte) (code : ExcCode) : List Byte := [withExceptionBit fc, excCodeByte code]

/-- The entry is in state PENDING (R32). -/
def isPending (e : Entry) : Bool := decide (e.st = .pending)

/-- The entry is pending under transaction id `t` (R171). -/
def isPendingWith (t : Word) (e : Entry) : Bool := isPending e && decide (e.tid = t)

/-- The entry is expired (R175): pending, and `(NOW - t_sub) mod 2^32 ≥ TIMEOUT`. -/
def isExpired (timeout : Nat) (now : Ticks) (e : Entry) : Bool :=
  isPending e && decide (timeout ≤ (now - e.tSub).toNat)

end Sys2Proof.Machine
end

