-- ==== Sys2Proof/Machine/Ops.lean ====
section
/-! DEFINITION. The named operations over the state: sparse stores, banks and their locks, agents, the pending table,
output ports, and the one operation that answers a request with an exception. -/

namespace Sys2Proof.Machine

/-! Sparse stores: (key, value) pairs, keys strictly rising, no value equal to the one an unlisted key reads as. -/

/-- The value at key `k`; `d` where the store lists none. -/
def sparseGet {α : Type} (d : α) : List (Nat × α) → Nat → α
  | [], _ => d
  | (a, x) :: m, k => if a = k then x else sparseGet d m k

/-- The store with `v` at key `k`; writing `d` removes the key. -/
def sparsePut {α : Type} [DecidableEq α] (d : α) : List (Nat × α) → Nat → α → List (Nat × α)
  | [], k, v => if v = d then [] else [(k, v)]
  | (a, x) :: m, k, v =>
    if k < a then (if v = d then (a, x) :: m else (k, v) :: (a, x) :: m)
    else if k = a then (if v = d then m else (k, v) :: m)
    else (a, x) :: sparsePut d m k v

/-- The store with `f` applied to every listed value; a value that becomes `d` is no longer listed. -/
def sparseMap {α : Type} [DecidableEq α] (d : α) (f : α → α) : List (Nat × α) → List (Nat × α)
  | [] => []
  | (a, x) :: m => if f x = d then sparseMap d f m else (a, f x) :: sparseMap d f m

/-- Keys strictly rise from `lo`, and no value is `d`. -/
def sparseWfFrom {α : Type} [DecidableEq α] (d : α) : Nat → List (Nat × α) → Bool
  | _, [] => true
  | lo, (a, x) :: m => decide (lo ≤ a) && decide (x ≠ d) && sparseWfFrom d (a + 1) m

/-- The canonical form. -/
def sparseWf {α : Type} [DecidableEq α] (d : α) (m : List (Nat × α)) : Bool := sparseWfFrom d 0 m

/-! Banks (R22, R50 to R58). -/

/-- The cells of a bit bank. -/
def Memory.bits (m : Memory) : BitBank → List (Nat × Bit)
  | .di => m.di
  | .co => m.co

/-- The cells of a register bank. -/
def Memory.regs (m : Memory) : RegBank → List (Nat × Word)
  | .hr => m.hr
  | .ir => m.ir

/-- The memory with the cells of a bit bank replaced. -/
def Memory.setBits (m : Memory) (b : BitBank) (cells : List (Nat × Bit)) : Memory :=
  match b with
  | .di => { m with di := cells }
  | .co => { m with co := cells }

/-- The memory with the cells of a register bank replaced. -/
def Memory.setRegs (m : Memory) (r : RegBank) (cells : List (Nat × Word)) : Memory :=
  match r with
  | .hr => { m with hr := cells }
  | .ir => { m with ir := cells }

/-- The canonical form of all four banks. -/
def Memory.wf (m : Memory) : Bool :=
  sparseWf 0 m.di && sparseWf 0 m.co && sparseWf 0 m.hr && sparseWf 0 m.ir

/-- The `n` cells from address `addr` up (R11 `BankRead`); an unlisted cell reads as 0 (log 11). -/
def readCells {w : Nat} (m : List (Nat × BitVec w)) : Nat → Nat → List (BitVec w)
  | _, 0 => []
  | addr, n + 1 => sparseGet 0 m addr :: readCells m (addr + 1) n

/-- The cells from address `addr` up replaced by `vals` (R11 `BankWrite`). -/
def writeCells {w : Nat} (m : List (Nat × BitVec w)) : Nat → List (BitVec w) → List (Nat × BitVec w)
  | _, [] => m
  | addr, v :: vals => writeCells (sparsePut 0 m addr v) (addr + 1) vals

/-- `CAP(bank)` of a bit bank (R12). -/
def capBits (c : Config) : BitBank → Nat
  | .di => c.capDi
  | .co => c.capCo

/-- `CAP(bank)` of a register bank (R12). -/
def capRegs (c : Config) : RegBank → Nat
  | .hr => c.capHr
  | .ir => c.capIr

/-- `InRange(bank, addr, n)` (R124), on natural numbers, so that the sum never wraps. -/
def inRange (cap addr n : Nat) : Bool := decide (addr + n ≤ cap)

/-- Every listed cell is a cell of the bank. -/
def Memory.within (m : Memory) (c : Config) : Bool :=
  m.di.all (fun p => decide (p.1 < c.capDi)) && m.co.all (fun p => decide (p.1 < c.capCo))
    && m.hr.all (fun p => decide (p.1 < c.capHr)) && m.ir.all (fun p => decide (p.1 < c.capIr))

/-- Index `i` is below a count that may be unbounded (R6). -/
def below (count : Option Nat) (i : Nat) : Bool :=
  match count with
  | none => true
  | some n => decide (i < n)

/-- The instance has the server agent `S[i]` (R6, R12; log 31). -/
def hasConn (c : Config) (i : Nat) : Bool := below c.nConn i

/-- The instance has the caller `C[j]` (R6, R12; log 31). -/
def hasCaller (c : Config) (j : Nat) : Bool := below c.nCaller j

/-- What makes a configuration legal: the ranges of R6 (at least one server agent and one caller among them), the
constraints of R139, and an initial image that is in canonical form and inside the banks. -/
def Config.checks (c : Config) : List Bool :=
  [ decide (1 ≤ c.capDi), decide (c.capDi ≤ 65536), decide (1 ≤ c.capCo), decide (c.capCo ≤ 65536),
    decide (1 ≤ c.capHr), decide (c.capHr ≤ 65536), decide (1 ≤ c.capIr), decide (c.capIr ≤ 65536),
    decide (1 ≤ c.timeout), decide (c.timeout ≤ 4294967295),
    decide (1 ≤ c.pendingDepth), decide (c.pendingDepth ≤ 65535),
    decide (8 ≤ c.maxPdu), decide (c.maxPdu ≤ 65534),
    decide (1 ≤ c.maxRdBits), decide (c.maxRdBits ≤ 2040),
    decide (1 ≤ c.maxRdRegs), decide (c.maxRdRegs ≤ 127),
    decide (1 ≤ c.maxWrRegs), decide (c.maxWrRegs ≤ 127),
    decide ((c.maxRdBits + 7) / 8 ≤ min 255 (c.maxPdu - 2)),
    decide (2 * c.maxRdRegs ≤ min 255 (c.maxPdu - 2)),
    decide (6 + 2 * c.maxWrRegs ≤ c.maxPdu),
    decide (2 * c.maxWrRegs ≤ 255),
    hasConn c 0, hasCaller c 0,
    c.initImage.wf, c.initImage.within c ]

/-- The legal configurations (R6, R26, R139). -/
def Config.legal (c : Config) : Bool := c.checks.all id

/-! Bank locks (R25). -/

/-- `LOCK[b]`. -/
def lockOf (l : Locks) : Bank → Lock
  | .bits .di => l.di
  | .bits .co => l.co
  | .regs .hr => l.hr
  | .regs .ir => l.ir

/-- `LOCK[b] <- x`. -/
def setLock (l : Locks) (b : Bank) (x : Lock) : Locks :=
  match b with
  | .bits .di => { l with di := x }
  | .bits .co => { l with co := x }
  | .regs .hr => { l with hr := x }
  | .regs .ir => { l with ir := x }

/-- Agent `a` takes the lock of bank `b`; none while another holds it. -/
def acquire (a : Agent) (b : Bank) (s : State) : Option State :=
  if lockOf s.locks b = .free then some { s with locks := setLock s.locks b (.held a) } else none

/-- The lock of bank `b` is given back. -/
def release (b : Bank) (s : State) : State := { s with locks := setLock s.locks b .free }

/-- How a datastore operation ends: the agent waits for the bank's lock, the datastore's own bounds check
fails (R128, R129), or the access is done. -/
inductive Access (α : Type) where
  | wait
  | serverFailure
  | done (cells : α) (s : State)

/-- `DsRead` of a bit bank (R128), under its lock (R25, R55). -/
def dsReadBits (a : Agent) (b : BitBank) (addr n : Nat) (s : State) : Access (List Bit) :=
  if inRange (capBits s.cfg b) addr n then
    match acquire a (.bits b) s with
    | none => .wait
    | some s1 => .done (readCells (s1.mem.bits b) addr n) (release (.bits b) s1)
  else .serverFailure

/-- `DsRead` of a register bank (R128), under its lock (R25, R55). -/
def dsReadRegs (a : Agent) (r : RegBank) (addr n : Nat) (s : State) : Access (List Word) :=
  if inRange (capRegs s.cfg r) addr n then
    match acquire a (.regs r) s with
    | none => .wait
    | some s1 => .done (readCells (s1.mem.regs r) addr n) (release (.regs r) s1)
  else .serverFailure

/-- `BankWrite` of a bit bank (R11). -/
def bankWriteBits (b : BitBank) (addr : Nat) (vals : List Bit) (s : State) : State :=
  { s with mem := s.mem.setBits b (writeCells (s.mem.bits b) addr vals) }

/-- `BankWrite` of a register bank (R11). -/
def bankWriteRegs (r : RegBank) (addr : Nat) (vals : List Word) (s : State) : State :=
  { s with mem := s.mem.setRegs r (writeCells (s.mem.regs r) addr vals) }

/-- `DsWrite` of a bit bank (R129), under its lock (R25, R55). -/
def dsWriteBits (a : Agent) (b : BitBank) (addr : Nat) (vals : List Bit) (s : State) : Access Unit :=
  if inRange (capBits s.cfg b) addr vals.length then
    match acquire a (.bits b) s with
    | none => .wait
    | some s1 => .done () (release (.bits b) (bankWriteBits b addr vals s1))
  else .serverFailure

/-- `DsWrite` of a register bank (R129), under its lock (R25, R55). -/
def dsWriteRegs (a : Agent) (r : RegBank) (addr : Nat) (vals : List Word) (s : State) : Access Unit :=
  if inRange (capRegs s.cfg r) addr vals.length then
    match acquire a (.regs r) s with
    | none => .wait
    | some s1 => .done () (release (.regs r) (bankWriteRegs r addr vals s1))
  else .serverFailure

/-! Agents and output ports. -/

/-- `S[i]` (R28). -/
def connAt (s : State) (i : Nat) : Conn := sparseGet Conn.reset s.conns i

/-- `S[i] <- c`. -/
def setConn (i : Nat) (c : Conn) (s : State) : State := { s with conns := sparsePut Conn.reset s.conns i c }

/-- `C[j]` (R34). -/
def callerAt (s : State) (j : Nat) : Caller := sparseGet Caller.reset s.callers j

/-- `C[j] <- c`. -/
def setCaller (j : Nat) (c : Caller) (s : State) : State :=
  { s with callers := sparsePut Caller.reset s.callers j c }

/-- `emit` (R11). -/
def emit (o : Output) (s : State) : State := { s with outputs := s.outputs ++ [o] }

/-! The server's answers. -/

/-- The end of a ROUTE step (R115): the response register is written and `S[i]` enters REPLY. -/
def answer (i : Nat) (pdu : List Byte) (s : State) : State :=
  setConn i { connAt s i with resp := pdu, fsm := .reply } s

/-- Taking an exception (R126, R213): the request of `S[i]` with function code `fc` is answered with the
exception PDU, in the same step, and nothing else is written. There is no return operation (R214). -/
def raiseExc (i : Nat) (fc : Byte) (code : ExcCode) (s : State) : State := answer i (excPdu fc code) s

/-! The pending-transaction table (R31, R32). -/

/-- `PT[k] <- e`. -/
def setEntry (k : Nat) (e : Entry) (s : State) : State := { s with pt := s.pt.set k e }

/-- The lowest index of a FREE entry (R167). -/
def lowestFree (pt : List Entry) : Option Nat := pt.findIdx? (fun e => decide (e.st = .free))

/-- The entry pending under transaction id `t` (R171). -/
def pendingIndex (pt : List Entry) (t : Word) : Option Nat := pt.findIdx? (isPendingWith t)

/-- Some entry is pending under transaction id `t`. -/
def tidPending (pt : List Entry) (t : Word) : Bool := pt.any (isPendingWith t)

/-- The loop of `AllocTid` (R165), at most `fuel` skips. -/
def skipPending (pt : List Entry) : Nat → Word → Word
  | 0, t => t
  | fuel + 1, t => if tidPending pt t then skipPending pt fuel (t + 1) else t

/-- The id `AllocTid` returns (R165); as many skips as there are entries are enough. -/
def allocTid (pt : List Entry) (tidc : Word) : Word := skipPending pt pt.length tidc

/-- One terminal event of a pending transaction (R180): the result is written and the entry leaves PENDING. -/
def resolveEntry (r : CallResult) (e : Entry) : Entry := { e with st := .resolved, slot := some r }

/-- The terminal event applied to `PT[k]`. -/
def resolveAt (k : Nat) (r : CallResult) (s : State) : State := { s with pt := s.pt.modify k (resolveEntry r) }

/-- The results HOST's callers in ISSUE get when the connection closes (R167, R178), in index order (log 13). -/
def issueReturns : List (Nat × Caller) → List Output
  | [] => []
  | (j, c) :: m =>
    if c.fsm = .issue then .ret j (.err .connectionClosed) :: issueReturns m else issueReturns m

/-- A caller in ISSUE goes back to IDLE when the connection closes (R167). -/
def abandonIssue (c : Caller) : Caller := if c.fsm = .issue then { c with fsm := .idle } else c

/-- What the close does to one entry (R178). -/
def closeEntry (e : Entry) : Entry :=
  if e.st = .pending then resolveEntry (.err .connectionClosed) e else e

/-- The close procedure of the client (R178): every pending entry is resolved with ConnectionClosed, callers in
ISSUE return (R167, log 13), the connection bit and the partial frame are cleared, `cclose` is emitted. -/
def closeClient (s : State) : State :=
  { s with
    pt := s.pt.map closeEntry
    up := false
    rlRx := []
    callers := sparseMap Caller.reset abandonIssue s.callers
    outputs := s.outputs ++ .cclose :: issueReturns s.callers }

end Sys2Proof.Machine
end

