-- ==== Sys2Proof/Machine/Operands.lean ====
section
/-! DEFINITION. Operand forms: bit packing, register words, the coil value, the quantity bounds of each function code,
and the arguments of the facade operations. -/

namespace Sys2Proof.Machine

/-- `ceil8(n)` (R10). -/
def ceil8 (n : Nat) : Nat := (n + 7) / 8

/-- The number whose bit `b` is the `b`-th bit of the list. -/
def bitsToNat : List Bit → Nat
  | [] => 0
  | b :: bs => b.toNat + 2 * bitsToNat bs

/-- `n` bytes of packed bits, eight a byte, the least significant bit first (R54). -/
def packBytes : Nat → List Bit → List Byte
  | 0, _ => []
  | n + 1, bs => BitVec.ofNat 8 (bitsToNat (bs.take 8)) :: packBytes n (bs.drop 8)

/-- The packing of R54: `ceil8(n)` bytes, the bits above the last one 0. -/
def packBits (bs : List Bit) : List Byte := packBytes (ceil8 bs.length) bs

/-- The eight bits of a byte, the least significant first (R54). -/
def byteBits (b : Byte) : List Bit :=
  [b.extractLsb' 0 1, b.extractLsb' 1 1, b.extractLsb' 2 1, b.extractLsb' 3 1,
   b.extractLsb' 4 1, b.extractLsb' 5 1, b.extractLsb' 6 1, b.extractLsb' 7 1]

/-- The bits of a byte sequence, the least significant of each byte first (R54, R183). -/
def unpackBits : List Byte → List Bit
  | [] => []
  | b :: bs => byteBits b ++ unpackBits bs

/-- Register values in ascending address order, each big-endian (R53). -/
def regBytes : List Word → List Byte
  | [] => []
  | w :: ws => be16 w ++ regBytes ws

/-- The big-endian words of a byte sequence (R53, R89). -/
def bytesRegs : List Byte → List Word
  | a :: b :: rest => wordOf a b :: bytesRegs rest
  | _ => []

/-- The Write Single Coil value (R78, R89): 0xFF00 is 1, 0x0000 is 0, anything else is illegal. -/
def coilOf (value : Word) : Option Bit :=
  if value = 0xFF00#16 then some 1 else if value = 0x0000#16 then some 0 else none

/-- The value a client sends for a coil (R89). -/
def coilWord (on : Bool) : Word := if on then 0xFF00#16 else 0x0000#16

/-- Step (c) of a read (R125): the exact length, and a quantity within 1 and the bound. -/
def readValueOk (qty : Word) (tail : List Byte) (bound : Nat) : Bool :=
  tail.isEmpty && decide (1 ≤ qty.toNat ∧ qty.toNat ≤ bound)

/-- Step (c) of Write Multiple Registers (R125): quantity, byte count and exact length. -/
def multiValueOk (qty : Word) (bc : Byte) (data : List Byte) (bound : Nat) : Bool :=
  decide (1 ≤ qty.toNat ∧ qty.toNat ≤ bound) && decide (bc.toNat = 2 * qty.toNat)
    && decide (data.length = bc.toNat)

/-- `[fc, ceil8(qty)] ++ pack(bits)`: format `RS-BITS` (R80). -/
def rsBits (fc : Byte) (cells : List Bit) : List Byte :=
  fc :: BitVec.ofNat 8 (ceil8 cells.length) :: packBits cells

/-- `[fc, 2*qty] ++ be16(c0) ++ ...`: format `RS-REGS` (R80). -/
def rsRegs (fc : Byte) (cells : List Word) : List Byte :=
  fc :: BitVec.ofNat 8 (2 * cells.length) :: regBytes cells

/-- Format `RS-WSINGLE`, the request repeated (R81). -/
def rsSingle (fc : Byte) (addr value : Word) : List Byte := fc :: (be16 addr ++ be16 value)

/-- Format `RS-WMULTI` (R81). -/
def rsMulti (addr qty : Word) : List Byte := 0x10#8 :: (be16 addr ++ be16 qty)

/-- A 16-bit unsigned argument (R164). -/
def is16 (n : Nat) : Bool := decide (n < 65536)

/-- `MAXV` (R164): the most values a request PDU can hold. -/
def maxValues (c : Config) : Nat := min 255 (c.maxPdu - 6) / 2

/-- The domain of the facade's arguments (R164). -/
def inDomain (c : Config) : FacadeOp → Bool
  | .writeCoil a _ => is16 a
  | .readCoils a n => is16 a && is16 n
  | .writeRegister a v => is16 a && is16 v
  | .writeRegisters a vs => is16 a && vs.all is16 && decide (vs.length ≤ maxValues c)
  | .readHoldingRegisters a n => is16 a && is16 n
  | .readInputRegisters a n => is16 a && is16 n

/-- A natural number as a 16-bit argument. -/
def arg16 (n : Nat) : Word := BitVec.ofNat 16 n

/-- What `Build` gives (R167): the request PDU and the entry fields. -/
structure Built where
  pdu  : List Byte
  fc   : Byte
  addr : Word
  qty  : Word
  val  : Word
deriving DecidableEq, Repr

/-- `Build` (R182 to R187). Where the rule names no `val`, the value is free (log 15). -/
def build : FacadeOp → Built
  | .writeCoil a on =>
    { pdu := rsSingle 0x05#8 (arg16 a) (coilWord on), fc := 0x05#8, addr := arg16 a, qty := 1, val := coilWord on }
  | .readCoils a n =>
    { pdu := rsSingle 0x01#8 (arg16 a) (arg16 n), fc := 0x01#8, addr := arg16 a, qty := arg16 n,
      val := Config.unstatedVal 0x01#8 (arg16 a) (arg16 n) }
  | .writeRegister a v =>
    { pdu := rsSingle 0x06#8 (arg16 a) (arg16 v), fc := 0x06#8, addr := arg16 a, qty := 1, val := arg16 v }
  | .writeRegisters a vs =>
    { pdu := 0x10#8 :: (be16 (arg16 a) ++ be16 (arg16 vs.length)
        ++ BitVec.ofNat 8 (2 * vs.length) :: regBytes (vs.map arg16)),
      fc := 0x10#8, addr := arg16 a, qty := arg16 vs.length,
      val := Config.unstatedVal 0x10#8 (arg16 a) (arg16 vs.length) }
  | .readHoldingRegisters a n =>
    { pdu := rsSingle 0x03#8 (arg16 a) (arg16 n), fc := 0x03#8, addr := arg16 a, qty := arg16 n,
      val := Config.unstatedVal 0x03#8 (arg16 a) (arg16 n) }
  | .readInputRegisters a n =>
    { pdu := rsSingle 0x04#8 (arg16 a) (arg16 n), fc := 0x04#8, addr := arg16 a, qty := arg16 n,
      val := Config.unstatedVal 0x04#8 (arg16 a) (arg16 n) }

end Sys2Proof.Machine
end

