-- ==== Sys2Proof/Machine/Codec.lean ====
section
/-! DEFINITION. The frame codec and the stream deframer (40_codec.md R100 to R110). -/

namespace Sys2Proof.Machine

/-- `Encode(tid, uid, pdu)` (R100); none outside its domain. -/
def encodeFrame (maxPdu : Nat) (tid : Word) (uid : Byte) (pdu : List Byte) : Option (List Byte) :=
  if 1 ≤ pdu.length ∧ pdu.length ≤ maxPdu then
    some (be16 tid ++ [0x00#8, 0x00#8] ++ be16 (BitVec.ofNat 16 (1 + pdu.length)) ++ [uid] ++ pdu)
  else none

/-- The length field `L` (R88). -/
def lengthField (b : List Byte) : Nat := (u16 b 4).toNat

/-- `Decode(b)` (R102, R103, R104), its checks in the order the rule gives. -/
def decodeFrame (maxPdu : Nat) (b : List Byte) : Decoded :=
  if b.length < 7 then .malformed .short
  else if u16 b 2 ≠ 0x0000#16 then .malformed .proto
  else if lengthField b ≠ b.length - 6 then .malformed .length
  else if lengthField b < 2 then .malformed .empty
  else if maxPdu + 1 < lengthField b then .malformed .tooLong
  else .frame { tid := u16 b 0, uid := b.getD 6 0, pdu := b.drop 7 }

/-- What of a verdict leaves the block: a malformed frame is a `MalformedFrameError` without its tag (R86, R201). -/
def portResult (d : Decoded) : DecodeResult :=
  match d with
  | .frame f => .frame f
  | .malformed _ => .malformedFrameError

/-- What one deframer step gives (R107, R108). -/
inductive Deframed where
  | more (rx : List Byte)
  | frame (f : Frame)
  | malformed (tag : MalformedTag)
deriving DecidableEq, Repr

/-- The header check at six bytes (R108). -/
def headerCheck (maxPdu : Nat) (rx : List Byte) : Option MalformedTag :=
  if u16 rx 2 ≠ 0x0000#16 then some .proto
  else if lengthField rx < 2 then some .empty
  else if maxPdu + 1 < lengthField rx then some .tooLong
  else none

/-- One deframer step (R107, R108): the byte `x` is appended; at six bytes the header is checked; at `6 + L`
bytes the frame is decoded. A buffer longer than that, which no run reaches, gets `Decode`'s verdict (log 17). -/
def deframe (maxPdu : Nat) (rx : List Byte) (x : Byte) : Deframed :=
  let rx' := rx ++ [x]
  if rx'.length < 6 then .more rx'
  else if rx'.length = 6 then
    match headerCheck maxPdu rx' with
    | some tag => .malformed tag
    | none => .more rx'
  else if rx'.length < 6 + lengthField rx' then .more rx'
  else
    match decodeFrame maxPdu rx' with
    | .frame f => .frame f
    | .malformed tag => .malformed tag

end Sys2Proof.Machine
end

