-- ==== Sys2Proof/Machine/Correlator.lean ====
section
/-! DEFINITION. The response correlator (42_client_transaction.md R171 to R174) and the parse clauses of the facade
operations (R182 to R187). -/

namespace Sys2Proof.Machine

/-- `Err(MalformedResponse)` (R208). -/
def malformedResponse : CallResult := .err .malformedResponse

/-- The parse clause of `writeCoil` and `writeRegister` (R182, R184): the response equals the request. -/
def parseEcho (e : Entry) (p : List Byte) : CallResult :=
  if p = rsSingle e.fc e.addr e.val then .ok .unit else malformedResponse

/-- The parse clause of `writeRegisters` (R185). -/
def parseMulti (e : Entry) (p : List Byte) : CallResult :=
  if p.length = 5 ∧ u16 p 1 = e.addr ∧ u16 p 3 = e.qty then .ok .unit else malformedResponse

/-- The parse clause of `readCoils` (R183): at least `count` bits, truncated to `count`. -/
def parseBits (e : Entry) (p : List Byte) : CallResult :=
  let bc := (p.getD 1 0).toNat
  if 2 ≤ p.length ∧ p.length = 2 + bc ∧ e.qty.toNat ≤ 8 * bc then
    .ok (.bits ((unpackBits (p.drop 2)).take e.qty.toNat))
  else malformedResponse

/-- The parse clause of `readHoldingRegisters` and `readInputRegisters` (R186, R187). -/
def parseRegs (e : Entry) (p : List Byte) : CallResult :=
  let bc := (p.getD 1 0).toNat
  if 2 ≤ p.length ∧ bc = 2 * e.qty.toNat ∧ p.length = 2 + bc then
    .ok (.regs (bytesRegs (p.drop 2)))
  else malformedResponse

/-- `Parse_fc` (R173): the clause of the operation whose function code the entry holds. -/
def parseResponse (e : Entry) (p : List Byte) : CallResult :=
  if e.fc = 0x05#8 ∨ e.fc = 0x06#8 then parseEcho e p
  else if e.fc = 0x10#8 then parseMulti e p
  else if e.fc = 0x01#8 then parseBits e p
  else if e.fc = 0x03#8 ∨ e.fc = 0x04#8 then parseRegs e p
  else malformedResponse

/-- `Check(e, p)` (R173, R174). -/
def checkResponse (e : Entry) : List Byte → CallResult
  | [] => malformedResponse
  | fc :: payload =>
    if fc = withExceptionBit e.fc then
      match payload with
      | [code] => .err (.exception code)
      | _ => malformedResponse
    else if fc = e.fc then parseResponse e (fc :: payload)
    else malformedResponse

/-- Correlate (R171), or drop and log (R172). -/
def correlate (tid : Word) (pdu : List Byte) (s : State) : State :=
  match pendingIndex s.pt tid with
  | none => emit (.unexpected tid) s
  | some k => resolveAt k (checkResponse (s.pt.getD k Entry.reset) pdu) s

end Sys2Proof.Machine
end

