-- ==== Sys2Proof/Machine/Read.lean ====
section
/-! DEFINITION. The four reads: RC, RDI, RHR, RIR (41_router_datastore.md R130 to R133). -/

namespace Sys2Proof.Machine

/-- A read of a bit bank by `S[i]` (R130, R131), in the order of R121. -/
def routeReadBits (fc : Byte) (b : BitBank) (i : Nat) (p : PairForm) (s : State) : State :=
  match p with
  | .cut _ => raiseExc i fc .illegalDataValue s
  | .full addr qty tail =>
    if inRange (capBits s.cfg b) addr.toNat qty.toNat = false then raiseExc i fc .illegalDataAddress s
    else if readValueOk qty tail s.cfg.maxRdBits = false then raiseExc i fc .illegalDataValue s
    else
      match dsReadBits (.server i) b addr.toNat qty.toNat s with
      | .wait => s
      | .serverFailure => raiseExc i fc .serverFailure s
      | .done cells s' => answer i (rsBits fc cells) s'

/-- A read of a register bank by `S[i]` (R132, R133), in the order of R121. -/
def routeReadRegs (fc : Byte) (r : RegBank) (i : Nat) (p : PairForm) (s : State) : State :=
  match p with
  | .cut _ => raiseExc i fc .illegalDataValue s
  | .full addr qty tail =>
    if inRange (capRegs s.cfg r) addr.toNat qty.toNat = false then raiseExc i fc .illegalDataAddress s
    else if readValueOk qty tail s.cfg.maxRdRegs = false then raiseExc i fc .illegalDataValue s
    else
      match dsReadRegs (.server i) r addr.toNat qty.toNat s with
      | .wait => s
      | .serverFailure => raiseExc i fc .serverFailure s
      | .done cells s' => answer i (rsRegs fc cells) s'

/-- RC (R130) at a server; as a response PDU, R171 and R183. -/
def execRc (p : PairForm) (s : State) : Host.Outcome State Fault Refusal :=
  match s.active with
  | .server i => .next (routeReadBits 0x01#8 .co i p s)
  | .client tid => .next (correlate tid (encodePdu (.rc p)) s)

/-- RDI (R131) at a server; as a response PDU, R171 and R188. -/
def execRdi (p : PairForm) (s : State) : Host.Outcome State Fault Refusal :=
  match s.active with
  | .server i => .next (routeReadBits 0x02#8 .di i p s)
  | .client tid => .next (correlate tid (encodePdu (.rdi p)) s)

/-- RHR (R132) at a server; as a response PDU, R171 and R186. -/
def execRhr (p : PairForm) (s : State) : Host.Outcome State Fault Refusal :=
  match s.active with
  | .server i => .next (routeReadRegs 0x03#8 .hr i p s)
  | .client tid => .next (correlate tid (encodePdu (.rhr p)) s)

/-- RIR (R133) at a server; as a response PDU, R171 and R187. -/
def execRir (p : PairForm) (s : State) : Host.Outcome State Fault Refusal :=
  match s.active with
  | .server i => .next (routeReadRegs 0x04#8 .ir i p s)
  | .client tid => .next (correlate tid (encodePdu (.rir p)) s)

end Sys2Proof.Machine
end

