-- ==== Sys2Proof/Machine/Response.lean ====
section
/-! DEFINITION. EXC, the exception response (30_encoding.md R83; 42_client_transaction.md R173, R174). -/

namespace Sys2Proof.Machine

/-- EXC as a response PDU (R171, R173, R174). As a request it is an unrecognised function code, answered with
IllegalFunction whatever its payload (R85, R126, R202). -/
def execExc (fc : BitVec 7) (e : ExcForm) (s : State) : Host.Outcome State Fault Refusal :=
  match s.active with
  | .server i => .next (raiseExc i (excByte fc) .illegalFunction s)
  | .client tid => .next (correlate tid (encodePdu (.exc fc e)) s)

end Sys2Proof.Machine
end

