-- ==== Sys2Proof/Machine/Write.lean ====
section
/-! DEFINITION. The three writes: WSC, WSR, WMR (41_router_datastore.md R134 to R136). -/

namespace Sys2Proof.Machine

/-- Write Single Coil by `S[i]` (R134), in the order of R121. -/
def routeWriteCoil (i : Nat) (p : PairForm) (s : State) : State :=
  match p with
  | .cut _ => raiseExc i 0x05#8 .illegalDataValue s
  | .full addr value tail =>
    if inRange (capBits s.cfg .co) addr.toNat 1 = false then raiseExc i 0x05#8 .illegalDataAddress s
    else if tail.isEmpty = false then raiseExc i 0x05#8 .illegalDataValue s
    else
      match coilOf value with
      | none => raiseExc i 0x05#8 .illegalDataValue s
      | some bit =>
        match dsWriteBits (.server i) .co addr.toNat [bit] s with
        | .wait => s
        | .serverFailure => raiseExc i 0x05#8 .serverFailure s
        | .done _ s' => answer i (rsSingle 0x05#8 addr value) s'

/-- Write Single Register by `S[i]` (R135), in the order of R121. -/
def routeWriteReg (i : Nat) (p : PairForm) (s : State) : State :=
  match p with
  | .cut _ => raiseExc i 0x06#8 .illegalDataValue s
  | .full addr value tail =>
    if inRange (capRegs s.cfg .hr) addr.toNat 1 = false then raiseExc i 0x06#8 .illegalDataAddress s
    else if tail.isEmpty = false then raiseExc i 0x06#8 .illegalDataValue s
    else
      match dsWriteRegs (.server i) .hr addr.toNat [value] s with
      | .wait => s
      | .serverFailure => raiseExc i 0x06#8 .serverFailure s
      | .done _ s' => answer i (rsSingle 0x06#8 addr value) s'

/-- Write Multiple Registers by `S[i]` (R136), in the order of R121. -/
def routeWriteRegs (i : Nat) (m : MultiForm) (s : State) : State :=
  match m with
  | .cut _ => raiseExc i 0x10#8 .illegalDataValue s
  | .full addr qty bc data =>
    if inRange (capRegs s.cfg .hr) addr.toNat qty.toNat = false then raiseExc i 0x10#8 .illegalDataAddress s
    else if multiValueOk qty bc data s.cfg.maxWrRegs = false then raiseExc i 0x10#8 .illegalDataValue s
    else
      match dsWriteRegs (.server i) .hr addr.toNat (bytesRegs data) s with
      | .wait => s
      | .serverFailure => raiseExc i 0x10#8 .serverFailure s
      | .done _ s' => answer i (rsMulti addr qty) s'

/-- WSC (R134) at a server; as a response PDU, R171 and R182. -/
def execWsc (p : PairForm) (s : State) : Host.Outcome State Fault Refusal :=
  match s.active with
  | .server i => .next (routeWriteCoil i p s)
  | .client tid => .next (correlate tid (encodePdu (.wsc p)) s)

/-- WSR (R135) at a server; as a response PDU, R171 and R184. -/
def execWsr (p : PairForm) (s : State) : Host.Outcome State Fault Refusal :=
  match s.active with
  | .server i => .next (routeWriteReg i p s)
  | .client tid => .next (correlate tid (encodePdu (.wsr p)) s)

/-- WMR (R136) at a server; as a response PDU, R171 and R185. -/
def execWmr (m : MultiForm) (s : State) : Host.Outcome State Fault Refusal :=
  match s.active with
  | .server i => .next (routeWriteRegs i m s)
  | .client tid => .next (correlate tid (encodePdu (.wmr m)) s)

end Sys2Proof.Machine
end

