-- ==== Sys2Proof/Machine/Dispatch.lean ====
section
/-! DEFINITION. The meaning of each instruction: the ROUTE step of the active server agent (40_codec.md R115), or the
correlate step of the read loop (42_client_transaction.md R171). -/

namespace Sys2Proof.Machine

def exec (i : Instr) (s : State) : Host.Outcome State Fault Refusal :=
  match i with
  | .rc p => Sys2Proof.Machine.execRc p s
  | .rdi p => Sys2Proof.Machine.execRdi p s
  | .rhr p => Sys2Proof.Machine.execRhr p s
  | .rir p => Sys2Proof.Machine.execRir p s
  | .wsc p => Sys2Proof.Machine.execWsc p s
  | .wsr p => Sys2Proof.Machine.execWsr p s
  | .wmr m => Sys2Proof.Machine.execWmr m s
  | .exc fc e => Sys2Proof.Machine.execExc fc e s

end Sys2Proof.Machine
end

