-- ==== Sys2Proof/Machine/Client.lean ====
section
/-! DEFINITION. The client: connection, facade calls, issue, read loop, timeout and collection
(42_client_transaction.md R160 to R190). -/

namespace Sys2Proof.Machine

/-- `connect()` (R161); `ok` is HOST's draw, not looked at while the connection is open. The new connection's
stream starts empty (log 5). -/
def connectOffer (ok : Bool) (s : State) : State :=
  if s.up then emit (.connected true) s
  else if ok then emit (.connected true) { s with up := true, rlRx := [], clInp := [] }
  else emit (.connected false) s

/-- `disconnect()` (R162). -/
def disconnectOffer (s : State) : State := if s.up then closeClient s else s

/-- `C[j]` starts a facade operation (R163, R164, R167). While it runs one it takes no such step. A closed
connection is reported before an argument outside the domain (log 14). A caller the instance does not have is
refused (log 31). -/
def callOffer (j : Nat) (op : FacadeOp) (s : State) : Host.Outcome State Fault Refusal :=
  if hasCaller s.cfg j then
    let c := callerAt s j
    .next
      (if c.fsm = .idle then
        if s.up = false then emit (.ret j (.err .connectionClosed)) s
        else if inDomain s.cfg op = false then emit (.ret j (.err .invalidArgument)) s
        else setCaller j { c with fsm := .issue, op := op } s
      else s)
  else .refused .noSuchAgent

/-- `C[j]` takes the transmit arbiter (R37); none while another holds it. -/
def acquireTx (j : Nat) (s : State) : Option State :=
  if s.tx = .free then some { s with tx := .held j } else none

/-- The transmit arbiter is given back (R37). -/
def releaseTx (s : State) : State := { s with tx := .free }

/-- The pending entry an issue step writes (R167). -/
def issuedEntry (j : Nat) (t : Word) (b : Built) (now : Ticks) : Entry :=
  { st := .pending, tid := t, fc := b.fc, addr := b.addr, qty := b.qty, val := b.val, tSub := now, owner := j,
    slot := none }

/-- The issue step writes entry `k`, the id counter and the caller (R165, R167). -/
def register (j k : Nat) (t : Word) (s : State) : State :=
  let c := callerAt s j
  setCaller j { c with fsm := .wait, k := k }
    { s with pt := s.pt.set k (issuedEntry j t (build c.op) s.now), tidc := t + 1 }

/-- The issue step of `C[j]` (R166, R167); it holds without a free entry. With `sent = false` the transmit
stream reports an I/O error and the close procedure runs in the same step (R179). -/
def issue (j : Nat) (sent : Bool) (s : State) : Host.Outcome State Fault Refusal :=
  match acquireTx j s with
  | none => .next s
  | some s1 =>
    match lowestFree s1.pt with
    | none => .next s
    | some k =>
      let t := allocTid s1.pt s1.tidc
      match encodeFrame s1.cfg.maxPdu t s1.cfg.unitId (build (callerAt s1 j).op).pdu with
      | none => .refused .encodeDomain
      | some frame =>
        let s2 := releaseTx (emit (.ctx frame sent) (register j k t s1))
        if sent then .next s2 else .next (closeClient s2)

/-- `C[j]` in WAIT collects the result of its entry (R169, R181); it holds until there is one. -/
def collect (j : Nat) (s : State) : State :=
  let c := callerAt s j
  match s.pt[c.k]? with
  | none => s
  | some e =>
    if e.st = .resolved then
      match e.slot with
      | none => s
      | some r =>
        emit (.ret j r)
          (setCaller j { c with fsm := .idle } (setEntry c.k { e with st := .free, slot := none } s))
    else s

/-- The step of `C[j]` by its position (R167, R169, R181). -/
def callerOffer (j : Nat) (sent : Bool) (s : State) : Host.Outcome State Fault Refusal :=
  let c := callerAt s j
  match c.fsm with
  | .idle => .next s
  | .issue =>
    if s.up then issue j sent s
    else .next (emit (.ret j (.err .connectionClosed)) (setCaller j { c with fsm := .idle } s))
  | .wait => .next (collect j s)

/-- The client's transport holds one more item (R87, log 5). -/
def clientDeliverOffer (x : StreamItem) (s : State) : State :=
  if s.up then { s with clInp := s.clInp ++ [x] } else s

/-- A completed response frame (R171): its PDU is decoded and executed; a PDU whose function code the decoder
refuses is correlated as it stands (R173). -/
def clientFrame (f : Frame) (s : State) : Host.Outcome State Fault Refusal :=
  match decodePdu f.pdu with
  | .ok instr => exec instr { s with active := .client f.tid }
  | .error _ => .next (correlate f.tid f.pdu { s with active := .client f.tid })

/-- The step of `RL` (R170, R179); with nothing in its stream it holds. -/
def clientReceiveOffer (s : State) : Host.Outcome State Fault Refusal :=
  if s.up then
    match s.clInp with
    | [] => .next s
    | .byte x :: rest =>
      match deframe s.cfg.maxPdu s.rlRx x with
      | .more rx => .next { s with rlRx := rx, clInp := rest }
      | .frame f => clientFrame f { s with rlRx := [], clInp := rest }
      | .malformed _ => .next (closeClient { s with clInp := rest })
    | .eof :: rest => .next (closeClient { s with clInp := rest })
    | .ioError :: rest => .next (closeClient { s with clInp := rest })
  else .next s

/-- `CLK` advances `NOW`, unless some entry is expired (R175). -/
def tickOffer (s : State) : State :=
  if s.pt.any (isExpired s.cfg.timeout s.now) then s else { s with now := s.now + 1 }

/-- The timeout step of an expired entry (R176). -/
def timeoutOffer (k : Nat) (s : State) : State :=
  match s.pt[k]? with
  | none => s
  | some e => if isExpired s.cfg.timeout s.now e then resolveAt k (.err .timeout) s else s

end Sys2Proof.Machine
end

