-- ==== Sys2Proof/Machine/Ports.lean ====
section
/-! DEFINITION. The seed port (20_memory.md R67), the codec port (40_codec.md R100 to R102) and the block reset
(70_reset_and_hazards.md R230). -/

namespace Sys2Proof.Machine

/-- `SeedRead(bank, addr, n)` by HOST (R67). An access of no cells, which R67's precondition admits and R56's widths
leave out, is granted and gives no cells (log 32). -/
def seedReadOffer (b : Bank) (addr n : Nat) (s : State) : Host.Outcome State Fault Refusal :=
  match b with
  | .bits bb =>
    match dsReadBits .host bb addr n s with
    | .wait => .next s
    | .serverFailure => .refused .seedRange
    | .done cells s' => .next (emit (.cells b (cells.map BitVec.toNat)) s')
  | .regs r =>
    match dsReadRegs .host r addr n s with
    | .wait => .next s
    | .serverFailure => .refused .seedRange
    | .done cells s' => .next (emit (.cells b (cells.map BitVec.toNat)) s')

/-- `SeedWrite(bank, addr, vals)` by HOST (R67): every value must fit its cell. A write of no cells is granted and
writes nothing (log 32). -/
def seedWriteOffer (b : Bank) (addr : Nat) (vals : List Nat) (s : State) : Host.Outcome State Fault Refusal :=
  match b with
  | .bits bb =>
    if vals.all (fun v => decide (v < 2)) then
      match dsWriteBits .host bb addr (vals.map (BitVec.ofNat 1)) s with
      | .wait => .next s
      | .serverFailure => .refused .seedRange
      | .done _ s' => .next s'
    else .refused .seedRange
  | .regs r =>
    if vals.all (fun v => decide (v < 65536)) then
      match dsWriteRegs .host r addr (vals.map (BitVec.ofNat 16)) s with
      | .wait => .next s
      | .serverFailure => .refused .seedRange
      | .done _ s' => .next s'
    else .refused .seedRange

/-- `Encode` (R100): no state but the port's output. -/
def encodeOffer (tid : Word) (uid : Byte) (pdu : List Byte) (s : State) : Host.Outcome State Fault Refusal :=
  match encodeFrame s.cfg.maxPdu tid uid pdu with
  | none => .refused .encodeDomain
  | some bytes => .next (emit (.encoded bytes) s)

/-- `Decode` (R102): no state but the port's output. -/
def decodeOffer (bytes : List Byte) (s : State) : State :=
  emit (.decoded (portResult (decodeFrame s.cfg.maxPdu bytes))) s

/-- The block reset (R230): every state element takes its reset value (R41), under the configuration the reset fixes;
an illegal one is refused (R26, R139). What HOST still offers and what was emitted before are not the block's state
(R40). -/
def resetOffer (c : Config) (now : Ticks) (s : State) : Host.Outcome State Fault Refusal :=
  if c.legal then .next { State.boot c now with sched := s.sched, outputs := s.outputs }
  else .refused .illegalConfiguration

end Sys2Proof.Machine
end

