-- ==== Sys2Proof/Machine/Server.lean ====
section
/-! DEFINITION. The server connection agent's frame loop (40_codec.md R111 to R117). -/

namespace Sys2Proof.Machine

/-- HOST opens connection `i` (R112); an agent that is not CLOSED takes no such step (log 20), and one the instance
does not have is refused (log 31). The new connection's stream starts empty (log 5). -/
def openOffer (i : Nat) (s : State) : Host.Outcome State Fault Refusal :=
  if hasConn s.cfg i then
    let c := connAt s i
    .next (if c.fsm = .closed then setConn i { c with fsm := .recv, rx := [], inp := [] } s else s)
  else .refused .noSuchAgent

/-- The transport of an open connection holds one more item (R87, log 5). -/
def deliverOffer (i : Nat) (x : StreamItem) (s : State) : State :=
  let c := connAt s i
  if c.fsm = .closed then s else setConn i { c with inp := c.inp ++ [x] } s

/-- `emit close(i); S[i].rx <- []; S[i].fsm <- CLOSED` (R114, R117). -/
def closeConn (i : Nat) (s : State) : State :=
  emit (.close i) (setConn i { connAt s i with rx := [], fsm := .closed } s)

/-- The step of `S[i]` in RECV on one byte (R113, R114), `rest` being what stays in its stream (R109). -/
def receiveByte (i : Nat) (x : Byte) (rest : List StreamItem) (s : State) : State :=
  let c := connAt s i
  match deframe s.cfg.maxPdu c.rx x with
  | .more rx => setConn i { c with rx := rx, inp := rest } s
  | .frame f =>
    setConn i { c with tid := f.tid, uid := f.uid, req := f.pdu, fsm := .route, rx := [], inp := rest } s
  | .malformed _ => closeConn i (setConn i { c with inp := rest } s)

/-- The step of `S[i]` in RECV (R113, R114, R117); with nothing in its stream it holds. -/
def receiveOffer (i : Nat) (s : State) : State :=
  let c := connAt s i
  if c.fsm = .recv then
    match c.inp with
    | [] => s
    | .byte x :: rest => receiveByte i x rest s
    | .eof :: rest => closeConn i (setConn i { c with inp := rest } s)
    | .ioError :: rest => closeConn i (setConn i { c with inp := rest } s)
  else s

/-- The ROUTE step of `S[i]` (R115, R120, R122): the request is decoded and executed; a function code the decoder
refuses is answered with IllegalFunction (R85, R202). -/
def routeOffer (i : Nat) (s : State) : Host.Outcome State Fault Refusal :=
  let c := connAt s i
  if c.fsm = .route then
    match decodePdu c.req with
    | .ok instr => exec instr { s with active := .server i }
    | .error .emptyPdu => .fault .noRequest
    | .error (.illegalFunction fc) => .next (raiseExc i fc .illegalFunction { s with active := .server i })
  else .next s

/-- The REPLY step of `S[i]` (R116); with `sent = false` the reply is lost and the connection closes (R117). -/
def replyOffer (i : Nat) (sent : Bool) (s : State) : Host.Outcome State Fault Refusal :=
  let c := connAt s i
  if c.fsm = .reply then
    match encodeFrame s.cfg.maxPdu c.tid c.uid c.resp with
    | none => .refused .encodeDomain
    | some frame =>
      if sent then .next (emit (.tx i frame true) (setConn i { c with fsm := .recv, rx := [] } s))
      else .next (closeConn i (emit (.tx i frame false) s))
  else .next s

end Sys2Proof.Machine
end

