-- ==== Sys2Proof/Machine/Agents.lean ====
section
/-! DEFINITION. Every offer's step, and the placing of an instruction where the next step fetches it. -/

namespace Sys2Proof.Machine

/-- The step of the agent an offer names (R86, R87, R216). -/
def takeOffer (o : Offer) (s : State) : Host.Outcome State Fault Refusal :=
  match o with
  | .openConn i => openOffer i s
  | .deliver i x => .next (deliverOffer i x s)
  | .receive i => .next (receiveOffer i s)
  | .route i => routeOffer i s
  | .reply i sent => replyOffer i sent s
  | .seedRead b addr n => seedReadOffer b addr n s
  | .seedWrite b addr vals => seedWriteOffer b addr vals s
  | .encode tid uid pdu => encodeOffer tid uid pdu s
  | .decode bytes => .next (decodeOffer bytes s)
  | .connect ok => .next (connectOffer ok s)
  | .disconnect => .next (disconnectOffer s)
  | .call j op => callOffer j op s
  | .callerStep j sent => callerOffer j sent s
  | .clientDeliver x => .next (clientDeliverOffer x s)
  | .clientReceive => clientReceiveOffer s
  | .tick => .next (tickOffer s)
  | .timeout k => .next (timeoutOffer k s)
  | .reset c now => resetOffer c now s

/-- `S[0]` in ROUTE with request `pdu`, and the route step offered next (log 22). -/
def placeRequest (pdu : List Byte) (s : State) : State :=
  { setConn 0 { connAt s 0 with fsm := .route, req := pdu } s with sched := .route 0 :: s.sched }

/-- The client connected, with all but the last byte of a response frame received and the last one in its
stream, and the read loop's step offered next (log 22). -/
def placeResponse (pdu : List Byte) (s : State) : State :=
  let frame := (encodeFrame s.cfg.maxPdu 0 s.cfg.unitId pdu).getD []
  { s with
    up := true
    rlRx := frame.dropLast
    clInp := [.byte (frame.getLastD 0)]
    sched := .clientReceive :: s.sched }

end Sys2Proof.Machine
end

