-- ==== Sys2Proof/Machine/Step.lean ====
section
/-! DEFINITION. One step: the oldest offer is taken. -/

namespace Sys2Proof.Machine

/-- One step of the block. An instance with an illegal configuration is refused (R26, I14). With no offer left
every agent holds (log 1). -/
def step (s : State) : Host.Outcome State Fault Refusal :=
  if s.cfg.legal then
    match s.sched with
    | [] => .next s
    | o :: rest => takeOffer o { s with sched := rest }
  else .refused .illegalConfiguration

/-- `s` with the instruction of a table word placed where the next step fetches it: a request in the request
register of `S[0]`, a response (bit 7 set) in the client's stream (log 22). -/
def State.withFetchWord (s : State) (nbits w : Nat) : State :=
  let pdu := tablePdu nbits w
  if exceptionBit (pdu.getD 0 0) then placeResponse pdu s else placeRequest pdu s

end Sys2Proof.Machine
end

