-- ==== Sys2Proof/Safety.lean ====
section
/-! DEFINITION. What a safe state and a safe run are: the invariants of the block, and the calls HOST may make. -/

namespace Sys2Proof.Machine

/-- A frame being received (R28, R35, R108): short of its header, or with a checked header and short of the
length that header gives. -/
def rxOk (maxPdu : Nat) (rx : List Byte) : Prop :=
  rx.length < 6 ∨
    (u16 rx 2 = 0x0000#16 ∧ 2 ≤ lengthField rx ∧ lengthField rx ≤ maxPdu + 1 ∧
      rx.length < 6 + lengthField rx)

/-- What `S[i]` holds in each of its positions (R28, R29). -/
def connOk (maxPdu : Nat) (c : Conn) : Prop :=
  match c.fsm with
  | .closed => c.rx = []
  | .recv => rxOk maxPdu c.rx
  | .route => c.rx = [] ∧ 1 ≤ c.req.length ∧ c.req.length ≤ maxPdu
  | .reply => c.rx = [] ∧ 2 ≤ c.resp.length ∧ c.resp.length ≤ maxPdu

/-- Every bank lock is free (R25). -/
def locksFree (s : State) : Prop := ∀ b : Bank, lockOf s.locks b = .free

/-- The banks are in canonical form and list only cells that exist (R22, R65). -/
def MemInv (s : State) : Prop := s.mem.wf = true ∧ s.mem.within s.cfg = true

/-- The server side (R25, R28, R29). An agent the instance does not have stands in its reset state (R6; log 31). -/
def ServerInv (s : State) : Prop :=
  sparseWf Conn.reset s.conns = true ∧ (∀ i, connOk s.cfg.maxPdu (connAt s i)) ∧ locksFree s ∧
    (∀ i, hasConn s.cfg i = false → connAt s i = Conn.reset)

/-- `PT[k]` holds a result exactly while RESOLVED (R32). -/
def slotOk (e : Entry) : Prop := e.slot.isSome = decide (e.st = .resolved)

/-- The client's table: its size, its slots, and no transaction id pending twice (R31, R32, R165, R235). -/
def TableInv (s : State) : Prop :=
  s.pt.length = s.cfg.pendingDepth ∧ (∀ (k : Nat) (e : Entry), s.pt[k]? = some e → slotOk e) ∧
    (∀ (k k' : Nat) (e e' : Entry), s.pt[k]? = some e → s.pt[k']? = some e' → e.st = .pending → e'.st = .pending →
      e.tid = e'.tid → k = k')

/-- The client's connection: while it is closed nothing is pending, no caller is issuing and no partial frame is
held (R35, R160, R167, R178); the transmit arbiter is free (R37). That no caller is issuing then is the model's
reading of R167 and R178 (log 13). -/
def LinkInv (s : State) : Prop :=
  s.tx = .free ∧ rxOk s.cfg.maxPdu s.rlRx ∧
    (s.up = false → s.rlRx = [] ∧ (∀ (k : Nat) (e : Entry), s.pt[k]? = some e → e.st ≠ .pending) ∧
      (∀ j, (callerAt s j).fsm ≠ .issue))

/-- The callers: one that issues has arguments in the domain (R164); one that waits owns the entry it waits on,
and an entry in use has its owner waiting on it (R31, R34, R169, R181); one the instance does not have stands in its
reset state (R6; log 31). -/
def CallerInv (s : State) : Prop :=
  sparseWf Caller.reset s.callers = true ∧
    (∀ j, (callerAt s j).fsm = .issue → inDomain s.cfg (callerAt s j).op = true) ∧
    (∀ j, (callerAt s j).fsm = .wait →
      ∃ e, s.pt[(callerAt s j).k]? = some e ∧ e.st ≠ .free ∧ e.owner = j) ∧
    (∀ (k : Nat) (e : Entry), s.pt[k]? = some e → e.st ≠ .free →
      (callerAt s e.owner).fsm = .wait ∧ (callerAt s e.owner).k = k) ∧
    (∀ j, hasCaller s.cfg j = false → callerAt s j = Caller.reset)

/-- The client side. -/
def ClientInv (s : State) : Prop := TableInv s ∧ LinkInv s ∧ CallerInv s

/-- No pending entry is older than TIMEOUT ticks (R175, R177). -/
def AgeInv (s : State) : Prop :=
  ∀ (k : Nat) (e : Entry), s.pt[k]? = some e → e.st = .pending → (s.now - e.tSub).toNat ≤ s.cfg.timeout

/-- Every invariant of the block, with a legal configuration (R26). -/
def Inv (s : State) : Prop := s.cfg.legal = true ∧ MemInv s ∧ ServerInv s ∧ ClientInv s ∧ AgeInv s

/-- A call of HOST the spec gives a meaning: a seed access inside its bank with values that fit (R67), an `Encode`
inside its domain (R100), a reset with a legal configuration (R26), and an open or a call at an agent the instance has
(R6, log 31). Every other offer is one. -/
def offerInDomain (c : Config) : Offer → Bool
  | .seedRead (.bits b) addr n => inRange (capBits c b) addr n
  | .seedRead (.regs r) addr n => inRange (capRegs c r) addr n
  | .seedWrite (.bits b) addr vals => inRange (capBits c b) addr vals.length && vals.all (fun v => decide (v < 2))
  | .seedWrite (.regs r) addr vals =>
    inRange (capRegs c r) addr vals.length && vals.all (fun v => decide (v < 65536))
  | .encode _ _ pdu => decide (1 ≤ pdu.length ∧ pdu.length ≤ c.maxPdu)
  | .reset c' _ => c'.legal
  | .openConn i => hasConn c i
  | .call j _ => hasCaller c j
  | _ => true

/-- A step that goes on. -/
def goesOn (o : Host.Outcome State Fault Refusal) : Prop := ∃ t, o = .next t

end Sys2Proof.Machine
end

