-- ==== Sys2Proof/Certificates/Slice0/Obligations.lean ====
section
/-! DEFINITION. The statements for the provers. OBLIGATIONS.json gives each its tier, basis and the rules it cites. -/

namespace Sys2Proof.Claims

open Sys2Proof Sys2Proof.Machine

/-- `s` with the response register of `S[i]` written and `S[i]` in REPLY: the end of a ROUTE step (R115). -/
def replied (i : Nat) (pdu : List Byte) (s : State) : State :=
  { s with
    conns := sparsePut Conn.reset s.conns i
      { sparseGet Conn.reset s.conns i with fsm := .reply, resp := pdu } }

/-- `s` with `PT[k]` resolved with result `r` (R171, R176). -/
def resolved (k : Nat) (e : Entry) (r : CallResult) (s : State) : State :=
  { s with pt := s.pt.set k { e with st := .resolved, slot := some r } }

/-- `PT[k]` is `e`, it is pending under `tid`, and no other entry is (R171). -/
def onlyPending (s : State) (tid : Word) (k : Nat) (e : Entry) : Prop :=
  s.pt[k]? = some e ∧ e.st = .pending ∧ e.tid = tid ∧
    ∀ (k' : Nat) (e' : Entry), s.pt[k']? = some e' → e'.st = .pending → e'.tid = tid → k' = k

/-- No entry is pending under `tid` (R172). -/
def nonePending (s : State) (tid : Word) : Prop :=
  ∀ (k : Nat) (e : Entry), s.pt[k]? = some e → e.st = .pending → e.tid ≠ tid

/-- The close procedure of the client (R178), with the callers in ISSUE back in IDLE (R167). -/
def isClosed (s t : State) : Prop :=
  t.up = false ∧ t.rlRx = [] ∧
    (∀ k : Nat, t.pt[k]? = (s.pt[k]?).map (fun e =>
      if e.st = .pending then { e with st := .resolved, slot := some (.err .connectionClosed) } else e)) ∧
    (∀ j : Nat, callerAt t j =
      if (callerAt s j).fsm = .issue then { callerAt s j with fsm := .idle } else callerAt s j) ∧
    t.mem = s.mem ∧ t.conns = s.conns ∧ t.tidc = s.tidc ∧ t.now = s.now ∧ t.cfg = s.cfg ∧
    t.locks = s.locks ∧ t.tx = s.tx ∧ t.active = s.active

/-- The entry of an operation, field by field as R167 and R182 to R187 give it; `val` is free where they give none
(log 15). -/
def entryOf (j : Nat) (tid : Word) (now : Ticks) (op : FacadeOp) : Entry :=
  let row (fc : Byte) (addr qty val : Word) : Entry :=
    { st := .pending, tid := tid, fc := fc, addr := addr, qty := qty, val := val, tSub := now, owner := j,
      slot := none }
  let free (fc : Byte) (addr qty : Nat) : Entry :=
    row fc (BitVec.ofNat 16 addr) (BitVec.ofNat 16 qty)
      (Config.unstatedVal fc (BitVec.ofNat 16 addr) (BitVec.ofNat 16 qty))
  match op with
  | .writeCoil a on => row 0x05#8 (BitVec.ofNat 16 a) 1#16 (if on then 0xFF00#16 else 0x0000#16)
  | .readCoils a n => free 0x01#8 a n
  | .writeRegister a v => row 0x06#8 (BitVec.ofNat 16 a) 1#16 (BitVec.ofNat 16 v)
  | .writeRegisters a vs => free 0x10#8 a vs.length
  | .readHoldingRegisters a n => free 0x03#8 a n
  | .readInputRegisters a n => free 0x04#8 a n

/-- `s` after the registration of an issue step of `C[j]` into row `k` (R165, R167). -/
def registered (j k : Nat) (s : State) : State :=
  { s with
    pt := s.pt.set k (entryOf j (allocTid s.pt s.tidc) s.now (callerAt s j).op)
    tidc := allocTid s.pt s.tidc + 1
    callers := sparsePut Caller.reset s.callers j { callerAt s j with fsm := .wait, k := k } }

/-- `C[j]`'s next step issues into row `k`: it is in ISSUE with arguments in the domain, the connection is open, the
arbiter free, and `k` the lowest FREE row (R164, R166, R167). -/
def canIssue (j k : Nat) (s : State) : Prop :=
  (callerAt s j).fsm = .issue ∧ inDomain s.cfg (callerAt s j).op = true ∧ s.up = true ∧ s.tx = .free ∧
    (∃ e, s.pt[k]? = some e ∧ e.st = .free) ∧
    ∀ (k' : Nat) (e' : Entry), k' < k → s.pt[k']? = some e' → e'.st ≠ .free

/-- What a facade operation returns against this block's own server in state `s` (R130 to R136, R174, R182 to R187). -/
def expected (s : State) : FacadeOp → CallResult
  | .writeCoil a _ =>
    if s.cfg.capCo < a + 1 then .err (.exception 0x02#8) else .ok .unit
  | .readCoils a n =>
    if s.cfg.capCo < a + n then .err (.exception 0x02#8)
    else if n < 1 ∨ s.cfg.maxRdBits < n then .err (.exception 0x03#8)
    else .ok (.bits (readCells s.mem.co a n))
  | .writeRegister a _ =>
    if s.cfg.capHr < a + 1 then .err (.exception 0x02#8) else .ok .unit
  | .writeRegisters a vs =>
    if s.cfg.capHr < a + vs.length then .err (.exception 0x02#8)
    else if vs.length < 1 ∨ s.cfg.maxWrRegs < vs.length then .err (.exception 0x03#8)
    else .ok .unit
  | .readHoldingRegisters a n =>
    if s.cfg.capHr < a + n then .err (.exception 0x02#8)
    else if n < 1 ∨ s.cfg.maxRdRegs < n then .err (.exception 0x03#8)
    else .ok (.regs (readCells s.mem.hr a n))
  | .readInputRegisters a n =>
    if s.cfg.capIr < a + n then .err (.exception 0x02#8)
    else if n < 1 ∨ s.cfg.maxRdRegs < n then .err (.exception 0x03#8)
    else .ok (.regs (readCells s.mem.ir a n))

/-- The instruction a facade operation expands to (R92). -/
def expansion : FacadeOp → Instr
  | .writeCoil a on => .wsc (.full (BitVec.ofNat 16 a) (if on then 0xFF00#16 else 0x0000#16) [])
  | .readCoils a n => .rc (.full (BitVec.ofNat 16 a) (BitVec.ofNat 16 n) [])
  | .writeRegister a v => .wsr (.full (BitVec.ofNat 16 a) (BitVec.ofNat 16 v) [])
  | .writeRegisters a vs =>
    .wmr (.full (BitVec.ofNat 16 a) (BitVec.ofNat 16 vs.length) (BitVec.ofNat 8 (2 * vs.length))
      (regBytes (vs.map (BitVec.ofNat 16))))
  | .readHoldingRegisters a n => .rhr (.full (BitVec.ofNat 16 a) (BitVec.ofNat 16 n) [])
  | .readInputRegisters a n => .rir (.full (BitVec.ofNat 16 a) (BitVec.ofNat 16 n) [])

/-- The bank an instruction accesses (R122). -/
def bankOf : Instr → Option Bank
  | .rc _ | .wsc _ => some (.bits .co)
  | .rdi _ => some (.bits .di)
  | .rhr _ | .wsr _ | .wmr _ => some (.regs .hr)
  | .rir _ => some (.regs .ir)
  | .exc _ _ => none

/-- Every bank but `b` holds the same cells. -/
def sameOtherBanks (b : Bank) (s t : State) : Prop :=
  (b ≠ .bits .di → t.mem.di = s.mem.di) ∧ (b ≠ .bits .co → t.mem.co = s.mem.co) ∧
    (b ≠ .regs .hr → t.mem.hr = s.mem.hr) ∧ (b ≠ .regs .ir → t.mem.ir = s.mem.ir)

/-- The seven function codes of R82. -/
def recognised (fc : Byte) : Bool :=
  fc == 0x01#8 || fc == 0x02#8 || fc == 0x03#8 || fc == 0x04#8 || fc == 0x05#8 || fc == 0x06#8 || fc == 0x10#8

/-- Offers of the server side for connection `i`. -/
def ofConn (i : Nat) : Offer → Prop
  | .openConn n | .deliver n _ | .receive n | .route n | .reply n _ => n = i
  | _ => False

/-- Offers of the client side (R87, items 2 and 4). -/
def ofClient : Offer → Bool
  | .connect _ | .disconnect | .call _ _ | .callerStep _ _ | .clientDeliver _ | .clientReceive | .tick
  | .timeout _ => true
  | _ => false

/-- The client's fields are the same. -/
def sameClient (s t : State) : Prop :=
  t.up = s.up ∧ t.pt = s.pt ∧ t.tidc = s.tidc ∧ t.callers = s.callers ∧ t.rlRx = s.rlRx ∧ t.now = s.now ∧
    t.tx = s.tx ∧ t.clInp = s.clInp

/-- The server's fields are the same. -/
def sameServer (s t : State) : Prop := t.mem = s.mem ∧ t.locks = s.locks ∧ t.conns = s.conns

/-- The transitions of a pending entry (R32). FREE to RESOLVED is an issue whose transmission fails: the close
runs in the same step (R179). -/
def entryMove (e e' : Entry) : Prop :=
  e' = e ∨
    (e.st = .free ∧ e'.st = .pending ∧ e'.slot = none) ∨
    (e.st = .free ∧ e'.st = .resolved ∧ e'.slot = some (.err .connectionClosed)) ∨
    (e.st = .pending ∧ ∃ r, e' = { e with st := .resolved, slot := some r }) ∨
    (e.st = .resolved ∧ e' = { e with st := .free, slot := none })

end Sys2Proof.Claims

open Sys2Proof Sys2Proof.Machine Sys2Proof.Claims

/-! ## The router: one statement per instruction, every form, executed by a server agent -/

/-- R130: the pseudocode over the request PDU `pdu`, word for word; RC completes in every form, with its bank's lock
free (R25). -/
def Obligations.RouteReadCoils : Prop :=
  ∀ (s : State) (i : Nat) (p : PairForm), s.active = .server i → s.locks.co = .free → p.formOk = true →
    let pdu := encodePdu (.rc p)
    let addr := (u16 pdu 1).toNat
    let qty := (u16 pdu 3).toNat
    exec (.rc p) s = .next (replied i
      (if pdu.length < 5 then [0x81#8, 0x03#8]
       else if s.cfg.capCo < addr + qty then [0x81#8, 0x02#8]
       else if pdu.length ≠ 5 ∨ qty < 1 ∨ s.cfg.maxRdBits < qty then [0x81#8, 0x03#8]
       else [0x01#8, BitVec.ofNat 8 (ceil8 qty)] ++ packBits (readCells s.mem.co addr qty)) s)

/-- R131: RDI. -/
def Obligations.RouteReadDiscreteInputs : Prop :=
  ∀ (s : State) (i : Nat) (p : PairForm), s.active = .server i → s.locks.di = .free → p.formOk = true →
    let pdu := encodePdu (.rdi p)
    let addr := (u16 pdu 1).toNat
    let qty := (u16 pdu 3).toNat
    exec (.rdi p) s = .next (replied i
      (if pdu.length < 5 then [0x82#8, 0x03#8]
       else if s.cfg.capDi < addr + qty then [0x82#8, 0x02#8]
       else if pdu.length ≠ 5 ∨ qty < 1 ∨ s.cfg.maxRdBits < qty then [0x82#8, 0x03#8]
       else [0x02#8, BitVec.ofNat 8 (ceil8 qty)] ++ packBits (readCells s.mem.di addr qty)) s)

/-- R132: RHR. -/
def Obligations.RouteReadHoldingRegisters : Prop :=
  ∀ (s : State) (i : Nat) (p : PairForm), s.active = .server i → s.locks.hr = .free → p.formOk = true →
    let pdu := encodePdu (.rhr p)
    let addr := (u16 pdu 1).toNat
    let qty := (u16 pdu 3).toNat
    exec (.rhr p) s = .next (replied i
      (if pdu.length < 5 then [0x83#8, 0x03#8]
       else if s.cfg.capHr < addr + qty then [0x83#8, 0x02#8]
       else if pdu.length ≠ 5 ∨ qty < 1 ∨ s.cfg.maxRdRegs < qty then [0x83#8, 0x03#8]
       else [0x03#8, BitVec.ofNat 8 (2 * qty)] ++ (readCells s.mem.hr addr qty).flatMap be16) s)

/-- R133: RIR. -/
def Obligations.RouteReadInputRegisters : Prop :=
  ∀ (s : State) (i : Nat) (p : PairForm), s.active = .server i → s.locks.ir = .free → p.formOk = true →
    let pdu := encodePdu (.rir p)
    let addr := (u16 pdu 1).toNat
    let qty := (u16 pdu 3).toNat
    exec (.rir p) s = .next (replied i
      (if pdu.length < 5 then [0x84#8, 0x03#8]
       else if s.cfg.capIr < addr + qty then [0x84#8, 0x02#8]
       else if pdu.length ≠ 5 ∨ qty < 1 ∨ s.cfg.maxRdRegs < qty then [0x84#8, 0x03#8]
       else [0x04#8, BitVec.ofNat 8 (2 * qty)] ++ (readCells s.mem.ir addr qty).flatMap be16) s)

/-- R134: WSC. -/
def Obligations.RouteWriteSingleCoil : Prop :=
  ∀ (s : State) (i : Nat) (p : PairForm), s.active = .server i → s.locks.co = .free → p.formOk = true →
    let pdu := encodePdu (.wsc p)
    let addr := (u16 pdu 1).toNat
    let value := u16 pdu 3
    exec (.wsc p) s = .next
      (if pdu.length < 5 then replied i [0x85#8, 0x03#8] s
       else if s.cfg.capCo < addr + 1 then replied i [0x85#8, 0x02#8] s
       else if pdu.length ≠ 5 ∨ (value ≠ 0x0000#16 ∧ value ≠ 0xFF00#16) then replied i [0x85#8, 0x03#8] s
       else replied i pdu
        { s with mem := { s.mem with
          co := writeCells s.mem.co addr [if value = 0xFF00#16 then 1#1 else 0#1] } })

/-- R135: WSR. -/
def Obligations.RouteWriteSingleRegister : Prop :=
  ∀ (s : State) (i : Nat) (p : PairForm), s.active = .server i → s.locks.hr = .free → p.formOk = true →
    let pdu := encodePdu (.wsr p)
    let addr := (u16 pdu 1).toNat
    let value := u16 pdu 3
    exec (.wsr p) s = .next
      (if pdu.length < 5 then replied i [0x86#8, 0x03#8] s
       else if s.cfg.capHr < addr + 1 then replied i [0x86#8, 0x02#8] s
       else if pdu.length ≠ 5 then replied i [0x86#8, 0x03#8] s
       else replied i pdu { s with mem := { s.mem with hr := writeCells s.mem.hr addr [value] } })

/-- R136: WMR; the value `v_m` is `u16(pdu, 6 + 2*m)`. -/
def Obligations.RouteWriteMultipleRegisters : Prop :=
  ∀ (s : State) (i : Nat) (m : MultiForm), s.active = .server i → s.locks.hr = .free → m.formOk = true →
    let pdu := encodePdu (.wmr m)
    let addr := (u16 pdu 1).toNat
    let qty := (u16 pdu 3).toNat
    let bc := (pdu.getD 5 0).toNat
    exec (.wmr m) s = .next
      (if pdu.length < 6 then replied i [0x90#8, 0x03#8] s
       else if s.cfg.capHr < addr + qty then replied i [0x90#8, 0x02#8] s
       else if qty < 1 ∨ s.cfg.maxWrRegs < qty ∨ bc ≠ 2 * qty ∨ pdu.length ≠ 6 + bc then
        replied i [0x90#8, 0x03#8] s
       else replied i (0x10#8 :: (be16 (u16 pdu 1) ++ be16 (u16 pdu 3)))
        { s with mem := { s.mem with
          hr := writeCells s.mem.hr addr ((List.range qty).map (fun k => u16 pdu (6 + 2 * k))) } })

/-- R202: every request whose first byte is none of the seven codes, EXC's 0x80 to 0xFF among them, whatever its
payload, is answered by the ROUTE step with IllegalFunction, and nothing else is written. -/
def Obligations.UnrecognisedFunctionCode : Prop :=
  ∀ (s : State) (i : Nat) (fc : Byte) (payload : List Byte) (rest : List Offer),
    s.cfg.legal = true → s.sched = .route i :: rest → (connAt s i).fsm = .route →
    (connAt s i).req = fc :: payload → recognised fc = false →
    step s = .next (replied i [fc ||| 0x80#8, 0x01#8] { s with sched := rest, active := .server i })

/-- EXC completes at the client (R173, R174): an exception response of two bytes whose code is the expected one
with bit 7 set gives its code byte to the caller, unchanged; any other form gives MalformedResponse. -/
def Obligations.ExceptionResponseResolves : Prop :=
  ∀ (s : State) (tid : Word) (k : Nat) (e : Entry) (fc : BitVec 7) (x : ExcForm),
    s.active = .client tid → onlyPending s tid k e →
    exec (.exc fc x) s = .next (resolved k e
      (if 0x80#8 ||| fc.setWidth 8 = e.fc ||| 0x80#8 then
        (match x with
          | .full code [] => .err (.exception code)
          | _ => .err .malformedResponse)
       else .err .malformedResponse) s)

/-- R171 for every instruction as a response PDU: the one entry pending under the frame's id is resolved with
`Check`, and nothing else changes; R172: with none, the frame is dropped and logged. -/
def Obligations.ResponseIsCorrelatedById : Prop :=
  ∀ (s : State) (tid : Word) (i : Instr), s.active = .client tid →
    (∀ k e, onlyPending s tid k e →
      exec i s = .next (resolved k e (checkResponse e (encodePdu i)) s)) ∧
    (nonePending s tid → exec i s = .next { s with outputs := s.outputs ++ [.unexpected tid] })

/-- R25, R55, R56, R127: no step but a reset leaves a lock other than it found it, or changes more than one bank, and
the bank it changes had its lock free. While another holds a bank's lock, each of the seven instructions on that bank
waits or is answered with an exception, which the router raises before it accesses the bank, and a seed access waits:
that they wait in the state as it is is the model's (log 12). -/
def Obligations.BankAccessWaitsForLock : Prop :=
  (∀ (s t : State), step s = .next t → (∀ c now rest, s.sched ≠ .reset c now :: rest) →
    t.locks = s.locks ∧ ∃ b, sameOtherBanks b s t ∧ (t.mem ≠ s.mem → lockOf s.locks b = .free)) ∧
  (∀ (s t : State) (i : Nat) (instr : Instr) (b : Bank), s.active = .server i → bankOf instr = some b →
    lockOf s.locks b ≠ .free → exec instr s = .next t →
    t = s ∨ ∃ code, (code = 0x02#8 ∨ code = 0x03#8) ∧
      t = replied i [(encodePdu instr).getD 0 0 ||| 0x80#8, code] s) ∧
  (∀ (s t : State) (b : Bank) (addr n : Nat) (vals : List Nat) (rest : List Offer), lockOf s.locks b ≠ .free →
    (s.sched = .seedRead b addr n :: rest ∨ s.sched = .seedWrite b addr vals :: rest) → step s = .next t →
    t = { s with sched := rest })

/-! ## Frames -/

/-- The reads and EXC change no bank, and at a server agent nothing but `S[i]`'s position and response (R58, R127). -/
def Obligations.ReadsLeaveEverythingElse : Prop :=
  ∀ (s t : State) (i : Nat) (instr : Instr), s.active = .server i →
    (∃ p, instr = .rc p ∨ instr = .rdi p ∨ instr = .rhr p ∨ instr = .rir p) ∨ (∃ fc e, instr = .exc fc e) →
    exec instr s = .next t →
    { t with conns := s.conns } = s ∧ (∀ n, n ≠ i → connAt t n = connAt s n) ∧
      (sparseWf Conn.reset s.conns = true →
        { connAt t i with fsm := (connAt s i).fsm, resp := (connAt s i).resp } = connAt s i)

/-- The writes change no cell outside the ones they address, no other bank, and nothing else but `S[i]`'s position
and response (R58, R134, R135, R136). -/
def Obligations.WritesLeaveEverythingElse : Prop :=
  ∀ (s t : State) (i : Nat) (instr : Instr), s.active = .server i →
    (∃ p, instr = .wsc p ∨ instr = .wsr p) ∨ (∃ m, instr = .wmr m) →
    exec instr s = .next t →
    { t with conns := s.conns, mem := s.mem } = s ∧ (∀ n, n ≠ i → connAt t n = connAt s n) ∧
      (sparseWf Conn.reset s.conns = true →
        { connAt t i with fsm := (connAt s i).fsm, resp := (connAt s i).resp } = connAt s i) ∧
      t.mem.di = s.mem.di ∧ t.mem.ir = s.mem.ir ∧
      (match instr with
        | .wsc (.full addr _ _) =>
          t.mem.hr = s.mem.hr ∧ ∀ a, a ≠ addr.toNat → sparseGet 0 t.mem.co a = sparseGet 0 s.mem.co a
        | .wsr (.full addr _ _) =>
          t.mem.co = s.mem.co ∧ ∀ a, a ≠ addr.toNat → sparseGet 0 t.mem.hr a = sparseGet 0 s.mem.hr a
        | .wmr (.full addr qty _ _) =>
          t.mem.co = s.mem.co ∧ ∀ a, a < addr.toNat ∨ addr.toNat + qty.toNat ≤ a →
            sparseGet 0 t.mem.hr a = sparseGet 0 s.mem.hr a
        | _ => t.mem = s.mem)

/-- As a response PDU an instruction changes nothing but one pending entry's state and result, or the log
(R171, R172). -/
def Obligations.ResponsesLeaveEverythingElse : Prop :=
  ∀ (s t : State) (tid : Word) (i : Instr), s.active = .client tid → exec i s = .next t →
    { t with pt := s.pt, outputs := s.outputs } = s ∧
      (∀ (k : Nat) (e : Entry), s.pt[k]? = some e → ¬ (e.st = .pending ∧ e.tid = tid) → t.pt[k]? = some e) ∧
      (∀ (k : Nat) (e e' : Entry), s.pt[k]? = some e → t.pt[k]? = some e' →
        { e' with st := e.st, slot := e.slot } = e)

/-! ## Banks -/

/-- R58, R55: a read of the cells a write addressed gives the values written; canonical form as premise. -/
def Obligations.ReadAfterWrite : Prop :=
  ∀ (w : Nat) (m : List (Nat × BitVec w)) (a : Nat) (vs : List (BitVec w)), sparseWf 0 m = true →
    readCells (writeCells m a vs) a vs.length = vs

/-- R53, R54: registers travel big-endian in ascending address order; bits are packed eight a byte, the least
significant first, and the bits above the last one are 0. -/
def Obligations.WireOrder : Prop :=
  (∀ (ws : List Word) (k : Nat) (w : Word), ws[k]? = some w →
    (regBytes ws)[2 * k]? = some (w.extractLsb' 8 8) ∧ (regBytes ws)[2 * k + 1]? = some (w.extractLsb' 0 8)) ∧
  (∀ bs : List Bit, (packBits bs).length = (bs.length + 7) / 8 ∧
    ∀ m b : Nat, m < (bs.length + 7) / 8 → b < 8 →
      (((packBits bs).getD m 0).getLsbD b = true ↔ bs[8 * m + b]? = some 1#1))

/-- A bulk write, then a read of the same range by any server agent, gives the bytes written (the source's
"Bulk write" property; R136, R132, R238). -/
def Obligations.BulkWriteThenRead : Prop :=
  ∀ (s t : State) (i j : Nat) (addr qty : Word) (bc : Byte) (data : List Byte),
    s.mem.wf = true → s.active = .server i → s.locks.hr = .free → addr.toNat + qty.toNat ≤ s.cfg.capHr → 1 ≤ qty.toNat → qty.toNat ≤ s.cfg.maxWrRegs →
    qty.toNat ≤ s.cfg.maxRdRegs → bc.toNat = 2 * qty.toNat → data.length = bc.toNat →
    exec (.wmr (.full addr qty bc data)) s = .next t →
    exec (.rhr (.full addr qty [])) { t with active := .server j } =
      .next (replied j (0x03#8 :: bc :: data) { t with active := .server j })

/-- R67, with an access of no cells granted (log 32): a seed access inside its domain with the bank's lock free completes: a read emits the cells and changes no
bank, a write replaces exactly the addressed cells; outside its domain it is refused. -/
def Obligations.SeedPort : Prop :=
  ∀ (s : State) (r : RegBank) (b : BitBank) (addr n : Nat) (vals : List Nat) (rest : List Offer),
    s.cfg.legal = true → lockOf s.locks (.regs r) = .free → lockOf s.locks (.bits b) = .free →
    (s.sched = .seedRead (.regs r) addr n :: rest →
      step s = if addr + n ≤ capRegs s.cfg r
        then .next { s with
          sched := rest
          outputs := s.outputs ++ [.cells (.regs r) ((readCells (s.mem.regs r) addr n).map BitVec.toNat)] }
        else .refused .seedRange) ∧
    (s.sched = .seedWrite (.regs r) addr vals :: rest →
      step s = if addr + vals.length ≤ capRegs s.cfg r ∧ (∀ v ∈ vals, v < 65536)
        then .next { s with
          sched := rest
          mem := s.mem.setRegs r (writeCells (s.mem.regs r) addr (vals.map (BitVec.ofNat 16))) }
        else .refused .seedRange) ∧
    (s.sched = .seedRead (.bits b) addr n :: rest →
      step s = if addr + n ≤ capBits s.cfg b
        then .next { s with
          sched := rest
          outputs := s.outputs ++ [.cells (.bits b) ((readCells (s.mem.bits b) addr n).map BitVec.toNat)] }
        else .refused .seedRange) ∧
    (s.sched = .seedWrite (.bits b) addr vals :: rest →
      step s = if addr + vals.length ≤ capBits s.cfg b ∧ (∀ v ∈ vals, v < 2)
        then .next { s with
          sched := rest
          mem := s.mem.setBits b (writeCells (s.mem.bits b) addr (vals.map (BitVec.ofNat 1))) }
        else .refused .seedRange)

/-- R137, R231: no step but a seed write or a reset changes DI or IR; and no step but those and a ROUTE step changes
any bank. -/
def Obligations.InputBanksAreReadOnly : Prop :=
  ∀ (s t : State) (o : Offer) (rest : List Offer), s.sched = o :: rest → step s = .next t →
    (∀ b a vs, o ≠ .seedWrite b a vs) → (∀ c now, o ≠ .reset c now) →
    t.mem.di = s.mem.di ∧ t.mem.ir = s.mem.ir ∧ ((∀ i, o ≠ .route i) → t.mem = s.mem)

/-! ## Encoding -/

/-- Decoding the words of any well-formed instruction gives it back (R75 to R83, R89). -/
def Obligations.DecodeEncode : Prop :=
  ∀ (maxPdu : Nat) (i : Instr), i.wellFormed maxPdu = true → decodePdu (encodePdu i) = .ok i

/-- Every PDU the decoder accepts is the encoding of the well-formed instruction it gives: no bit is dropped. -/
def Obligations.EncodeDecode : Prop :=
  ∀ (p : List Byte) (i : Instr), decodePdu p = .ok i → encodePdu i = p ∧ i.wellFormed p.length = true

/-- Words written out from the spec's encodings (R77 to R83; 95_test_vectors.md). -/
def Obligations.WordsDecode : Prop :=
  decodePdu [0x01#8, 0x00#8, 0x02#8, 0x00#8, 0x09#8] = .ok (.rc (.full 2 9 [])) ∧
    decodePdu [0x10#8, 0x00#8, 0x62#8, 0x00#8, 0x02#8, 0x04#8, 0x00#8, 0x07#8, 0x00#8, 0x08#8] =
      .ok (.wmr (.full 98 2 4 [0x00#8, 0x07#8, 0x00#8, 0x08#8])) ∧
    decodePdu [0x83#8, 0x02#8] = .ok (.exc 3 (.full 2 []))

/-- R105, R106: `Decode` of an encoded frame is the frame, and a frame that decodes is the encoding of what it
decodes to. -/
def Obligations.FrameCodecInverse : Prop :=
  (∀ (maxPdu : Nat) (tid : Word) (uid : Byte) (pdu bytes : List Byte), maxPdu ≤ 65534 →
    encodeFrame maxPdu tid uid pdu = some bytes →
    decodeFrame maxPdu bytes = .frame { tid := tid, uid := uid, pdu := pdu }) ∧
  (∀ (maxPdu : Nat) (b : List Byte) (f : Frame), maxPdu ≤ 65534 → decodeFrame maxPdu b = .frame f →
    encodeFrame maxPdu f.tid f.uid f.pdu = some b)

/-- R70: the layout of a frame, byte by byte. -/
def Obligations.FrameLayout : Prop :=
  ∀ (maxPdu : Nat) (tid : Word) (uid : Byte) (pdu : List Byte), maxPdu ≤ 65534 → 1 ≤ pdu.length →
    pdu.length ≤ maxPdu →
    ∃ b, encodeFrame maxPdu tid uid pdu = some b ∧ b.length = 7 + pdu.length ∧
      u16 b 0 = tid ∧ u16 b 2 = 0x0000#16 ∧ (u16 b 4).toNat = 1 + pdu.length ∧ b[6]? = some uid ∧
      b.drop 7 = pdu

/-- R102, R103, R104: which byte sequences `Decode` refuses, and with which of its tags, and the frame it reads from
the others. -/
def Obligations.DecodeVerdicts : Prop :=
  ∀ (maxPdu : Nat) (b : List Byte),
    (decodeFrame maxPdu b = .malformed .short ↔ b.length < 7) ∧
    (7 ≤ b.length → (decodeFrame maxPdu b = .malformed .proto ↔ u16 b 2 ≠ 0x0000#16)) ∧
    (7 ≤ b.length → u16 b 2 = 0x0000#16 →
      (decodeFrame maxPdu b = .malformed .length ↔ (u16 b 4).toNat ≠ b.length - 6)) ∧
    (7 ≤ b.length → u16 b 2 = 0x0000#16 → (u16 b 4).toNat = b.length - 6 →
      (decodeFrame maxPdu b = .malformed .empty ↔ b.length < 8) ∧
      (decodeFrame maxPdu b = .malformed .tooLong ↔ 8 ≤ b.length ∧ maxPdu + 7 < b.length) ∧
      (8 ≤ b.length → b.length ≤ maxPdu + 7 →
        decodeFrame maxPdu b = .frame { tid := u16 b 0, uid := b.getD 6 0, pdu := b.drop 7 }))

/-- R100, R101, R86, R201: the codec port emits the encoding, or is refused outside the domain of `Encode`; it emits the
decoded frame, or a MalformedFrameError without its tag; it writes no other state. -/
def Obligations.CodecPort : Prop :=
  ∀ (s : State) (tid : Word) (uid : Byte) (pdu b : List Byte) (rest : List Offer), s.cfg.legal = true →
    (s.sched = .encode tid uid pdu :: rest →
      step s = if 1 ≤ pdu.length ∧ pdu.length ≤ s.cfg.maxPdu
        then .next { s with
          sched := rest
          outputs := s.outputs ++ [.encoded
            (be16 tid ++ [0x00#8, 0x00#8] ++ be16 (BitVec.ofNat 16 (1 + pdu.length)) ++ [uid] ++ pdu)] }
        else .refused .encodeDomain) ∧
    (s.sched = .decode b :: rest →
      step s = .next { s with
        sched := rest
        outputs := s.outputs ++ [.decoded (match decodeFrame s.cfg.maxPdu b with
          | .frame f => .frame f
          | .malformed _ => .malformedFrameError)] })

/-! ## The server's frame loop -/

/-- When the request of a server agent in ROUTE decodes to an instruction, the route step is `exec` of it, with the
offer taken and the agent made the active one. -/
def Obligations.RouteStepRunsDecoded : Prop :=
  ∀ (s : State) (i : Nat) (instr : Instr) (rest : List Offer), s.cfg.legal = true →
    s.sched = .route i :: rest → (connAt s i).fsm = .route → decodePdu (connAt s i).req = .ok instr →
    step s = exec instr { s with sched := rest, active := .server i }

/-- When the byte the read loop takes completes a frame whose PDU decodes to an instruction, the step is `exec` of it,
with the offer and the byte taken, the buffer emptied, and the frame's id made the active one. -/
def Obligations.ReadLoopStepRunsDecoded : Prop :=
  ∀ (s : State) (x : Byte) (inp : List StreamItem) (f : Frame) (instr : Instr) (rest : List Offer),
    s.cfg.legal = true → s.sched = .clientReceive :: rest → s.up = true → s.clInp = .byte x :: inp →
    deframe s.cfg.maxPdu s.rlRx x = .frame f → decodePdu f.pdu = .ok instr →
    step s = exec instr { s with sched := rest, rlRx := [], clInp := inp, active := .client f.tid }

/-- R107 to R109, R113: from an empty buffer, as many receive steps as an encoded frame has bytes take exactly that
frame from the stream, leave the bytes after it there, and put the agent in ROUTE with the frame's fields. -/
def Obligations.ReceiveExactlyOneFrame : Prop :=
  ∀ (s : State) (i : Nat) (tid : Word) (uid : Byte) (pdu bytes : List Byte) (inp : List StreamItem)
    (rest : List Offer), s.cfg.legal = true → sparseWf Conn.reset s.conns = true →
    encodeFrame s.cfg.maxPdu tid uid pdu = some bytes →
    (connAt s i).fsm = .recv → (connAt s i).rx = [] →
    (connAt s i).inp = bytes.map StreamItem.byte ++ inp →
    s.sched = List.replicate bytes.length (.receive i) ++ rest →
    Host.Core.run Sys2Proof.core bytes.length s = .next { s with
      sched := rest
      conns := sparsePut Conn.reset s.conns i { connAt s i with
        fsm := .route, rx := [], tid := tid, uid := uid, req := pdu, inp := inp } }

/-- R111, R115, R116: receiving a whole frame, routing it and replying emits exactly one reply frame, with the
request's transaction id and unit id, and puts the agent back in RECV for the next one. -/
def Obligations.ServeOneRequest : Prop :=
  ∀ (s : State) (i : Nat) (tid : Word) (uid : Byte) (pdu bytes : List Byte) (inp : List StreamItem)
    (rest : List Offer), s.cfg.legal = true → sparseWf Conn.reset s.conns = true → locksFree s →
    encodeFrame s.cfg.maxPdu tid uid pdu = some bytes →
    (connAt s i).fsm = .recv → (connAt s i).rx = [] →
    (connAt s i).inp = bytes.map StreamItem.byte ++ inp →
    s.sched = List.replicate bytes.length (.receive i) ++ .route i :: .reply i true :: rest →
    ∃ (t : State) (resp frame : List Byte), Host.Core.run Sys2Proof.core (bytes.length + 2) s = .next t ∧
      encodeFrame s.cfg.maxPdu tid uid resp = some frame ∧ t.outputs = s.outputs ++ [.tx i frame true] ∧
      t.sched = rest ∧ (connAt t i).fsm = .recv ∧ (connAt t i).rx = [] ∧ (connAt t i).inp = inp ∧
      sameClient s t

/-- R112: opening a closed connection of the instance; one the instance does not have (R6) is refused (log 31), and
one that is not closed is left (log 20). -/
def Obligations.OpenConnection : Prop :=
  ∀ (s : State) (i : Nat) (rest : List Offer), s.cfg.legal = true → s.sched = .openConn i :: rest →
    ((∀ n, s.cfg.nConn = some n → i < n) →
      step s = .next (if (connAt s i).fsm = .closed
        then { s with
          sched := rest
          conns := sparsePut Conn.reset s.conns i { connAt s i with fsm := .recv, rx := [], inp := [] } }
        else { s with sched := rest })) ∧
    ((∃ n, s.cfg.nConn = some n ∧ n ≤ i) → step s = .refused .noSuchAgent)

/-- R114, R117: a malformed header, an EOF or an I/O error closes the connection: `close(i)` is emitted, no reply;
the agent is CLOSED with an empty buffer, and what follows in the stream is not consumed. -/
def Obligations.BadStreamClosesConnection : Prop :=
  ∀ (s : State) (i : Nat) (x : StreamItem) (inp : List StreamItem) (rest : List Offer),
    s.cfg.legal = true → sparseWf Conn.reset s.conns = true → s.sched = .receive i :: rest →
    (connAt s i).fsm = .recv → (connAt s i).inp = x :: inp →
    (∀ b, x = .byte b → ∃ tag, deframe s.cfg.maxPdu (connAt s i).rx b = .malformed tag) →
    step s = .next { s with
      sched := rest
      outputs := s.outputs ++ [.close i]
      conns := sparsePut Conn.reset s.conns i { connAt s i with fsm := .closed, rx := [], inp := inp } }

/-- R108: a header whose protocol id is not 0, or whose length field is below 2 or above MAX_PDU + 1, is refused at
its sixth byte; any other is kept. -/
def Obligations.HeaderCheckedAtSixBytes : Prop :=
  ∀ (maxPdu : Nat) (rx : List Byte) (x : Byte), rx.length = 5 →
    deframe maxPdu rx x =
      if u16 (rx ++ [x]) 2 ≠ 0x0000#16 then .malformed .proto
      else if (u16 (rx ++ [x]) 4).toNat < 2 then .malformed .empty
      else if maxPdu + 1 < (u16 (rx ++ [x]) 4).toNat then .malformed .tooLong
      else .more (rx ++ [x])

/-- R116, R117: the reply carries the request's ids; a transmit error loses it and closes the connection. -/
def Obligations.ReplyStep : Prop :=
  ∀ (s : State) (i : Nat) (sent : Bool) (frame : List Byte) (rest : List Offer), s.cfg.legal = true →
    s.sched = .reply i sent :: rest → (connAt s i).fsm = .reply →
    encodeFrame s.cfg.maxPdu (connAt s i).tid (connAt s i).uid (connAt s i).resp = some frame →
    step s = .next (if sent
      then { s with
        sched := rest
        outputs := s.outputs ++ [.tx i frame true]
        conns := sparsePut Conn.reset s.conns i { connAt s i with fsm := .recv, rx := [] } }
      else { s with
        sched := rest
        outputs := s.outputs ++ [.tx i frame false, .close i]
        conns := sparsePut Conn.reset s.conns i { connAt s i with fsm := .closed, rx := [] } })

/-- R138: the router is total: every request of 1 to MAX_PDU bytes is answered in one step with one PDU of 2 to
MAX_PDU bytes, 2 to 252 in this hardware. -/
def Obligations.RouterIsTotal : Prop :=
  ∀ (s : State) (i : Nat) (rest : List Offer), s.cfg.legal = true → locksFree s →
    sparseWf Conn.reset s.conns = true → s.sched = .route i :: rest → (connAt s i).fsm = .route →
    1 ≤ (connAt s i).req.length → (connAt s i).req.length ≤ s.cfg.maxPdu →
    ∃ t, step s = .next t ∧ (connAt t i).fsm = .reply ∧ 2 ≤ (connAt t i).resp.length ∧
      (connAt t i).resp.length ≤ s.cfg.maxPdu ∧
      (s.cfg = Config.reference → (connAt t i).resp.length ≤ 252) ∧ t.outputs = s.outputs

/-- R127, R213: an exception response leaves every bank unchanged, and the ROUTE step it ends leaves the
connection open. -/
def Obligations.ExceptionLeavesBanks : Prop :=
  ∀ (s t : State) (i : Nat) (rest : List Offer) (b : Byte) (tail : List Byte),
    sparseWf Conn.reset s.conns = true → s.sched = .route i :: rest → (connAt s i).fsm = .route →
    step s = .next t → (connAt t i).fsm = .reply → (connAt t i).resp = b :: tail → b.getLsbD 7 = true →
    t.mem = s.mem ∧ t.outputs = s.outputs

/-- R220, R117: a step of one connection changes no other connection. -/
def Obligations.ConnectionsAreIsolated : Prop :=
  ∀ (s t : State) (i n : Nat) (o : Offer) (rest : List Offer), s.sched = o :: rest → ofConn i o →
    step s = .next t → n ≠ i → connAt t n = connAt s n

/-- R20: but for a reset, the server side's steps leave the client as it is, and the client's steps leave the server
as it is. -/
def Obligations.ServerAndClientAreSeparate : Prop :=
  ∀ (s t : State) (o : Offer) (rest : List Offer), s.sched = o :: rest → step s = .next t →
    (∀ c now, o ≠ .reset c now) →
    (ofClient o = false → sameClient s t) ∧ (ofClient o = true → sameServer s t)

/-! ## The client -/

/-- R165: the id allocated is the first one from the counter up, wrapping, that is not pending; at most as many are
skipped as the table has entries. -/
def Obligations.AllocatedIdIsFresh : Prop :=
  ∀ (pt : List Entry) (tidc : Word), pt.length ≤ 65535 →
    ∃ n : Nat, n ≤ pt.length ∧ allocTid pt tidc = tidc + BitVec.ofNat 16 n ∧
      (∀ e ∈ pt, e.st = .pending → e.tid ≠ tidc + BitVec.ofNat 16 n) ∧
      (∀ m : Nat, m < n → ∃ e ∈ pt, e.st = .pending ∧ e.tid = tidc + BitVec.ofNat 16 m)

/-- R165, R167: an issue step with the connection open, the arbiter free and a free entry registers the entry in the
lowest free row, each field as R182 to R187 give it, advances the counter, sends the whole frame, and puts the caller in
WAIT on that row. -/
def Obligations.IssueRegistersAndSends : Prop :=
  ∀ (s : State) (j k : Nat) (rest : List Offer), s.cfg.legal = true →
    s.sched = .callerStep j true :: rest → canIssue j k s →
    ∃ frame : List Byte,
      encodeFrame s.cfg.maxPdu (allocTid s.pt s.tidc) s.cfg.unitId (encodePdu (expansion (callerAt s j).op)) =
        some frame ∧
      step s = .next { registered j k s with sched := rest, outputs := s.outputs ++ [.ctx frame true] }

/-- R92, R168: the request PDU of a facade operation is the encoding of the instruction it expands to, decodes to
it, and fits MAX_PDU. -/
def Obligations.FacadeExpansion : Prop :=
  ∀ (c : Config) (op : FacadeOp), c.legal = true → inDomain c op = true →
    (build op).pdu = encodePdu (expansion op) ∧ decodePdu (build op).pdu = .ok (expansion op) ∧
      1 ≤ (build op).pdu.length ∧ (build op).pdu.length ≤ c.maxPdu

/-- R163, R164, R167: what a call does: ConnectionClosed while the connection is closed, InvalidArgument outside the
domain, else the caller enters ISSUE; nothing is allocated or sent. The order of the first two is the model's
(log 14), and so is the refusal of a caller the instance does not have (R6; log 31). -/
def Obligations.CallStep : Prop :=
  ∀ (s : State) (j : Nat) (op : FacadeOp) (rest : List Offer), s.cfg.legal = true →
    s.sched = .call j op :: rest →
    ((∀ n, s.cfg.nCaller = some n → j < n) → (callerAt s j).fsm = .idle →
      step s = .next (
        if s.up = false then
          { s with sched := rest, outputs := s.outputs ++ [.ret j (.err .connectionClosed)] }
        else if inDomain s.cfg op = false then
          { s with sched := rest, outputs := s.outputs ++ [.ret j (.err .invalidArgument)] }
        else { s with
          sched := rest
          callers := sparsePut Caller.reset s.callers j { callerAt s j with fsm := .issue, op := op } })) ∧
    ((∃ n, s.cfg.nCaller = some n ∧ n ≤ j) → step s = .refused .noSuchAgent)

/-- R166, R169: a caller in ISSUE with no free entry holds, and so does one in WAIT on an entry that is not
RESOLVED. -/
def Obligations.CallersHold : Prop :=
  ∀ (s : State) (j : Nat) (sent : Bool) (rest : List Offer), s.cfg.legal = true →
    s.sched = .callerStep j sent :: rest →
    ((callerAt s j).fsm = .issue → s.up = true → (∀ e ∈ s.pt, e.st ≠ .free) →
      step s = .next { s with sched := rest }) ∧
    ((callerAt s j).fsm = .wait → (∀ e, s.pt[(callerAt s j).k]? = some e → e.st ≠ .resolved) →
      step s = .next { s with sched := rest })

/-- R181: a caller in WAIT collects the result of its RESOLVED entry, and the row is FREE again. -/
def Obligations.CollectFreesEntry : Prop :=
  ∀ (s : State) (j : Nat) (sent : Bool) (e : Entry) (r : CallResult) (rest : List Offer),
    s.cfg.legal = true → s.sched = .callerStep j sent :: rest → (callerAt s j).fsm = .wait →
    s.pt[(callerAt s j).k]? = some e → e.st = .resolved → e.slot = some r →
    step s = .next { s with
      sched := rest
      pt := s.pt.set (callerAt s j).k { e with st := .free, slot := none }
      callers := sparsePut Caller.reset s.callers j { callerAt s j with fsm := .idle }
      outputs := s.outputs ++ [.ret j r] }

/-- R171, R172: a completed frame is matched by its transaction id alone, whatever its PDU, or dropped and logged. That
the step that takes the last byte also correlates, with the byte taken and the buffer emptied, is the model's reading of
R107, R108 and R170 (log 25). -/
def Obligations.CompletedFrameIsCorrelated : Prop :=
  ∀ (s : State) (x : Byte) (inp : List StreamItem) (f : Frame) (rest : List Offer), s.cfg.legal = true →
    s.sched = .clientReceive :: rest → s.up = true → s.clInp = .byte x :: inp →
    deframe s.cfg.maxPdu s.rlRx x = .frame f →
    (∀ k e, onlyPending s f.tid k e → step s = .next (resolved k e (checkResponse e f.pdu)
      { s with sched := rest, rlRx := [], clInp := inp, active := .client f.tid })) ∧
    (nonePending s f.tid → step s = .next
      { s with
        sched := rest, rlRx := [], clInp := inp, active := .client f.tid
        outputs := s.outputs ++ [.unexpected f.tid] })

/-- R183: the parse of a coil response, whatever follows its function code: accepted exactly when it has a byte count,
that many bytes and at least `count` bits, and then its first `count` bits, the least significant of each byte first. -/
def Obligations.CoilResponseParse : Prop :=
  ∀ (e : Entry) (payload : List Byte), e.fc = 0x01#8 →
    (∀ (bc : Byte) (data : List Byte), payload = bc :: data → data.length = bc.toNat →
      e.qty.toNat ≤ 8 * bc.toNat →
      ∃ bs : List Bit, checkResponse e (0x01#8 :: payload) = .ok (.bits bs) ∧ bs.length = e.qty.toNat ∧
        ∀ k : Nat, k < e.qty.toNat → (bs[k]? = some 1#1 ↔ (data.getD (k / 8) 0).getLsbD (k % 8) = true)) ∧
    ((∀ (bc : Byte) (data : List Byte), payload = bc :: data →
        ¬ (data.length = bc.toNat ∧ e.qty.toNat ≤ 8 * bc.toNat)) →
      checkResponse e (0x01#8 :: payload) = .err .malformedResponse)

/-- R173: a response of another function code, or with the exception bit and not two bytes, is MalformedResponse. -/
def Obligations.MismatchedResponse : Prop :=
  ∀ (e : Entry) (fc : Byte) (payload : List Byte),
    (fc ≠ e.fc → fc ≠ e.fc ||| 0x80#8 → checkResponse e (fc :: payload) = .err .malformedResponse) ∧
    (payload.length ≠ 1 → checkResponse e ((e.fc ||| 0x80#8) :: payload) = .err .malformedResponse) ∧
    (∀ code, checkResponse e [e.fc ||| 0x80#8, code] = .err (.exception code))

/-- R161: connecting. -/
def Obligations.ConnectStep : Prop :=
  ∀ (s : State) (ok : Bool) (rest : List Offer), s.cfg.legal = true → s.sched = .connect ok :: rest →
    step s = .next (
      if s.up = true then { s with sched := rest, outputs := s.outputs ++ [.connected true] }
      else if ok = true then
        { s with
          sched := rest, up := true, rlRx := [], clInp := [], outputs := s.outputs ++ [.connected true] }
      else { s with sched := rest, outputs := s.outputs ++ [.connected false] })

/-- R162, R178, R179: disconnecting, an EOF, an I/O error and a malformed frame at the read loop, and a transmit error of
an issue step, which has registered its entry, each run the close procedure: every pending transaction is resolved with
ConnectionClosed in that one step, `cclose` is emitted, and the callers in ISSUE, and no others, return ConnectionClosed
(R167). That these return in the same step is the model's reading (log 13); EOF and I/O errors are items of the stream
(log 26); the frame lost is listed as not sent (log 16). -/
def Obligations.CloseResolvesAllPending : Prop :=
  (∀ (s : State) (o : Offer) (rest : List Offer), s.cfg.legal = true →
    sparseWf Caller.reset s.callers = true → s.sched = o :: rest → s.up = true →
    (o = .disconnect ∨ (o = .clientReceive ∧ ∃ x inp, s.clInp = x :: inp ∧
      (∀ b, x = .byte b → ∃ tag, deframe s.cfg.maxPdu s.rlRx b = .malformed tag))) →
    ∃ t, step s = .next t ∧ isClosed s t ∧ t.sched = rest ∧
      t.outputs = s.outputs ++ .cclose :: issueReturns s.callers) ∧
  (∀ (s : State) (j k : Nat) (rest : List Offer), s.cfg.legal = true →
    sparseWf Caller.reset s.callers = true → s.sched = .callerStep j false :: rest → canIssue j k s →
    ∃ (t : State) (frame : List Byte),
      encodeFrame s.cfg.maxPdu (allocTid s.pt s.tidc) s.cfg.unitId (encodePdu (expansion (callerAt s j).op)) =
        some frame ∧
      step s = .next t ∧ isClosed (registered j k s) t ∧ t.sched = rest ∧
      t.outputs = s.outputs ++ .ctx frame false :: .cclose :: issueReturns (registered j k s).callers) ∧
  (∀ (s : State) (o : Output), sparseWf Caller.reset s.callers = true →
    (o ∈ issueReturns s.callers ↔ ∃ j, (callerAt s j).fsm = .issue ∧ o = .ret j (.err .connectionClosed)))

/-- R175, R176: a tick advances the time base by one, and only when no entry is expired; the timeout step resolves an
expired entry with Timeout and leaves everything else, the connection among it, and an entry that is not expired. -/
def Obligations.TickAndTimeout : Prop :=
  (∀ (s : State) (rest : List Offer), s.cfg.legal = true → s.sched = .tick :: rest →
    ((∀ e ∈ s.pt, e.st = .pending → (s.now - e.tSub).toNat < s.cfg.timeout) →
      step s = .next { s with sched := rest, now := s.now + 1 }) ∧
    ((∃ e ∈ s.pt, e.st = .pending ∧ s.cfg.timeout ≤ (s.now - e.tSub).toNat) →
      step s = .next { s with sched := rest })) ∧
  (∀ (s : State) (k : Nat) (e : Entry) (rest : List Offer), s.cfg.legal = true →
    s.sched = .timeout k :: rest → s.pt[k]? = some e →
    step s = .next (if e.st = .pending ∧ s.cfg.timeout ≤ (s.now - e.tSub).toNat
      then resolved k e (.err .timeout) { s with sched := rest }
      else { s with sched := rest }))

/-- R32, R180: in any step but a reset every row of the table keeps its place and moves only along the transitions of
R32. -/
def Obligations.EntriesMoveOnlySo : Prop :=
  ∀ (s t : State) (k : Nat) (e e' : Entry), step s = .next t → (∀ c now rest, s.sched ≠ .reset c now :: rest) →
    s.pt[k]? = some e → t.pt[k]? = some e' → entryMove e e'

/-- R33, R26: no step but a reset changes the configuration, and no other but a caller's step the id counter. -/
def Obligations.CounterAndConfiguration : Prop :=
  ∀ (s t : State), step s = .next t → (∀ c now rest, s.sched ≠ .reset c now :: rest) →
    t.cfg = s.cfg ∧ ((∀ j sent rest, s.sched ≠ .callerStep j sent :: rest) → t.tidc = s.tidc)

/-- Refinement: against this block's own server every facade operation in its domain gets exactly the result the
server's banks and bounds call for, never MalformedResponse (R130 to R136, R173, R182 to R187). -/
def Obligations.ClientAgreesWithServer : Prop :=
  ∀ (s : State) (i j : Nat) (tid : Word) (now : Ticks) (op : FacadeOp), s.cfg.legal = true → locksFree s →
    sparseWf Conn.reset s.conns = true → s.active = .server i → inDomain s.cfg op = true →
    ∃ t, exec (expansion op) s = .next t ∧
      checkResponse (entryOf j tid now op) (connAt t i).resp = expected s op

/-! ## Reset and the invariants -/

/-- R41, R230: what reset leaves, for any time base and any configuration: the elements the spec gives a value. -/
def Obligations.ResetValues : Prop :=
  (∀ (c : Config) (now : Ticks), (State.boot c now).mem = c.initImage ∧ locksFree (State.boot c now) ∧
    (∀ i, (connAt (State.boot c now) i).fsm = .closed ∧ (connAt (State.boot c now) i).rx = []) ∧
    (State.boot c now).up = false ∧
    (∀ (k : Nat) (e : Entry), (State.boot c now).pt[k]? = some e → e.st = .free ∧ e.slot = none) ∧
    (State.boot c now).tidc = c.tidInit ∧ (∀ j, (callerAt (State.boot c now) j).fsm = .idle) ∧
    (State.boot c now).rlRx = [] ∧ (State.boot c now).tx = .free) ∧
  (∀ (s : State) (c : Config) (now : Ticks) (rest : List Offer), s.cfg.legal = true →
    s.sched = .reset c now :: rest →
    step s = if c.legal = true then .next { State.boot c now with sched := rest, outputs := s.outputs }
      else .refused .illegalConfiguration)

/-- Every invariant holds after reset, for every legal configuration and every time base. -/
def Obligations.ResetMeetsInvariants : Prop :=
  ∀ (c : Config) (now : Ticks), c.legal = true → Inv (State.boot c now)

/-- The banks stay in canonical form and list only cells that exist (R22, R65). -/
def Obligations.StepKeepsMemory : Prop :=
  ∀ (s t : State), MemInv s → step s = .next t → MemInv t

/-- The server agents stay in a consistent position, every lock is free at every step boundary (R25, R28), and an agent
the instance does not have stays in its reset state (R6; log 31). -/
def Obligations.StepKeepsServer : Prop :=
  ∀ (s t : State), ServerInv s → step s = .next t → ServerInv t

/-- The client's table, connection and callers stay consistent: no id pending twice, no leaked waiter, nothing
pending while closed (R31, R32, R35, R37, R165, R178, R181). That no caller is in ISSUE while the connection is closed is
the model's reading of R167 and R178 (log 13), and that a caller the instance does not have stays in its reset state is
log 31. -/
def Obligations.StepKeepsClient : Prop :=
  ∀ (s t : State), ClientInv s → step s = .next t → ClientInv t

/-- R177: no pending entry ever grows older than TIMEOUT ticks. -/
def Obligations.StepKeepsAge : Prop :=
  ∀ (s t : State), AgeInv s → step s = .next t → AgeInv t

/-- In a state that meets the invariants no step faults, and the only steps refused are HOST's own calls outside
the domain the spec gives them (R26, R67, R100), or of an agent the instance does not have (R6; log 31). -/
def Obligations.SafeStepsGoOn : Prop :=
  ∀ (s : State), Inv s → (∀ o rest, s.sched = o :: rest → offerInDomain s.cfg o = true) → goesOn (step s)
end

