-- ==== Sys2Proof/Laws/Words.lean ====
section
/-! SUPPORT. Big-endian words, register bytes, packed bits and their lengths; the bounds a legal configuration gives. -/

namespace Sys2Proof.Machine

@[simp] theorem be16_length (w : Word) : (be16 w).length = 2 := rfl

/-- The two bytes of a word make the word (R10). -/
@[simp] theorem wordOf_be16 (w : Word) : wordOf (w.extractLsb' 8 8) (w.extractLsb' 0 8) = w := by
  apply BitVec.eq_of_toNat_eq
  have := w.isLt
  simp only [wordOf, BitVec.toNat_ofNat, BitVec.extractLsb'_toNat, Nat.shiftRight_eq_div_pow]
  omega

/-- The bytes of a word made of two bytes are those bytes (R10). -/
@[simp] theorem be16_wordOf (a b : Byte) : be16 (wordOf a b) = [a, b] := by
  have ha := a.isLt
  have hb := b.isLt
  have h1 : (wordOf a b).extractLsb' 8 8 = a := by
    apply BitVec.eq_of_toNat_eq
    simp only [wordOf, BitVec.toNat_ofNat, BitVec.extractLsb'_toNat, Nat.shiftRight_eq_div_pow]
    omega
  have h2 : (wordOf a b).extractLsb' 0 8 = b := by
    apply BitVec.eq_of_toNat_eq
    simp only [wordOf, BitVec.toNat_ofNat, BitVec.extractLsb'_toNat, Nat.shiftRight_eq_div_pow]
    omega
  simp [be16, h1, h2]

@[simp] theorem regBytes_length (ws : List Word) : (regBytes ws).length = 2 * ws.length := by
  induction ws with
  | nil => rfl
  | cons w ws ih => simp [regBytes, ih]; omega

/-- Reading the words of register bytes gives the registers (R53). -/
@[simp] theorem bytesRegs_regBytes (ws : List Word) : bytesRegs (regBytes ws) = ws := by
  induction ws with
  | nil => rfl
  | cons w ws ih => simp [regBytes, be16, bytesRegs, ih]

theorem bytesRegs_length (bs : List Byte) : (bytesRegs bs).length = bs.length / 2 := by
  induction bs using bytesRegs.induct with
  | case1 a b rest ih => simp [bytesRegs, ih]; omega
  | case2 bs h =>
    match bs with
    | [] => rfl
    | [a] => simp [bytesRegs]
    | a :: b :: rest => exact absurd rfl (h a b rest)

/-- An even number of bytes is the bytes of its words. -/
theorem regBytes_bytesRegs (bs : List Byte) (h : bs.length % 2 = 0) : regBytes (bytesRegs bs) = bs := by
  induction bs using bytesRegs.induct with
  | case1 a b rest ih =>
    simp only [List.length_cons] at h
    simp [bytesRegs, regBytes, ih (by omega)]
  | case2 bs h' =>
    match bs with
    | [] => rfl
    | [a] => simp at h
    | a :: b :: rest => exact absurd rfl (h' a b rest)

@[simp] theorem packBytes_length (n : Nat) (bs : List Bit) : (packBytes n bs).length = n := by
  induction n generalizing bs with
  | zero => rfl
  | succ n ih => simp [packBytes, ih]

@[simp] theorem packBits_length (bs : List Bit) : (packBits bs).length = ceil8 bs.length := by
  simp [packBits]

@[simp] theorem rsBits_length (fc : Byte) (cells : List Bit) :
    (rsBits fc cells).length = 2 + ceil8 cells.length := by simp [rsBits]; omega

@[simp] theorem rsRegs_length (fc : Byte) (cells : List Word) :
    (rsRegs fc cells).length = 2 + 2 * cells.length := by simp [rsRegs]; omega

@[simp] theorem rsSingle_length (fc : Byte) (a v : Word) : (rsSingle fc a v).length = 5 := rfl
@[simp] theorem rsMulti_length (a q : Word) : (rsMulti a q).length = 5 := rfl
@[simp] theorem excPdu_length (fc : Byte) (code : ExcCode) : (excPdu fc code).length = 2 := rfl

/-- Step (c) of a read (R125), negated. -/
theorem readValueOk_false (q : Word) (tail : List Byte) (b : Nat) :
    readValueOk q tail b = false ↔ (tail ≠ [] ∨ q.toNat < 1 ∨ b < q.toNat) := by
  cases tail <;> simp [readValueOk]; omega

/-- Step (c) of Write Multiple Registers (R125), negated. -/
theorem multiValueOk_false (q : Word) (bc : Byte) (data : List Byte) (b : Nat) :
    multiValueOk q bc data b = false ↔
      (q.toNat < 1 ∨ b < q.toNat ∨ bc.toNat ≠ 2 * q.toNat ∨ data.length ≠ bc.toNat) := by
  rw [← Bool.not_eq_true]
  simp only [multiValueOk, Bool.and_eq_true, decide_eq_true_eq]
  omega

theorem regBytes_eq_flatMap (ws : List Word) : regBytes ws = ws.flatMap be16 := by
  induction ws with
  | nil => rfl
  | cons w ws ih => simp [regBytes, ih]

/-- The words of a byte sequence, one by one (R89). -/
theorem bytesRegs_getElem (bs : List Byte) (k : Nat) (h : 2 * k + 1 < bs.length) :
    (bytesRegs bs)[k]? = some (wordOf (bs.getD (2 * k) 0) (bs.getD (2 * k + 1) 0)) := by
  induction bs using bytesRegs.induct generalizing k with
  | case1 a b rest ih =>
    cases k with
    | zero => simp [bytesRegs]
    | succ k =>
      simp only [List.length_cons] at h
      have e1 : 2 * (k + 1) = 2 * k + 1 + 1 := by omega
      simp [bytesRegs, ih k (by omega), e1]
  | case2 bs h' =>
    match bs with
    | [] => simp at h
    | [a] => simp at h
    | a :: b :: rest => exact absurd rfl (h' a b rest)

/-- What a legal configuration satisfies (R6, R139). -/
theorem legal_bounds (c : Config) (h : c.legal = true) :
    (1 ≤ c.timeout ∧ c.timeout ≤ 4294967295) ∧ (1 ≤ c.pendingDepth ∧ c.pendingDepth ≤ 65535) ∧
      (8 ≤ c.maxPdu ∧ c.maxPdu ≤ 65534) ∧ c.maxRdRegs ≤ 127 ∧ c.maxWrRegs ≤ 127 ∧
      (c.maxRdBits + 7) / 8 ≤ 255 ∧ (c.maxRdBits + 7) / 8 ≤ c.maxPdu - 2 ∧
      2 * c.maxRdRegs ≤ 255 ∧ 2 * c.maxRdRegs ≤ c.maxPdu - 2 ∧
      6 + 2 * c.maxWrRegs ≤ c.maxPdu ∧ 2 * c.maxWrRegs ≤ 255 := by
  simp only [Config.legal, Config.checks, List.all_cons, List.all_nil, id, Bool.and_eq_true,
    decide_eq_true_eq] at h
  omega

/-- The initial image of a legal configuration (R6, R22). -/
theorem legal_image (c : Config) (h : c.legal = true) :
    c.initImage.wf = true ∧ c.initImage.within c = true := by
  simp only [Config.legal, Config.checks, List.all_cons, List.all_nil, id, Bool.and_eq_true,
    decide_eq_true_eq] at h
  simp_all

@[simp] theorem below_none (i : Nat) : below none i = true := rfl
@[simp] theorem below_some (n i : Nat) : below (some n) i = true ↔ i < n := by simp [below]

/-- Every legal instance has a server agent and a caller (R6). -/
theorem legal_agents (c : Config) (h : c.legal = true) : hasConn c 0 = true ∧ hasCaller c 0 = true := by
  simp only [Config.legal, Config.checks, List.all_cons, List.all_nil, id, Bool.and_eq_true,
    decide_eq_true_eq] at h
  simp_all

end Sys2Proof.Machine
end

