-- ==== Sys2Proof/Laws/Codec.lean ====
section
/-! SUPPORT. The frame codec and the deframer, one lemma a function. -/

namespace Sys2Proof.Machine

/-- The length field of an encoded frame holds its length (R70, R73). -/
theorem toNat_ofNat16 (n : Nat) (h : n < 65536) : (BitVec.ofNat 16 n).toNat = n := by
  simp only [BitVec.toNat_ofNat]; omega

/-- What `Encode` gives, and where (R100). -/
theorem encodeFrame_eq_some (maxPdu : Nat) (tid : Word) (uid : Byte) (pdu b : List Byte) :
    encodeFrame maxPdu tid uid pdu = some b ↔
      (1 ≤ pdu.length ∧ pdu.length ≤ maxPdu) ∧
        b = be16 tid ++ [0x00#8, 0x00#8] ++ be16 (BitVec.ofNat 16 (1 + pdu.length)) ++ [uid] ++ pdu := by
  unfold encodeFrame
  split_ifs with h
  · simp [h, eq_comm]
  · simp [h]

/-- `Encode` has a result exactly in its domain (R100). -/
theorem encodeFrame_isSome (maxPdu : Nat) (tid : Word) (uid : Byte) (pdu : List Byte) (h1 : 1 ≤ pdu.length)
    (h2 : pdu.length ≤ maxPdu) : ∃ b, encodeFrame maxPdu tid uid pdu = some b :=
  ⟨_, (encodeFrame_eq_some _ _ _ _ _).2 ⟨⟨h1, h2⟩, rfl⟩⟩

/-- When `Decode` succeeds, and with what (R102 to R104). -/
theorem decodeFrame_eq_frame (maxPdu : Nat) (b : List Byte) (f : Frame) :
    decodeFrame maxPdu b = .frame f ↔
      8 ≤ b.length ∧ u16 b 2 = 0x0000#16 ∧ lengthField b = b.length - 6 ∧ lengthField b ≤ maxPdu + 1 ∧
        f = { tid := u16 b 0, uid := b.getD 6 0, pdu := b.drop 7 } := by
  unfold decodeFrame
  split_ifs with h1 h2 h3 h4 h5
  · simp only [false_iff]; omega
  · simp [h2]
  · simp only [false_iff]; omega
  · simp only [false_iff]; omega
  · simp only [false_iff]; omega
  · have h2' := not_ne_iff.1 h2
    simp only [Decoded.frame.injEq, h2', true_and]
    constructor
    · rintro rfl; exact ⟨by omega, by omega, by omega, rfl⟩
    · rintro ⟨_, _, _, rfl⟩; rfl

/-- A decoded PDU has 1 to MAX_PDU bytes (R104). -/
theorem decodeFrame_pdu_length (maxPdu : Nat) (b : List Byte) (f : Frame) (h : decodeFrame maxPdu b = .frame f) :
    1 ≤ f.pdu.length ∧ f.pdu.length ≤ maxPdu := by
  obtain ⟨h1, _, h3, h4, rfl⟩ := (decodeFrame_eq_frame _ _ _).1 h
  simp only [List.length_drop]
  omega

/-- What one deframer step can give (R107, R108). -/
theorem deframe_cases (maxPdu : Nat) (rx : List Byte) (x : Byte) :
    (deframe maxPdu rx x = .more (rx ++ [x]) ∧ (rx ++ [x]).length < 6) ∨
    (deframe maxPdu rx x = .more (rx ++ [x]) ∧ (rx ++ [x]).length = 6 ∧ headerCheck maxPdu (rx ++ [x]) = none) ∨
    (deframe maxPdu rx x = .more (rx ++ [x]) ∧ 6 < (rx ++ [x]).length ∧
      (rx ++ [x]).length < 6 + lengthField (rx ++ [x])) ∨
    (∃ f, deframe maxPdu rx x = .frame f ∧ decodeFrame maxPdu (rx ++ [x]) = .frame f) ∨
    (∃ tag, deframe maxPdu rx x = .malformed tag) := by
  unfold deframe
  simp only
  split_ifs with h1 h2 h3
  · exact .inl ⟨rfl, h1⟩
  · cases hc : headerCheck maxPdu (rx ++ [x]) with
    | none => exact .inr (.inl ⟨rfl, h2, rfl⟩)
    | some tag => exact .inr (.inr (.inr (.inr ⟨tag, rfl⟩)))
  · exact .inr (.inr (.inl ⟨rfl, by omega, h3⟩))
  · cases hd : decodeFrame maxPdu (rx ++ [x]) with
    | frame f => exact .inr (.inr (.inr (.inl ⟨f, rfl, rfl⟩)))
    | malformed tag => exact .inr (.inr (.inr (.inr ⟨tag, rfl⟩)))

/-- A header that passes the check (R108). -/
theorem headerCheck_none (maxPdu : Nat) (rx : List Byte) (h : headerCheck maxPdu rx = none) :
    u16 rx 2 = 0x0000#16 ∧ 2 ≤ lengthField rx ∧ lengthField rx ≤ maxPdu + 1 := by
  unfold headerCheck at h
  split_ifs at h with h1 h2 h3
  exact ⟨not_ne_iff.1 h1, by omega, by omega⟩

/-- The header fields do not change as more bytes arrive. -/
theorem u16_append (rx : List Byte) (ys : List Byte) (i : Nat) (h : i + 1 < rx.length) :
    u16 (rx ++ ys) i = u16 rx i := by
  simp only [u16, List.getD]
  rw [List.getElem?_append_left (by omega), List.getElem?_append_left h]

end Sys2Proof.Machine
end

