-- ==== Sys2Proof/Laws/State.lean ====
section
/-! SUPPORT. One lemma per field of State per named update, so that no later proof unfolds a record update. -/

namespace Sys2Proof.Machine

@[simp] theorem setConn_cfg (i : Nat) (c : Conn) (s : State) : (setConn i c s).cfg = s.cfg := rfl
@[simp] theorem setConn_mem (i : Nat) (c : Conn) (s : State) : (setConn i c s).mem = s.mem := rfl
@[simp] theorem setConn_locks (i : Nat) (c : Conn) (s : State) : (setConn i c s).locks = s.locks := rfl
@[simp] theorem setConn_conns (i : Nat) (c : Conn) (s : State) : (setConn i c s).conns = sparsePut Conn.reset s.conns i c := rfl
@[simp] theorem setConn_up (i : Nat) (c : Conn) (s : State) : (setConn i c s).up = s.up := rfl
@[simp] theorem setConn_pt (i : Nat) (c : Conn) (s : State) : (setConn i c s).pt = s.pt := rfl
@[simp] theorem setConn_tidc (i : Nat) (c : Conn) (s : State) : (setConn i c s).tidc = s.tidc := rfl
@[simp] theorem setConn_callers (i : Nat) (c : Conn) (s : State) : (setConn i c s).callers = s.callers := rfl
@[simp] theorem setConn_rlRx (i : Nat) (c : Conn) (s : State) : (setConn i c s).rlRx = s.rlRx := rfl
@[simp] theorem setConn_now (i : Nat) (c : Conn) (s : State) : (setConn i c s).now = s.now := rfl
@[simp] theorem setConn_tx (i : Nat) (c : Conn) (s : State) : (setConn i c s).tx = s.tx := rfl
@[simp] theorem setConn_clInp (i : Nat) (c : Conn) (s : State) : (setConn i c s).clInp = s.clInp := rfl
@[simp] theorem setConn_sched (i : Nat) (c : Conn) (s : State) : (setConn i c s).sched = s.sched := rfl
@[simp] theorem setConn_outputs (i : Nat) (c : Conn) (s : State) : (setConn i c s).outputs = s.outputs := rfl
@[simp] theorem setConn_active (i : Nat) (c : Conn) (s : State) : (setConn i c s).active = s.active := rfl

@[simp] theorem setCaller_cfg (j : Nat) (c : Caller) (s : State) : (setCaller j c s).cfg = s.cfg := rfl
@[simp] theorem setCaller_mem (j : Nat) (c : Caller) (s : State) : (setCaller j c s).mem = s.mem := rfl
@[simp] theorem setCaller_locks (j : Nat) (c : Caller) (s : State) : (setCaller j c s).locks = s.locks := rfl
@[simp] theorem setCaller_conns (j : Nat) (c : Caller) (s : State) : (setCaller j c s).conns = s.conns := rfl
@[simp] theorem setCaller_up (j : Nat) (c : Caller) (s : State) : (setCaller j c s).up = s.up := rfl
@[simp] theorem setCaller_pt (j : Nat) (c : Caller) (s : State) : (setCaller j c s).pt = s.pt := rfl
@[simp] theorem setCaller_tidc (j : Nat) (c : Caller) (s : State) : (setCaller j c s).tidc = s.tidc := rfl
@[simp] theorem setCaller_callers (j : Nat) (c : Caller) (s : State) : (setCaller j c s).callers = sparsePut Caller.reset s.callers j c := rfl
@[simp] theorem setCaller_rlRx (j : Nat) (c : Caller) (s : State) : (setCaller j c s).rlRx = s.rlRx := rfl
@[simp] theorem setCaller_now (j : Nat) (c : Caller) (s : State) : (setCaller j c s).now = s.now := rfl
@[simp] theorem setCaller_tx (j : Nat) (c : Caller) (s : State) : (setCaller j c s).tx = s.tx := rfl
@[simp] theorem setCaller_clInp (j : Nat) (c : Caller) (s : State) : (setCaller j c s).clInp = s.clInp := rfl
@[simp] theorem setCaller_sched (j : Nat) (c : Caller) (s : State) : (setCaller j c s).sched = s.sched := rfl
@[simp] theorem setCaller_outputs (j : Nat) (c : Caller) (s : State) : (setCaller j c s).outputs = s.outputs := rfl
@[simp] theorem setCaller_active (j : Nat) (c : Caller) (s : State) : (setCaller j c s).active = s.active := rfl

@[simp] theorem emit_cfg (o : Output) (s : State) : (emit o s).cfg = s.cfg := rfl
@[simp] theorem emit_mem (o : Output) (s : State) : (emit o s).mem = s.mem := rfl
@[simp] theorem emit_locks (o : Output) (s : State) : (emit o s).locks = s.locks := rfl
@[simp] theorem emit_conns (o : Output) (s : State) : (emit o s).conns = s.conns := rfl
@[simp] theorem emit_up (o : Output) (s : State) : (emit o s).up = s.up := rfl
@[simp] theorem emit_pt (o : Output) (s : State) : (emit o s).pt = s.pt := rfl
@[simp] theorem emit_tidc (o : Output) (s : State) : (emit o s).tidc = s.tidc := rfl
@[simp] theorem emit_callers (o : Output) (s : State) : (emit o s).callers = s.callers := rfl
@[simp] theorem emit_rlRx (o : Output) (s : State) : (emit o s).rlRx = s.rlRx := rfl
@[simp] theorem emit_now (o : Output) (s : State) : (emit o s).now = s.now := rfl
@[simp] theorem emit_tx (o : Output) (s : State) : (emit o s).tx = s.tx := rfl
@[simp] theorem emit_clInp (o : Output) (s : State) : (emit o s).clInp = s.clInp := rfl
@[simp] theorem emit_sched (o : Output) (s : State) : (emit o s).sched = s.sched := rfl
@[simp] theorem emit_outputs (o : Output) (s : State) : (emit o s).outputs = s.outputs ++ [o] := rfl
@[simp] theorem emit_active (o : Output) (s : State) : (emit o s).active = s.active := rfl

@[simp] theorem setEntry_cfg (k : Nat) (e : Entry) (s : State) : (setEntry k e s).cfg = s.cfg := rfl
@[simp] theorem setEntry_mem (k : Nat) (e : Entry) (s : State) : (setEntry k e s).mem = s.mem := rfl
@[simp] theorem setEntry_locks (k : Nat) (e : Entry) (s : State) : (setEntry k e s).locks = s.locks := rfl
@[simp] theorem setEntry_conns (k : Nat) (e : Entry) (s : State) : (setEntry k e s).conns = s.conns := rfl
@[simp] theorem setEntry_up (k : Nat) (e : Entry) (s : State) : (setEntry k e s).up = s.up := rfl
@[simp] theorem setEntry_pt (k : Nat) (e : Entry) (s : State) : (setEntry k e s).pt = s.pt.set k e := rfl
@[simp] theorem setEntry_tidc (k : Nat) (e : Entry) (s : State) : (setEntry k e s).tidc = s.tidc := rfl
@[simp] theorem setEntry_callers (k : Nat) (e : Entry) (s : State) : (setEntry k e s).callers = s.callers := rfl
@[simp] theorem setEntry_rlRx (k : Nat) (e : Entry) (s : State) : (setEntry k e s).rlRx = s.rlRx := rfl
@[simp] theorem setEntry_now (k : Nat) (e : Entry) (s : State) : (setEntry k e s).now = s.now := rfl
@[simp] theorem setEntry_tx (k : Nat) (e : Entry) (s : State) : (setEntry k e s).tx = s.tx := rfl
@[simp] theorem setEntry_clInp (k : Nat) (e : Entry) (s : State) : (setEntry k e s).clInp = s.clInp := rfl
@[simp] theorem setEntry_sched (k : Nat) (e : Entry) (s : State) : (setEntry k e s).sched = s.sched := rfl
@[simp] theorem setEntry_outputs (k : Nat) (e : Entry) (s : State) : (setEntry k e s).outputs = s.outputs := rfl
@[simp] theorem setEntry_active (k : Nat) (e : Entry) (s : State) : (setEntry k e s).active = s.active := rfl

@[simp] theorem resolveAt_cfg (k : Nat) (r : CallResult) (s : State) : (resolveAt k r s).cfg = s.cfg := rfl
@[simp] theorem resolveAt_mem (k : Nat) (r : CallResult) (s : State) : (resolveAt k r s).mem = s.mem := rfl
@[simp] theorem resolveAt_locks (k : Nat) (r : CallResult) (s : State) : (resolveAt k r s).locks = s.locks := rfl
@[simp] theorem resolveAt_conns (k : Nat) (r : CallResult) (s : State) : (resolveAt k r s).conns = s.conns := rfl
@[simp] theorem resolveAt_up (k : Nat) (r : CallResult) (s : State) : (resolveAt k r s).up = s.up := rfl
@[simp] theorem resolveAt_pt (k : Nat) (r : CallResult) (s : State) : (resolveAt k r s).pt = s.pt.modify k (resolveEntry r) := rfl
@[simp] theorem resolveAt_tidc (k : Nat) (r : CallResult) (s : State) : (resolveAt k r s).tidc = s.tidc := rfl
@[simp] theorem resolveAt_callers (k : Nat) (r : CallResult) (s : State) : (resolveAt k r s).callers = s.callers := rfl
@[simp] theorem resolveAt_rlRx (k : Nat) (r : CallResult) (s : State) : (resolveAt k r s).rlRx = s.rlRx := rfl
@[simp] theorem resolveAt_now (k : Nat) (r : CallResult) (s : State) : (resolveAt k r s).now = s.now := rfl
@[simp] theorem resolveAt_tx (k : Nat) (r : CallResult) (s : State) : (resolveAt k r s).tx = s.tx := rfl
@[simp] theorem resolveAt_clInp (k : Nat) (r : CallResult) (s : State) : (resolveAt k r s).clInp = s.clInp := rfl
@[simp] theorem resolveAt_sched (k : Nat) (r : CallResult) (s : State) : (resolveAt k r s).sched = s.sched := rfl
@[simp] theorem resolveAt_outputs (k : Nat) (r : CallResult) (s : State) : (resolveAt k r s).outputs = s.outputs := rfl
@[simp] theorem resolveAt_active (k : Nat) (r : CallResult) (s : State) : (resolveAt k r s).active = s.active := rfl

@[simp] theorem release_cfg (b : Bank) (s : State) : (release b s).cfg = s.cfg := rfl
@[simp] theorem release_mem (b : Bank) (s : State) : (release b s).mem = s.mem := rfl
@[simp] theorem release_locks (b : Bank) (s : State) : (release b s).locks = setLock s.locks b .free := rfl
@[simp] theorem release_conns (b : Bank) (s : State) : (release b s).conns = s.conns := rfl
@[simp] theorem release_up (b : Bank) (s : State) : (release b s).up = s.up := rfl
@[simp] theorem release_pt (b : Bank) (s : State) : (release b s).pt = s.pt := rfl
@[simp] theorem release_tidc (b : Bank) (s : State) : (release b s).tidc = s.tidc := rfl
@[simp] theorem release_callers (b : Bank) (s : State) : (release b s).callers = s.callers := rfl
@[simp] theorem release_rlRx (b : Bank) (s : State) : (release b s).rlRx = s.rlRx := rfl
@[simp] theorem release_now (b : Bank) (s : State) : (release b s).now = s.now := rfl
@[simp] theorem release_tx (b : Bank) (s : State) : (release b s).tx = s.tx := rfl
@[simp] theorem release_clInp (b : Bank) (s : State) : (release b s).clInp = s.clInp := rfl
@[simp] theorem release_sched (b : Bank) (s : State) : (release b s).sched = s.sched := rfl
@[simp] theorem release_outputs (b : Bank) (s : State) : (release b s).outputs = s.outputs := rfl
@[simp] theorem release_active (b : Bank) (s : State) : (release b s).active = s.active := rfl

@[simp] theorem bankWriteBits_cfg (b : BitBank) (a : Nat) (vs : List Bit) (s : State) : (bankWriteBits b a vs s).cfg = s.cfg := rfl
@[simp] theorem bankWriteBits_mem (b : BitBank) (a : Nat) (vs : List Bit) (s : State) : (bankWriteBits b a vs s).mem = s.mem.setBits b (writeCells (s.mem.bits b) a vs) := rfl
@[simp] theorem bankWriteBits_locks (b : BitBank) (a : Nat) (vs : List Bit) (s : State) : (bankWriteBits b a vs s).locks = s.locks := rfl
@[simp] theorem bankWriteBits_conns (b : BitBank) (a : Nat) (vs : List Bit) (s : State) : (bankWriteBits b a vs s).conns = s.conns := rfl
@[simp] theorem bankWriteBits_up (b : BitBank) (a : Nat) (vs : List Bit) (s : State) : (bankWriteBits b a vs s).up = s.up := rfl
@[simp] theorem bankWriteBits_pt (b : BitBank) (a : Nat) (vs : List Bit) (s : State) : (bankWriteBits b a vs s).pt = s.pt := rfl
@[simp] theorem bankWriteBits_tidc (b : BitBank) (a : Nat) (vs : List Bit) (s : State) : (bankWriteBits b a vs s).tidc = s.tidc := rfl
@[simp] theorem bankWriteBits_callers (b : BitBank) (a : Nat) (vs : List Bit) (s : State) : (bankWriteBits b a vs s).callers = s.callers := rfl
@[simp] theorem bankWriteBits_rlRx (b : BitBank) (a : Nat) (vs : List Bit) (s : State) : (bankWriteBits b a vs s).rlRx = s.rlRx := rfl
@[simp] theorem bankWriteBits_now (b : BitBank) (a : Nat) (vs : List Bit) (s : State) : (bankWriteBits b a vs s).now = s.now := rfl
@[simp] theorem bankWriteBits_tx (b : BitBank) (a : Nat) (vs : List Bit) (s : State) : (bankWriteBits b a vs s).tx = s.tx := rfl
@[simp] theorem bankWriteBits_clInp (b : BitBank) (a : Nat) (vs : List Bit) (s : State) : (bankWriteBits b a vs s).clInp = s.clInp := rfl
@[simp] theorem bankWriteBits_sched (b : BitBank) (a : Nat) (vs : List Bit) (s : State) : (bankWriteBits b a vs s).sched = s.sched := rfl
@[simp] theorem bankWriteBits_outputs (b : BitBank) (a : Nat) (vs : List Bit) (s : State) : (bankWriteBits b a vs s).outputs = s.outputs := rfl
@[simp] theorem bankWriteBits_active (b : BitBank) (a : Nat) (vs : List Bit) (s : State) : (bankWriteBits b a vs s).active = s.active := rfl

@[simp] theorem bankWriteRegs_cfg (r : RegBank) (a : Nat) (vs : List Word) (s : State) : (bankWriteRegs r a vs s).cfg = s.cfg := rfl
@[simp] theorem bankWriteRegs_mem (r : RegBank) (a : Nat) (vs : List Word) (s : State) : (bankWriteRegs r a vs s).mem = s.mem.setRegs r (writeCells (s.mem.regs r) a vs) := rfl
@[simp] theorem bankWriteRegs_locks (r : RegBank) (a : Nat) (vs : List Word) (s : State) : (bankWriteRegs r a vs s).locks = s.locks := rfl
@[simp] theorem bankWriteRegs_conns (r : RegBank) (a : Nat) (vs : List Word) (s : State) : (bankWriteRegs r a vs s).conns = s.conns := rfl
@[simp] theorem bankWriteRegs_up (r : RegBank) (a : Nat) (vs : List Word) (s : State) : (bankWriteRegs r a vs s).up = s.up := rfl
@[simp] theorem bankWriteRegs_pt (r : RegBank) (a : Nat) (vs : List Word) (s : State) : (bankWriteRegs r a vs s).pt = s.pt := rfl
@[simp] theorem bankWriteRegs_tidc (r : RegBank) (a : Nat) (vs : List Word) (s : State) : (bankWriteRegs r a vs s).tidc = s.tidc := rfl
@[simp] theorem bankWriteRegs_callers (r : RegBank) (a : Nat) (vs : List Word) (s : State) : (bankWriteRegs r a vs s).callers = s.callers := rfl
@[simp] theorem bankWriteRegs_rlRx (r : RegBank) (a : Nat) (vs : List Word) (s : State) : (bankWriteRegs r a vs s).rlRx = s.rlRx := rfl
@[simp] theorem bankWriteRegs_now (r : RegBank) (a : Nat) (vs : List Word) (s : State) : (bankWriteRegs r a vs s).now = s.now := rfl
@[simp] theorem bankWriteRegs_tx (r : RegBank) (a : Nat) (vs : List Word) (s : State) : (bankWriteRegs r a vs s).tx = s.tx := rfl
@[simp] theorem bankWriteRegs_clInp (r : RegBank) (a : Nat) (vs : List Word) (s : State) : (bankWriteRegs r a vs s).clInp = s.clInp := rfl
@[simp] theorem bankWriteRegs_sched (r : RegBank) (a : Nat) (vs : List Word) (s : State) : (bankWriteRegs r a vs s).sched = s.sched := rfl
@[simp] theorem bankWriteRegs_outputs (r : RegBank) (a : Nat) (vs : List Word) (s : State) : (bankWriteRegs r a vs s).outputs = s.outputs := rfl
@[simp] theorem bankWriteRegs_active (r : RegBank) (a : Nat) (vs : List Word) (s : State) : (bankWriteRegs r a vs s).active = s.active := rfl

@[simp] theorem answer_cfg (i : Nat) (pdu : List Byte) (s : State) : (answer i pdu s).cfg = s.cfg := rfl
@[simp] theorem answer_mem (i : Nat) (pdu : List Byte) (s : State) : (answer i pdu s).mem = s.mem := rfl
@[simp] theorem answer_locks (i : Nat) (pdu : List Byte) (s : State) : (answer i pdu s).locks = s.locks := rfl
@[simp] theorem answer_conns (i : Nat) (pdu : List Byte) (s : State) : (answer i pdu s).conns = sparsePut Conn.reset s.conns i { connAt s i with resp := pdu, fsm := .reply } := rfl
@[simp] theorem answer_up (i : Nat) (pdu : List Byte) (s : State) : (answer i pdu s).up = s.up := rfl
@[simp] theorem answer_pt (i : Nat) (pdu : List Byte) (s : State) : (answer i pdu s).pt = s.pt := rfl
@[simp] theorem answer_tidc (i : Nat) (pdu : List Byte) (s : State) : (answer i pdu s).tidc = s.tidc := rfl
@[simp] theorem answer_callers (i : Nat) (pdu : List Byte) (s : State) : (answer i pdu s).callers = s.callers := rfl
@[simp] theorem answer_rlRx (i : Nat) (pdu : List Byte) (s : State) : (answer i pdu s).rlRx = s.rlRx := rfl
@[simp] theorem answer_now (i : Nat) (pdu : List Byte) (s : State) : (answer i pdu s).now = s.now := rfl
@[simp] theorem answer_tx (i : Nat) (pdu : List Byte) (s : State) : (answer i pdu s).tx = s.tx := rfl
@[simp] theorem answer_clInp (i : Nat) (pdu : List Byte) (s : State) : (answer i pdu s).clInp = s.clInp := rfl
@[simp] theorem answer_sched (i : Nat) (pdu : List Byte) (s : State) : (answer i pdu s).sched = s.sched := rfl
@[simp] theorem answer_outputs (i : Nat) (pdu : List Byte) (s : State) : (answer i pdu s).outputs = s.outputs := rfl
@[simp] theorem answer_active (i : Nat) (pdu : List Byte) (s : State) : (answer i pdu s).active = s.active := rfl

@[simp] theorem raiseExc_cfg (i : Nat) (fc : Byte) (code : ExcCode) (s : State) : (raiseExc i fc code s).cfg = s.cfg := rfl
@[simp] theorem raiseExc_mem (i : Nat) (fc : Byte) (code : ExcCode) (s : State) : (raiseExc i fc code s).mem = s.mem := rfl
@[simp] theorem raiseExc_locks (i : Nat) (fc : Byte) (code : ExcCode) (s : State) : (raiseExc i fc code s).locks = s.locks := rfl
@[simp] theorem raiseExc_conns (i : Nat) (fc : Byte) (code : ExcCode) (s : State) : (raiseExc i fc code s).conns = sparsePut Conn.reset s.conns i { connAt s i with resp := excPdu fc code, fsm := .reply } := rfl
@[simp] theorem raiseExc_up (i : Nat) (fc : Byte) (code : ExcCode) (s : State) : (raiseExc i fc code s).up = s.up := rfl
@[simp] theorem raiseExc_pt (i : Nat) (fc : Byte) (code : ExcCode) (s : State) : (raiseExc i fc code s).pt = s.pt := rfl
@[simp] theorem raiseExc_tidc (i : Nat) (fc : Byte) (code : ExcCode) (s : State) : (raiseExc i fc code s).tidc = s.tidc := rfl
@[simp] theorem raiseExc_callers (i : Nat) (fc : Byte) (code : ExcCode) (s : State) : (raiseExc i fc code s).callers = s.callers := rfl
@[simp] theorem raiseExc_rlRx (i : Nat) (fc : Byte) (code : ExcCode) (s : State) : (raiseExc i fc code s).rlRx = s.rlRx := rfl
@[simp] theorem raiseExc_now (i : Nat) (fc : Byte) (code : ExcCode) (s : State) : (raiseExc i fc code s).now = s.now := rfl
@[simp] theorem raiseExc_tx (i : Nat) (fc : Byte) (code : ExcCode) (s : State) : (raiseExc i fc code s).tx = s.tx := rfl
@[simp] theorem raiseExc_clInp (i : Nat) (fc : Byte) (code : ExcCode) (s : State) : (raiseExc i fc code s).clInp = s.clInp := rfl
@[simp] theorem raiseExc_sched (i : Nat) (fc : Byte) (code : ExcCode) (s : State) : (raiseExc i fc code s).sched = s.sched := rfl
@[simp] theorem raiseExc_outputs (i : Nat) (fc : Byte) (code : ExcCode) (s : State) : (raiseExc i fc code s).outputs = s.outputs := rfl
@[simp] theorem raiseExc_active (i : Nat) (fc : Byte) (code : ExcCode) (s : State) : (raiseExc i fc code s).active = s.active := rfl

@[simp] theorem closeClient_cfg (s : State) : (closeClient s).cfg = s.cfg := rfl
@[simp] theorem closeClient_mem (s : State) : (closeClient s).mem = s.mem := rfl
@[simp] theorem closeClient_locks (s : State) : (closeClient s).locks = s.locks := rfl
@[simp] theorem closeClient_conns (s : State) : (closeClient s).conns = s.conns := rfl
@[simp] theorem closeClient_up (s : State) : (closeClient s).up = false := rfl
@[simp] theorem closeClient_pt (s : State) : (closeClient s).pt = s.pt.map closeEntry := rfl
@[simp] theorem closeClient_tidc (s : State) : (closeClient s).tidc = s.tidc := rfl
@[simp] theorem closeClient_callers (s : State) : (closeClient s).callers = sparseMap Caller.reset abandonIssue s.callers := rfl
@[simp] theorem closeClient_rlRx (s : State) : (closeClient s).rlRx = [] := rfl
@[simp] theorem closeClient_now (s : State) : (closeClient s).now = s.now := rfl
@[simp] theorem closeClient_tx (s : State) : (closeClient s).tx = s.tx := rfl
@[simp] theorem closeClient_clInp (s : State) : (closeClient s).clInp = s.clInp := rfl
@[simp] theorem closeClient_sched (s : State) : (closeClient s).sched = s.sched := rfl
@[simp] theorem closeClient_outputs (s : State) : (closeClient s).outputs = s.outputs ++ .cclose :: issueReturns s.callers := rfl
@[simp] theorem closeClient_active (s : State) : (closeClient s).active = s.active := rfl

@[simp] theorem closeConn_cfg (i : Nat) (s : State) : (closeConn i s).cfg = s.cfg := rfl
@[simp] theorem closeConn_mem (i : Nat) (s : State) : (closeConn i s).mem = s.mem := rfl
@[simp] theorem closeConn_locks (i : Nat) (s : State) : (closeConn i s).locks = s.locks := rfl
@[simp] theorem closeConn_conns (i : Nat) (s : State) : (closeConn i s).conns = sparsePut Conn.reset s.conns i { connAt s i with rx := [], fsm := .closed } := rfl
@[simp] theorem closeConn_up (i : Nat) (s : State) : (closeConn i s).up = s.up := rfl
@[simp] theorem closeConn_pt (i : Nat) (s : State) : (closeConn i s).pt = s.pt := rfl
@[simp] theorem closeConn_tidc (i : Nat) (s : State) : (closeConn i s).tidc = s.tidc := rfl
@[simp] theorem closeConn_callers (i : Nat) (s : State) : (closeConn i s).callers = s.callers := rfl
@[simp] theorem closeConn_rlRx (i : Nat) (s : State) : (closeConn i s).rlRx = s.rlRx := rfl
@[simp] theorem closeConn_now (i : Nat) (s : State) : (closeConn i s).now = s.now := rfl
@[simp] theorem closeConn_tx (i : Nat) (s : State) : (closeConn i s).tx = s.tx := rfl
@[simp] theorem closeConn_clInp (i : Nat) (s : State) : (closeConn i s).clInp = s.clInp := rfl
@[simp] theorem closeConn_sched (i : Nat) (s : State) : (closeConn i s).sched = s.sched := rfl
@[simp] theorem closeConn_outputs (i : Nat) (s : State) : (closeConn i s).outputs = s.outputs ++ [.close i] := rfl
@[simp] theorem closeConn_active (i : Nat) (s : State) : (closeConn i s).active = s.active := rfl

@[simp] theorem register_cfg (j k : Nat) (t : Word) (s : State) : (register j k t s).cfg = s.cfg := rfl
@[simp] theorem register_mem (j k : Nat) (t : Word) (s : State) : (register j k t s).mem = s.mem := rfl
@[simp] theorem register_locks (j k : Nat) (t : Word) (s : State) : (register j k t s).locks = s.locks := rfl
@[simp] theorem register_conns (j k : Nat) (t : Word) (s : State) : (register j k t s).conns = s.conns := rfl
@[simp] theorem register_up (j k : Nat) (t : Word) (s : State) : (register j k t s).up = s.up := rfl
@[simp] theorem register_pt (j k : Nat) (t : Word) (s : State) : (register j k t s).pt = s.pt.set k (issuedEntry j t (build (callerAt s j).op) s.now) := rfl
@[simp] theorem register_tidc (j k : Nat) (t : Word) (s : State) : (register j k t s).tidc = t + 1 := rfl
@[simp] theorem register_callers (j k : Nat) (t : Word) (s : State) : (register j k t s).callers = sparsePut Caller.reset s.callers j { callerAt s j with fsm := .wait, k := k } := rfl
@[simp] theorem register_rlRx (j k : Nat) (t : Word) (s : State) : (register j k t s).rlRx = s.rlRx := rfl
@[simp] theorem register_now (j k : Nat) (t : Word) (s : State) : (register j k t s).now = s.now := rfl
@[simp] theorem register_tx (j k : Nat) (t : Word) (s : State) : (register j k t s).tx = s.tx := rfl
@[simp] theorem register_clInp (j k : Nat) (t : Word) (s : State) : (register j k t s).clInp = s.clInp := rfl
@[simp] theorem register_sched (j k : Nat) (t : Word) (s : State) : (register j k t s).sched = s.sched := rfl
@[simp] theorem register_outputs (j k : Nat) (t : Word) (s : State) : (register j k t s).outputs = s.outputs := rfl
@[simp] theorem register_active (j k : Nat) (t : Word) (s : State) : (register j k t s).active = s.active := rfl

@[simp] theorem releaseTx_cfg (s : State) : (releaseTx s).cfg = s.cfg := rfl
@[simp] theorem releaseTx_mem (s : State) : (releaseTx s).mem = s.mem := rfl
@[simp] theorem releaseTx_locks (s : State) : (releaseTx s).locks = s.locks := rfl
@[simp] theorem releaseTx_conns (s : State) : (releaseTx s).conns = s.conns := rfl
@[simp] theorem releaseTx_up (s : State) : (releaseTx s).up = s.up := rfl
@[simp] theorem releaseTx_pt (s : State) : (releaseTx s).pt = s.pt := rfl
@[simp] theorem releaseTx_tidc (s : State) : (releaseTx s).tidc = s.tidc := rfl
@[simp] theorem releaseTx_callers (s : State) : (releaseTx s).callers = s.callers := rfl
@[simp] theorem releaseTx_rlRx (s : State) : (releaseTx s).rlRx = s.rlRx := rfl
@[simp] theorem releaseTx_now (s : State) : (releaseTx s).now = s.now := rfl
@[simp] theorem releaseTx_tx (s : State) : (releaseTx s).tx = .free := rfl
@[simp] theorem releaseTx_clInp (s : State) : (releaseTx s).clInp = s.clInp := rfl
@[simp] theorem releaseTx_sched (s : State) : (releaseTx s).sched = s.sched := rfl
@[simp] theorem releaseTx_outputs (s : State) : (releaseTx s).outputs = s.outputs := rfl
@[simp] theorem releaseTx_active (s : State) : (releaseTx s).active = s.active := rfl

/-! Agents read only their own store. -/

theorem connAt_congr (s t : State) (h : s.conns = t.conns) (i : Nat) : connAt s i = connAt t i := by
  simp [connAt, h]

theorem callerAt_congr (s t : State) (h : s.callers = t.callers) (j : Nat) : callerAt s j = callerAt t j := by
  simp [callerAt, h]

@[simp] theorem connAt_emit (o : Output) (s : State) (i : Nat) : connAt (emit o s) i = connAt s i := rfl
@[simp] theorem connAt_setCaller (j : Nat) (c : Caller) (s : State) (i : Nat) :
    connAt (setCaller j c s) i = connAt s i := rfl
@[simp] theorem connAt_closeClient (s : State) (i : Nat) : connAt (closeClient s) i = connAt s i := rfl
@[simp] theorem connAt_resolveAt (k : Nat) (r : CallResult) (s : State) (i : Nat) :
    connAt (resolveAt k r s) i = connAt s i := rfl
@[simp] theorem callerAt_emit (o : Output) (s : State) (j : Nat) : callerAt (emit o s) j = callerAt s j := rfl
@[simp] theorem callerAt_setConn (i : Nat) (c : Conn) (s : State) (j : Nat) :
    callerAt (setConn i c s) j = callerAt s j := rfl
@[simp] theorem callerAt_answer (i : Nat) (pdu : List Byte) (s : State) (j : Nat) :
    callerAt (answer i pdu s) j = callerAt s j := rfl
@[simp] theorem callerAt_resolveAt (k : Nat) (r : CallResult) (s : State) (j : Nat) :
    callerAt (resolveAt k r s) j = callerAt s j := rfl
@[simp] theorem callerAt_setEntry (k : Nat) (e : Entry) (s : State) (j : Nat) :
    callerAt (setEntry k e s) j = callerAt s j := rfl

end Sys2Proof.Machine
end

