-- ==== Sys2Proof/Laws/Ops.lean ====
section
/-! SUPPORT. What the shared operations of Machine/Ops.lean do: sparse stores, banks, locks, the pending table. -/

namespace Sys2Proof.Machine

section Sparse
variable {α : Type} [DecidableEq α] (d : α)

/-- Writing one key leaves every other key's value alone. -/
theorem sparseGet_put_other (m : List (Nat × α)) (k j : Nat) (v : α) (h : j ≠ k) :
    sparseGet d (sparsePut d m k v) j = sparseGet d m j := by
  induction m with
  | nil => by_cases hv : v = d <;> simp [sparsePut, sparseGet, hv, Ne.symm h]
  | cons p m ih =>
    obtain ⟨a, x⟩ := p
    simp only [sparsePut]
    split_ifs with h1 h2 h3 h4
    · rfl
    · simp [sparseGet, Ne.symm h]
    · subst h3; simp [sparseGet, Ne.symm h]
    · subst h3; simp [sparseGet, Ne.symm h]
    · simp [sparseGet, ih]

/-- A key below the store's lower bound is not listed. -/
theorem sparseGet_below (m : List (Nat × α)) (lo k : Nat) (hw : sparseWfFrom d lo m = true) (hk : k < lo) :
    sparseGet d m k = d := by
  induction m generalizing lo with
  | nil => rfl
  | cons p m ih =>
    obtain ⟨a, x⟩ := p
    simp only [sparseWfFrom, Bool.and_eq_true, decide_eq_true_eq] at hw
    simp only [sparseGet]
    rw [if_neg (by omega)]
    exact ih (a + 1) hw.2 (by omega)

theorem sparseWfFrom_mono (m : List (Nat × α)) (lo lo' : Nat) (h : lo' ≤ lo)
    (hw : sparseWfFrom d lo m = true) : sparseWfFrom d lo' m = true := by
  cases m with
  | nil => rfl
  | cons p m =>
    simp only [sparseWfFrom, Bool.and_eq_true, decide_eq_true_eq] at hw ⊢
    exact ⟨⟨by omega, hw.1.2⟩, hw.2⟩

theorem sparseGet_put_same_from (m : List (Nat × α)) (lo k : Nat) (v : α)
    (hw : sparseWfFrom d lo m = true) : sparseGet d (sparsePut d m k v) k = v := by
  induction m generalizing lo with
  | nil => by_cases hv : v = d <;> simp [sparsePut, sparseGet, hv]
  | cons p m ih =>
    obtain ⟨a, x⟩ := p
    simp only [sparseWfFrom, Bool.and_eq_true, decide_eq_true_eq] at hw
    simp only [sparsePut]
    split_ifs with h1 h2 h3 h4
    · rw [sparseGet, if_neg (by omega), sparseGet_below d m (a + 1) k hw.2 (by omega), h2]
    · simp [sparseGet]
    · rw [sparseGet_below d m (a + 1) k hw.2 (by omega), h4]
    · simp [sparseGet]
    · rw [sparseGet, if_neg (by omega), ih (a + 1) hw.2]

/-- In a canonical store the key just written reads as the value written. -/
theorem sparseGet_put_same (m : List (Nat × α)) (k : Nat) (v : α) (hw : sparseWf d m = true) :
    sparseGet d (sparsePut d m k v) k = v := sparseGet_put_same_from d m 0 k v hw

/-- Reading any key after a write to one. -/
theorem sparseGet_put (m : List (Nat × α)) (k j : Nat) (v : α) (hw : sparseWf d m = true) :
    sparseGet d (sparsePut d m k v) j = if j = k then v else sparseGet d m j := by
  split_ifs with h
  · subst h; exact sparseGet_put_same d m j v hw
  · exact sparseGet_put_other d m k j v h

theorem sparsePut_wfFrom (m : List (Nat × α)) (lo k : Nat) (v : α) (hk : lo ≤ k)
    (hw : sparseWfFrom d lo m = true) : sparseWfFrom d lo (sparsePut d m k v) = true := by
  induction m generalizing lo with
  | nil => by_cases hv : v = d <;> simp [sparsePut, sparseWfFrom, hv, hk]
  | cons p m ih =>
    obtain ⟨a, x⟩ := p
    have hw' := hw
    simp only [sparseWfFrom, Bool.and_eq_true, decide_eq_true_eq] at hw
    simp only [sparsePut]
    split_ifs with h1 h2 h3 h4
    · exact hw'
    · simp only [sparseWfFrom, Bool.and_eq_true, decide_eq_true_eq]
      exact ⟨⟨hk, h2⟩, ⟨by omega, hw.1.2⟩, hw.2⟩
    · exact sparseWfFrom_mono d m (a + 1) lo (by omega) hw.2
    · subst h3
      simp only [sparseWfFrom, Bool.and_eq_true, decide_eq_true_eq]
      exact ⟨⟨hk, h4⟩, hw.2⟩
    · simp only [sparseWfFrom, Bool.and_eq_true, decide_eq_true_eq]
      exact ⟨hw.1, ih (a + 1) (by omega) hw.2⟩

/-- A write keeps the canonical form. -/
theorem sparsePut_wf (m : List (Nat × α)) (k : Nat) (v : α) (hw : sparseWf d m = true) :
    sparseWf d (sparsePut d m k v) = true := sparsePut_wfFrom d m 0 k v (Nat.zero_le k) hw

/-- Every listed key stays below a bound the written key is below too. -/
theorem sparsePut_bound (m : List (Nat × α)) (k n : Nat) (v : α) (hk : k < n)
    (hm : m.all (fun p => decide (p.1 < n)) = true) :
    (sparsePut d m k v).all (fun p => decide (p.1 < n)) = true := by
  induction m with
  | nil => by_cases hv : v = d <;> simp [sparsePut, hv, hk]
  | cons p m ih =>
    obtain ⟨a, x⟩ := p
    have hm' := hm
    simp only [List.all_cons, Bool.and_eq_true, decide_eq_true_eq] at hm
    simp only [sparsePut]
    split_ifs
    · exact hm'
    · rw [List.all_cons, hm']; simp [hk]
    · exact hm.2
    · rw [List.all_cons, hm.2]; simp [hk]
    · rw [List.all_cons, ih hm.2]; simp [hm.1]

/-- Applying a function that keeps the default value to every listed value applies it at every key. -/
theorem sparseGet_map_from (f : α → α) (hf : f d = d) (m : List (Nat × α)) (lo k : Nat)
    (hw : sparseWfFrom d lo m = true) : sparseGet d (sparseMap d f m) k = f (sparseGet d m k) := by
  induction m generalizing lo with
  | nil => simp [sparseMap, sparseGet, hf]
  | cons p m ih =>
    obtain ⟨a, x⟩ := p
    simp only [sparseWfFrom, Bool.and_eq_true, decide_eq_true_eq] at hw
    simp only [sparseMap]
    split_ifs with h
    · rw [ih (a + 1) hw.2, sparseGet]
      split_ifs with ha
      · rw [h, sparseGet_below d m (a + 1) k hw.2 (by omega), hf]
      · rfl
    · simp only [sparseGet]
      split_ifs with ha
      · rfl
      · exact ih (a + 1) hw.2

theorem sparseGet_map (f : α → α) (hf : f d = d) (m : List (Nat × α)) (k : Nat) (hw : sparseWf d m = true) :
    sparseGet d (sparseMap d f m) k = f (sparseGet d m k) := sparseGet_map_from d f hf m 0 k hw

theorem sparseMap_wfFrom (f : α → α) (m : List (Nat × α)) (lo : Nat) (hw : sparseWfFrom d lo m = true) :
    sparseWfFrom d lo (sparseMap d f m) = true := by
  induction m generalizing lo with
  | nil => rfl
  | cons p m ih =>
    obtain ⟨a, x⟩ := p
    simp only [sparseWfFrom, Bool.and_eq_true, decide_eq_true_eq] at hw
    simp only [sparseMap]
    split_ifs with h
    · exact sparseWfFrom_mono d _ (a + 1) lo (by omega) (ih (a + 1) hw.2)
    · simp only [sparseWfFrom, Bool.and_eq_true, decide_eq_true_eq]
      exact ⟨⟨hw.1.1, h⟩, ih (a + 1) hw.2⟩

/-- Mapping keeps the canonical form. -/
theorem sparseMap_wf (f : α → α) (m : List (Nat × α)) (hw : sparseWf d m = true) :
    sparseWf d (sparseMap d f m) = true := sparseMap_wfFrom d f m 0 hw

theorem sparsePut_put_from (m : List (Nat × α)) (lo k : Nat) (v w : α) (hw : sparseWfFrom d lo m = true) :
    sparsePut d (sparsePut d m k v) k w = sparsePut d m k w := by
  induction m generalizing lo with
  | nil => by_cases hv : v = d <;> simp [sparsePut, hv]
  | cons p m ih =>
    obtain ⟨a, x⟩ := p
    simp only [sparseWfFrom, Bool.and_eq_true, decide_eq_true_eq] at hw
    by_cases h1 : k < a
    · by_cases hv : v = d <;> simp [sparsePut, h1, hv]
    · by_cases h3 : k = a
      · subst h3
        by_cases hv : v = d
        · cases m with
          | nil => simp [sparsePut, hv]
          | cons q m =>
            obtain ⟨b, y⟩ := q
            simp only [sparseWfFrom, Bool.and_eq_true, decide_eq_true_eq] at hw
            have hb : k < b := by omega
            by_cases hw' : w = d <;> simp [sparsePut, hv, hb, hw']
        · simp [sparsePut, hv]
      · simp [sparsePut, h1, h3, ih (a + 1) hw.2]

/-- In a canonical store the later of two writes to one key is the one that counts. -/
theorem sparsePut_put (m : List (Nat × α)) (k : Nat) (v w : α) (hw : sparseWf d m = true) :
    sparsePut d (sparsePut d m k v) k w = sparsePut d m k w := sparsePut_put_from d m 0 k v w hw

end Sparse

/-! Agents. -/

theorem connAt_setConn_other (i n : Nat) (c : Conn) (s : State) (h : n ≠ i) :
    connAt (setConn i c s) n = connAt s n := sparseGet_put_other _ _ _ _ _ h

theorem connAt_setConn (i n : Nat) (c : Conn) (s : State) (hw : sparseWf Conn.reset s.conns = true) :
    connAt (setConn i c s) n = if n = i then c else connAt s n := sparseGet_put _ _ _ _ _ hw

theorem callerAt_setCaller_other (j n : Nat) (c : Caller) (s : State) (h : n ≠ j) :
    callerAt (setCaller j c s) n = callerAt s n := sparseGet_put_other _ _ _ _ _ h

theorem callerAt_setCaller (j n : Nat) (c : Caller) (s : State)
    (hw : sparseWf Caller.reset s.callers = true) :
    callerAt (setCaller j c s) n = if n = j then c else callerAt s n := sparseGet_put _ _ _ _ _ hw

/-- What the close does to each caller. -/
theorem callerAt_closeClient (s : State) (j : Nat) (hw : sparseWf Caller.reset s.callers = true) :
    callerAt (closeClient s) j = abandonIssue (callerAt s j) :=
  sparseGet_map _ _ rfl _ _ hw

/-! Banks. -/

section Cells
variable {w : Nat}

@[simp] theorem readCells_length (m : List (Nat × BitVec w)) (a n : Nat) : (readCells m a n).length = n := by
  induction n generalizing a with
  | zero => rfl
  | succ n ih => simp [readCells, ih]

/-- The cell read at place `k` is the cell at address `a + k`. -/
theorem readCells_getElem (m : List (Nat × BitVec w)) (a n k : Nat) (hk : k < n) :
    (readCells m a n)[k]? = some (sparseGet 0 m (a + k)) := by
  induction n generalizing a k with
  | zero => omega
  | succ n ih =>
    cases k with
    | zero => simp [readCells]
    | succ k =>
      simp only [readCells, List.getElem?_cons_succ]
      rw [ih (a + 1) k (by omega)]
      congr 2; omega

/-- A write keeps the canonical form of a bank. -/
theorem writeCells_wf (m : List (Nat × BitVec w)) (a : Nat) (vs : List (BitVec w))
    (hw : sparseWf 0 m = true) : sparseWf 0 (writeCells m a vs) = true := by
  induction vs generalizing m a with
  | nil => exact hw
  | cons v vs ih => exact ih _ _ (sparsePut_wf 0 m a v hw)

/-- A write inside the bank lists only cells inside the bank. -/
theorem writeCells_bound (m : List (Nat × BitVec w)) (a n : Nat) (vs : List (BitVec w))
    (ha : a + vs.length ≤ n) (hm : m.all (fun p => decide (p.1 < n)) = true) :
    (writeCells m a vs).all (fun p => decide (p.1 < n)) = true := by
  induction vs generalizing m a with
  | nil => exact hm
  | cons v vs ih =>
    simp only [List.length_cons] at ha
    exact ih _ _ (by omega) (sparsePut_bound 0 m a n v (by omega) hm)

/-- A write leaves the cells outside its range alone. -/
theorem sparseGet_writeCells_outside (m : List (Nat × BitVec w)) (a k : Nat) (vs : List (BitVec w))
    (hk : k < a ∨ a + vs.length ≤ k) : sparseGet 0 (writeCells m a vs) k = sparseGet 0 m k := by
  induction vs generalizing m a with
  | nil => rfl
  | cons v vs ih =>
    simp only [List.length_cons] at hk
    rw [writeCells, ih _ _ (by omega), sparseGet_put_other _ _ _ _ _ (by omega)]

end Cells

theorem bits_setBits (m : Memory) (b b' : BitBank) (c : List (Nat × Bit)) :
    (m.setBits b c).bits b' = if b' = b then c else m.bits b' := by
  cases b <;> cases b' <;> rfl

theorem regs_setRegs (m : Memory) (r r' : RegBank) (c : List (Nat × Word)) :
    (m.setRegs r c).regs r' = if r' = r then c else m.regs r' := by
  cases r <;> cases r' <;> rfl

@[simp] theorem regs_setBits (m : Memory) (b : BitBank) (c : List (Nat × Bit)) (r : RegBank) :
    (m.setBits b c).regs r = m.regs r := by cases b <;> cases r <;> rfl

@[simp] theorem bits_setRegs (m : Memory) (r : RegBank) (c : List (Nat × Word)) (b : BitBank) :
    (m.setRegs r c).bits b = m.bits b := by cases b <;> cases r <;> rfl

theorem memory_wf_iff (m : Memory) :
    m.wf = true ↔ (∀ b, sparseWf 0 (m.bits b) = true) ∧ (∀ r, sparseWf 0 (m.regs r) = true) := by
  simp only [Memory.wf, Bool.and_eq_true]
  constructor
  · rintro ⟨⟨⟨h1, h2⟩, h3⟩, h4⟩
    exact ⟨fun b => by cases b <;> assumption, fun r => by cases r <;> assumption⟩
  · rintro ⟨hb, hr⟩
    exact ⟨⟨⟨hb .di, hb .co⟩, hr .hr⟩, hr .ir⟩

theorem memory_within_iff (c : Config) (m : Memory) :
    m.within c = true ↔ (∀ b, (m.bits b).all (fun p => decide (p.1 < capBits c b)) = true) ∧
      (∀ r, (m.regs r).all (fun p => decide (p.1 < capRegs c r)) = true) := by
  simp only [Memory.within, Bool.and_eq_true]
  constructor
  · rintro ⟨⟨⟨h1, h2⟩, h3⟩, h4⟩
    exact ⟨fun b => by cases b <;> assumption, fun r => by cases r <;> assumption⟩
  · rintro ⟨hb, hr⟩
    exact ⟨⟨⟨hb .di, hb .co⟩, hr .hr⟩, hr .ir⟩

/-- Writing a bit bank keeps the canonical form of the memory. -/
theorem memory_setBits_wf (m : Memory) (b : BitBank) (a : Nat) (vs : List Bit) (h : m.wf = true) :
    (m.setBits b (writeCells (m.bits b) a vs)).wf = true := by
  rw [memory_wf_iff] at h ⊢
  refine ⟨fun b' => ?_, fun r => by simpa using h.2 r⟩
  rw [bits_setBits]
  split_ifs
  · exact writeCells_wf _ _ _ (h.1 b)
  · exact h.1 b'

/-- Writing a register bank keeps the canonical form of the memory. -/
theorem memory_setRegs_wf (m : Memory) (r : RegBank) (a : Nat) (vs : List Word) (h : m.wf = true) :
    (m.setRegs r (writeCells (m.regs r) a vs)).wf = true := by
  rw [memory_wf_iff] at h ⊢
  refine ⟨fun b => by simpa using h.1 b, fun r' => ?_⟩
  rw [regs_setRegs]
  split_ifs
  · exact writeCells_wf _ _ _ (h.2 r)
  · exact h.2 r'

/-- The reset memory is in canonical form. -/
theorem reset_memory_wf : State.reset.mem.wf = true := by decide

/-- The range check (R124). -/
@[simp] theorem inRange_true (cap a n : Nat) : inRange cap a n = true ↔ a + n ≤ cap := by simp [inRange]
@[simp] theorem inRange_false (cap a n : Nat) : inRange cap a n = false ↔ cap < a + n := by simp [inRange]

/-! Locks: what each datastore operation can do, said once (R25, R55, R128, R129). -/

@[simp] theorem setLock_same (l : Locks) (b : Bank) (x y : Lock) :
    setLock (setLock l b x) b y = setLock l b y := by
  rcases b with (_ | _) | (_ | _) <;> rfl

@[simp] theorem lockOf_setLock_same (l : Locks) (b : Bank) (x : Lock) : lockOf (setLock l b x) b = x := by
  rcases b with (_ | _) | (_ | _) <;> rfl

theorem setLock_free_of_free (l : Locks) (b : Bank) (h : lockOf l b = .free) : setLock l b .free = l := by
  obtain ⟨d, c, h', i⟩ := l
  rcases b with (_ | _) | (_ | _) <;> simp_all [lockOf, setLock]

theorem release_acquired (a : Agent) (b : Bank) (s : State) (h : lockOf s.locks b = .free) :
    release b { s with locks := setLock s.locks b (.held a) } = s := by
  have := setLock_free_of_free s.locks b h
  cases s
  simp_all [release]

/-- A read of a bit bank with the lock free: the cells, and the state unchanged. -/
theorem dsReadBits_free (a : Agent) (b : BitBank) (addr n : Nat) (s : State)
    (h : lockOf s.locks (.bits b) = .free) :
    dsReadBits a b addr n s =
      if inRange (capBits s.cfg b) addr n then .done (readCells (s.mem.bits b) addr n) s
      else .serverFailure := by
  simp [dsReadBits, acquire, h, release_acquired]

/-- A read of a register bank with the lock free: the cells, and the state unchanged. -/
theorem dsReadRegs_free (a : Agent) (r : RegBank) (addr n : Nat) (s : State)
    (h : lockOf s.locks (.regs r) = .free) :
    dsReadRegs a r addr n s =
      if inRange (capRegs s.cfg r) addr n then .done (readCells (s.mem.regs r) addr n) s
      else .serverFailure := by
  simp [dsReadRegs, acquire, h, release_acquired]

/-- A write of a bit bank with the lock free: the bank written, nothing else. -/
theorem dsWriteBits_free (a : Agent) (b : BitBank) (addr : Nat) (vs : List Bit) (s : State)
    (h : lockOf s.locks (.bits b) = .free) :
    dsWriteBits a b addr vs s =
      if inRange (capBits s.cfg b) addr vs.length then .done () (bankWriteBits b addr vs s)
      else .serverFailure := by
  have := setLock_free_of_free s.locks _ h
  cases s
  simp_all [dsWriteBits, acquire, release, bankWriteBits]

/-- A write of a register bank with the lock free: the bank written, nothing else. -/
theorem dsWriteRegs_free (a : Agent) (r : RegBank) (addr : Nat) (vs : List Word) (s : State)
    (h : lockOf s.locks (.regs r) = .free) :
    dsWriteRegs a r addr vs s =
      if inRange (capRegs s.cfg r) addr vs.length then .done () (bankWriteRegs r addr vs s)
      else .serverFailure := by
  have := setLock_free_of_free s.locks _ h
  cases s
  simp_all [dsWriteRegs, acquire, release, bankWriteRegs]

/-- A read of a bit bank that is done had the lock free. -/
theorem dsReadBits_done (a : Agent) (b : BitBank) (addr n : Nat) (s s' : State) (c : List Bit)
    (h : dsReadBits a b addr n s = .done c s') :
    s' = s ∧ c = readCells (s.mem.bits b) addr n ∧ inRange (capBits s.cfg b) addr n = true := by
  by_cases hf : lockOf s.locks (.bits b) = .free
  · rw [dsReadBits_free _ _ _ _ _ hf] at h
    split_ifs at h with hr
    cases h; exact ⟨rfl, rfl, hr⟩
  · unfold dsReadBits acquire at h
    simp only [hf, if_false] at h
    split_ifs at h

/-- A read of a register bank that is done had the lock free. -/
theorem dsReadRegs_done (a : Agent) (r : RegBank) (addr n : Nat) (s s' : State) (c : List Word)
    (h : dsReadRegs a r addr n s = .done c s') :
    s' = s ∧ c = readCells (s.mem.regs r) addr n ∧ inRange (capRegs s.cfg r) addr n = true := by
  by_cases hf : lockOf s.locks (.regs r) = .free
  · rw [dsReadRegs_free _ _ _ _ _ hf] at h
    split_ifs at h with hr
    cases h; exact ⟨rfl, rfl, hr⟩
  · unfold dsReadRegs acquire at h
    simp only [hf, if_false] at h
    split_ifs at h

/-- A read of a bit bank waits while its lock is held (R25). -/
theorem dsReadBits_held (a : Agent) (b : BitBank) (addr n : Nat) (s : State)
    (hl : lockOf s.locks (.bits b) ≠ .free) :
    dsReadBits a b addr n s = if inRange (capBits s.cfg b) addr n then .wait else .serverFailure := by
  simp [dsReadBits, acquire, hl]

/-- A write of a bit bank waits while its lock is held (R25). -/
theorem dsWriteBits_held (a : Agent) (b : BitBank) (addr : Nat) (vs : List Bit) (s : State)
    (hl : lockOf s.locks (.bits b) ≠ .free) :
    dsWriteBits a b addr vs s = if inRange (capBits s.cfg b) addr vs.length then .wait else .serverFailure := by
  simp [dsWriteBits, acquire, hl]

/-- A write of a bit bank that is done had the lock free, and wrote the bank, inside its bounds, and nothing else. -/
theorem dsWriteBits_done (a : Agent) (b : BitBank) (addr : Nat) (vs : List Bit) (s s' : State) (u : Unit)
    (h : dsWriteBits a b addr vs s = .done u s') :
    s' = bankWriteBits b addr vs s ∧ inRange (capBits s.cfg b) addr vs.length = true ∧
      lockOf s.locks (.bits b) = .free := by
  by_cases hf : lockOf s.locks (.bits b) = .free
  · rw [dsWriteBits_free _ _ _ _ _ hf] at h
    split_ifs at h with hr
    cases h; exact ⟨rfl, hr, hf⟩
  · unfold dsWriteBits acquire at h
    simp only [hf, if_false] at h
    split_ifs at h

/-- A read of a register bank waits while its lock is held (R25). -/
theorem dsReadRegs_held (a : Agent) (r : RegBank) (addr n : Nat) (s : State)
    (hl : lockOf s.locks (.regs r) ≠ .free) :
    dsReadRegs a r addr n s = if inRange (capRegs s.cfg r) addr n then .wait else .serverFailure := by
  simp [dsReadRegs, acquire, hl]

/-- A write of a register bank waits while its lock is held (R25). -/
theorem dsWriteRegs_held (a : Agent) (r : RegBank) (addr : Nat) (vs : List Word) (s : State)
    (hl : lockOf s.locks (.regs r) ≠ .free) :
    dsWriteRegs a r addr vs s = if inRange (capRegs s.cfg r) addr vs.length then .wait else .serverFailure := by
  simp [dsWriteRegs, acquire, hl]

/-- A write of a register bank that is done had the lock free, and wrote the bank, inside its bounds, and nothing else. -/
theorem dsWriteRegs_done (a : Agent) (r : RegBank) (addr : Nat) (vs : List Word) (s s' : State) (u : Unit)
    (h : dsWriteRegs a r addr vs s = .done u s') :
    s' = bankWriteRegs r addr vs s ∧ inRange (capRegs s.cfg r) addr vs.length = true ∧
      lockOf s.locks (.regs r) = .free := by
  by_cases hf : lockOf s.locks (.regs r) = .free
  · rw [dsWriteRegs_free _ _ _ _ _ hf] at h
    split_ifs at h with hr
    cases h; exact ⟨rfl, hr, hf⟩
  · unfold dsWriteRegs acquire at h
    simp only [hf, if_false] at h
    split_ifs at h

/-! The pending table. -/

@[simp] theorem isPending_iff (e : Entry) : isPending e = true ↔ e.st = .pending := by simp [isPending]

@[simp] theorem isPendingWith_iff (t : Word) (e : Entry) :
    isPendingWith t e = true ↔ e.st = .pending ∧ e.tid = t := by simp [isPendingWith]

@[simp] theorem isExpired_iff (timeout : Nat) (now : Ticks) (e : Entry) :
    isExpired timeout now e = true ↔ e.st = .pending ∧ timeout ≤ (now - e.tSub).toNat := by simp [isExpired]

/-- Some entry is pending under `t`. -/
@[simp] theorem tidPending_iff (pt : List Entry) (t : Word) :
    tidPending pt t = true ↔ ∃ e ∈ pt, e.st = .pending ∧ e.tid = t := by simp [tidPending]

/-- The index the correlator finds holds an entry pending under the id, and no lower index does. -/
theorem pendingIndex_some (pt : List Entry) (t : Word) (k : Nat) (h : pendingIndex pt t = some k) :
    ∃ e, pt[k]? = some e ∧ e.st = .pending ∧ e.tid = t := by
  simp only [pendingIndex, List.findIdx?_eq_some_iff_getElem] at h
  obtain ⟨hk, hp, _⟩ := h
  refine ⟨pt[k], by simp [hk], ?_⟩
  simpa using hp

/-- The correlator finds none exactly when no entry is pending under the id. -/
theorem pendingIndex_none (pt : List Entry) (t : Word) :
    pendingIndex pt t = none ↔ ∀ e ∈ pt, ¬ (e.st = .pending ∧ e.tid = t) := by
  simp [pendingIndex, List.findIdx?_eq_none_iff, isPendingWith, isPending]

/-- The correlator finds the one entry pending under the id. -/
theorem pendingIndex_unique (pt : List Entry) (t : Word) (k : Nat) (e : Entry) (hk : pt[k]? = some e)
    (hp : e.st = .pending) (ht : e.tid = t)
    (hu : ∀ (k' : Nat) (e' : Entry), pt[k']? = some e' → e'.st = .pending → e'.tid = t → k' = k) :
    pendingIndex pt t = some k := by
  cases h : pendingIndex pt t with
  | none => exact absurd ⟨hp, ht⟩ ((pendingIndex_none pt t).1 h e (List.mem_of_getElem? hk))
  | some k' =>
    obtain ⟨e', h1, h2, h3⟩ := pendingIndex_some _ _ _ h
    rw [hu k' e' h1 h2 h3]

/-- Changing the entry at an index is writing its new value there. -/
theorem modify_eq_set {α : Type} (l : List α) (k : Nat) (x : α) (f : α → α) (h : l[k]? = some x) :
    l.modify k f = l.set k (f x) := by
  apply List.ext_getElem?
  intro j
  rw [List.getElem?_modify, List.getElem?_set]
  obtain ⟨hk, rfl⟩ := List.getElem?_eq_some_iff.1 h
  by_cases hj : k = j
  · subst hj; simp [hk]
  · simp [hj]

/-- The index an issue step uses holds a FREE entry. -/
theorem lowestFree_some (pt : List Entry) (k : Nat) (h : lowestFree pt = some k) :
    ∃ e, pt[k]? = some e ∧ e.st = .free := by
  simp only [lowestFree, List.findIdx?_eq_some_iff_getElem] at h
  obtain ⟨hk, hp, _⟩ := h
  exact ⟨pt[k], by simp [hk], by simpa using hp⟩

/-- No entry is FREE exactly when the issue step finds none (R166). -/
theorem lowestFree_none (pt : List Entry) : lowestFree pt = none ↔ ∀ e ∈ pt, e.st ≠ .free := by
  simp [lowestFree, List.findIdx?_eq_none_iff]

end Sys2Proof.Machine
end

