-- ==== Sys2Proof/Laws/Router.lean ====
section
/-! SUPPORT. What an instruction can do, said once: at a server agent (R115, R120) and at the read loop (R171). -/

namespace Sys2Proof.Machine

/-- As a response PDU every instruction is correlated as the PDU it stands for (R171). -/
theorem exec_client (i : Instr) (tid : Word) (s : State) (h : s.active = .client tid) :
    exec i s = .next (correlate tid (encodePdu i) s) := by
  cases i <;>
    simp [exec, execRc, execRdi, execRhr, execRir, execWsc, execWsr, execWmr, execExc, h]

/-- Every instruction has a next state, whoever executes it (R138). -/
theorem exec_goesOn (i : Instr) (s : State) : ∃ t, exec i s = .next t := by
  cases h : s.active <;> cases i <;>
    simp [exec, execRc, execRdi, execRhr, execRir, execWsc, execWsr, execWmr, execExc, h]

/-- How a ROUTE step can leave the banks of `s`: as they were, one coil written, or a run of holding registers
written, always inside the bank and with its lock free (R25, R127, R134 to R137). -/
inductive Accessed (s : State) : State → Prop where
  | none : Accessed s s
  | coil (a : Nat) (v : Bit) (h : a + 1 ≤ s.cfg.capCo) (hl : s.locks.co = .free) :
    Accessed s (bankWriteBits .co a [v] s)
  | regs (a : Nat) (vs : List Word) (h : a + vs.length ≤ s.cfg.capHr) (hl : s.locks.hr = .free) :
    Accessed s (bankWriteRegs .hr a vs s)

/-- How a ROUTE step of `S[n]` can end: the agent waits for a lock, or it is answered with a PDU of 2 to MAX_PDU
bytes after at most one bank access (R115, R120, R127, R138). -/
inductive Routed (n : Nat) (s : State) : State → Prop where
  | waits : Routed n s s
  | answered (pdu : List Byte) (s' : State) (hs : Accessed s s') (h2 : 2 ≤ pdu.length)
      (hm : s.cfg.legal = true → pdu.length ≤ s.cfg.maxPdu) : Routed n s (answer n pdu s')

theorem routed_raiseExc (n : Nat) (fc : Byte) (code : ExcCode) (s : State) :
    Routed n s (raiseExc n fc code s) :=
  .answered _ _ .none (by simp) (fun h => by have := legal_bounds _ h; simp; omega)

theorem routeReadBits_routed (fc : Byte) (b : BitBank) (n : Nat) (p : PairForm) (s : State) :
    Routed n s (routeReadBits fc b n p s) := by
  unfold routeReadBits
  cases p with
  | cut p => exact routed_raiseExc _ _ _ _
  | full addr qty tail =>
    simp only
    split_ifs with h1 h2
    · exact routed_raiseExc _ _ _ _
    · exact routed_raiseExc _ _ _ _
    · cases hd : dsReadBits (.server n) b addr.toNat qty.toNat s with
      | wait => exact .waits
      | serverFailure => exact routed_raiseExc _ _ _ _
      | done c s' =>
        obtain ⟨rfl, rfl, _⟩ := dsReadBits_done _ _ _ _ _ _ _ hd
        refine .answered _ _ .none (by simp) (fun h => ?_)
        have hb := legal_bounds _ h
        simp only [readValueOk, Bool.and_eq_false_iff, not_or, Bool.not_eq_false, decide_eq_true_eq] at h2
        simp only [rsBits_length, readCells_length, ceil8]
        omega

theorem routeReadRegs_routed (fc : Byte) (r : RegBank) (n : Nat) (p : PairForm) (s : State) :
    Routed n s (routeReadRegs fc r n p s) := by
  unfold routeReadRegs
  cases p with
  | cut p => exact routed_raiseExc _ _ _ _
  | full addr qty tail =>
    simp only
    split_ifs with h1 h2
    · exact routed_raiseExc _ _ _ _
    · exact routed_raiseExc _ _ _ _
    · cases hd : dsReadRegs (.server n) r addr.toNat qty.toNat s with
      | wait => exact .waits
      | serverFailure => exact routed_raiseExc _ _ _ _
      | done c s' =>
        obtain ⟨rfl, rfl, _⟩ := dsReadRegs_done _ _ _ _ _ _ _ hd
        refine .answered _ _ .none (by simp) (fun h => ?_)
        have hb := legal_bounds _ h
        simp only [readValueOk, Bool.and_eq_false_iff, not_or, Bool.not_eq_false, decide_eq_true_eq] at h2
        simp only [rsRegs_length, readCells_length]
        omega

theorem routeWriteCoil_routed (n : Nat) (p : PairForm) (s : State) :
    Routed n s (routeWriteCoil n p s) := by
  unfold routeWriteCoil
  cases p with
  | cut p => exact routed_raiseExc _ _ _ _
  | full addr value tail =>
    simp only
    split_ifs with h1 h2
    · exact routed_raiseExc _ _ _ _
    · exact routed_raiseExc _ _ _ _
    · cases hc : coilOf value with
      | none => exact routed_raiseExc _ _ _ _
      | some bit =>
        simp only
        cases hd : dsWriteBits (.server n) .co addr.toNat [bit] s with
        | wait => exact .waits
        | serverFailure => exact routed_raiseExc _ _ _ _
        | done u s' =>
          obtain ⟨rfl, hr, hl⟩ := dsWriteBits_done _ _ _ _ _ _ _ hd
          refine .answered _ _ (.coil _ _ ?_ hl) (by simp) (fun h => ?_)
          · exact of_decide_eq_true hr
          · have := legal_bounds _ h; simp; omega

theorem routeWriteReg_routed (n : Nat) (p : PairForm) (s : State) :
    Routed n s (routeWriteReg n p s) := by
  unfold routeWriteReg
  cases p with
  | cut p => exact routed_raiseExc _ _ _ _
  | full addr value tail =>
    simp only
    split_ifs with h1 h2
    · exact routed_raiseExc _ _ _ _
    · exact routed_raiseExc _ _ _ _
    · cases hd : dsWriteRegs (.server n) .hr addr.toNat [value] s with
      | wait => exact .waits
      | serverFailure => exact routed_raiseExc _ _ _ _
      | done u s' =>
        obtain ⟨rfl, hr, hl⟩ := dsWriteRegs_done _ _ _ _ _ _ _ hd
        refine .answered _ _ (.regs _ _ ?_ hl) (by simp) (fun h => ?_)
        · exact of_decide_eq_true hr
        · have := legal_bounds _ h; simp; omega

theorem routeWriteRegs_routed (n : Nat) (m : MultiForm) (s : State) :
    Routed n s (routeWriteRegs n m s) := by
  unfold routeWriteRegs
  cases m with
  | cut p => exact routed_raiseExc _ _ _ _
  | full addr qty bc data =>
    simp only
    split_ifs with h1 h2
    · exact routed_raiseExc _ _ _ _
    · exact routed_raiseExc _ _ _ _
    · cases hd : dsWriteRegs (.server n) .hr addr.toNat (bytesRegs data) s with
      | wait => exact .waits
      | serverFailure => exact routed_raiseExc _ _ _ _
      | done u s' =>
        obtain ⟨rfl, hr, hl⟩ := dsWriteRegs_done _ _ _ _ _ _ _ hd
        refine .answered _ _ (.regs _ _ ?_ hl) (by simp) (fun h => ?_)
        · exact of_decide_eq_true hr
        · have := legal_bounds _ h; simp; omega

/-- What any instruction can do at a server agent. -/
theorem exec_server (i : Instr) (n : Nat) (s : State) (h : s.active = .server n) :
    ∃ t, exec i s = .next t ∧ Routed n s t := by
  cases i <;>
    simp only [exec, execRc, execRdi, execRhr, execRir, execWsc, execWsr, execWmr, execExc, h]
  · exact ⟨_, rfl, routeReadBits_routed _ _ _ _ _⟩
  · exact ⟨_, rfl, routeReadBits_routed _ _ _ _ _⟩
  · exact ⟨_, rfl, routeReadRegs_routed _ _ _ _ _⟩
  · exact ⟨_, rfl, routeReadRegs_routed _ _ _ _ _⟩
  · exact ⟨_, rfl, routeWriteCoil_routed _ _ _⟩
  · exact ⟨_, rfl, routeWriteReg_routed _ _ _⟩
  · exact ⟨_, rfl, routeWriteRegs_routed _ _ _⟩
  · exact ⟨_, rfl, routed_raiseExc _ _ _ _⟩

/-- What the correlator can do: drop and log, or resolve the entry pending under the id (R171, R172). -/
theorem correlate_cases (tid : Word) (pdu : List Byte) (s : State) :
    (pendingIndex s.pt tid = none ∧ correlate tid pdu s = emit (.unexpected tid) s) ∨
      ∃ k e, s.pt[k]? = some e ∧ e.st = .pending ∧ e.tid = tid ∧
        correlate tid pdu s = resolveAt k (checkResponse e pdu) s := by
  unfold correlate
  cases h : pendingIndex s.pt tid with
  | none => exact .inl ⟨rfl, rfl⟩
  | some k =>
    obtain ⟨e, he, hp, ht⟩ := pendingIndex_some _ _ _ h
    exact .inr ⟨k, e, he, hp, ht, by simp [List.getD, he]⟩

end Sys2Proof.Machine
end

