-- ==== Sys2Proof/Laws/Offers.lean ====
section
/-! SUPPORT. What each offer's step can do, said once: if it answers a next state, then one of these cases holds. -/

namespace Sys2Proof.Machine

/-- A step either finds no offer, or takes the oldest one, under a legal configuration. -/
theorem step_cases (s t : State) (h : step s = .next t) :
    s.cfg.legal = true ∧
      ((s.sched = [] ∧ t = s) ∨
        ∃ o rest, s.sched = o :: rest ∧ takeOffer o { s with sched := rest } = .next t) := by
  unfold step at h
  split_ifs at h with hl
  refine ⟨hl, ?_⟩
  split at h
  · next hs => cases h; exact .inl ⟨hs, rfl⟩
  · next o rest hs => exact .inr ⟨o, rest, hs, h⟩

/-- The step that takes a given offer. -/
theorem step_of_sched (s : State) (o : Offer) (rest : List Offer) (hl : s.cfg.legal = true)
    (hs : s.sched = o :: rest) : step s = takeOffer o { s with sched := rest } := by
  simp [step, hl, hs]

/-- An access that is granted changes nothing but the banks (R127). -/
theorem Accessed.fields {s s' : State} (h : Accessed s s') :
    { s' with mem := s.mem } = s ∧ s'.mem.di = s.mem.di ∧ s'.mem.ir = s.mem.ir := by
  cases h <;> exact ⟨rfl, rfl, rfl⟩

theorem receiveOffer_cases (i : Nat) (s : State) :
    receiveOffer i s = s ∨
    ((connAt s i).fsm = .recv ∧ ∃ x rest, (connAt s i).inp = x :: rest ∧
      ((∃ b rx, x = .byte b ∧ deframe s.cfg.maxPdu (connAt s i).rx b = .more rx ∧
          receiveOffer i s = setConn i { connAt s i with rx := rx, inp := rest } s) ∨
       (∃ b f, x = .byte b ∧ deframe s.cfg.maxPdu (connAt s i).rx b = .frame f ∧
          receiveOffer i s = setConn i { connAt s i with
            tid := f.tid, uid := f.uid, req := f.pdu, fsm := .route, rx := [], inp := rest } s) ∨
       ((∀ b, x = .byte b → ∃ tag, deframe s.cfg.maxPdu (connAt s i).rx b = .malformed tag) ∧
          receiveOffer i s = closeConn i (setConn i { connAt s i with inp := rest } s)))) := by
  unfold receiveOffer
  simp only
  split_ifs with hf
  · cases hi : (connAt s i).inp with
    | nil => exact .inl rfl
    | cons x rest =>
      refine .inr ⟨hf, x, rest, rfl, ?_⟩
      cases x with
      | eof => exact .inr (.inr ⟨fun b hb => (by cases hb), rfl⟩)
      | ioError => exact .inr (.inr ⟨fun b hb => (by cases hb), rfl⟩)
      | byte b =>
        unfold receiveByte
        simp only
        cases hd : deframe s.cfg.maxPdu (connAt s i).rx b with
        | more rx => exact .inl ⟨b, rx, rfl, hd, rfl⟩
        | frame f => exact .inr (.inl ⟨b, f, rfl, hd, rfl⟩)
        | malformed tag => exact .inr (.inr ⟨fun c hc => (by cases hc; exact ⟨tag, hd⟩), rfl⟩)
  · exact .inl rfl

/-- A ROUTE step that goes on has decided what the agent answers, or waits for a lock (R115). -/
theorem routeOffer_cases (i : Nat) (s t : State) (h : routeOffer i s = .next t) :
    ((connAt s i).fsm ≠ .route ∧ t = s) ∨
    ((connAt s i).fsm = .route ∧ Routed i { s with active := .server i } t) := by
  unfold routeOffer at h
  simp only at h
  split_ifs at h with hf
  · refine .inr ⟨hf, ?_⟩
    split at h
    · next instr _ =>
      obtain ⟨t', h1, h2⟩ := exec_server instr i { s with active := .server i } rfl
      rw [h] at h1
      cases h1
      exact h2
    · cases h
    · cases h
      exact routed_raiseExc _ _ _ _
  · cases h
    exact .inl ⟨hf, rfl⟩

theorem replyOffer_cases (i : Nat) (sent : Bool) (s t : State) (h : replyOffer i sent s = .next t) :
    ((connAt s i).fsm ≠ .reply ∧ t = s) ∨
    ((connAt s i).fsm = .reply ∧ ∃ frame,
      encodeFrame s.cfg.maxPdu (connAt s i).tid (connAt s i).uid (connAt s i).resp = some frame ∧
      ((sent = true ∧
          t = emit (.tx i frame true) (setConn i { connAt s i with fsm := .recv, rx := [] } s)) ∨
       (sent = false ∧ t = closeConn i (emit (.tx i frame false) s)))) := by
  unfold replyOffer at h
  simp only at h
  by_cases hf : (connAt s i).fsm = .reply
  · simp only [hf, if_true] at h
    refine .inr ⟨hf, ?_⟩
    cases he : encodeFrame s.cfg.maxPdu (connAt s i).tid (connAt s i).uid (connAt s i).resp with
    | none => rw [he] at h; cases h
    | some frame =>
      rw [he] at h
      refine ⟨frame, rfl, ?_⟩
      cases sent <;> cases h
      · exact .inr ⟨rfl, rfl⟩
      · exact .inl ⟨rfl, rfl⟩
  · simp only [hf, if_false] at h
    cases h
    exact .inl ⟨hf, rfl⟩

theorem seedReadOffer_cases (b : Bank) (addr n : Nat) (s t : State) (h : seedReadOffer b addr n s = .next t) :
    t = s ∨ ∃ vals, t = emit (.cells b vals) s := by
  cases b with
  | bits b =>
    simp only [seedReadOffer] at h
    cases hd : dsReadBits .host b addr n s with
    | wait => rw [hd] at h; cases h; exact .inl rfl
    | serverFailure => rw [hd] at h; cases h
    | done c s' =>
      rw [hd] at h
      cases h
      obtain ⟨rfl, _, _⟩ := dsReadBits_done _ _ _ _ _ _ _ hd
      exact .inr ⟨_, rfl⟩
  | regs r =>
    simp only [seedReadOffer] at h
    cases hd : dsReadRegs .host r addr n s with
    | wait => rw [hd] at h; cases h; exact .inl rfl
    | serverFailure => rw [hd] at h; cases h
    | done c s' =>
      rw [hd] at h
      cases h
      obtain ⟨rfl, _, _⟩ := dsReadRegs_done _ _ _ _ _ _ _ hd
      exact .inr ⟨_, rfl⟩

theorem seedWriteOffer_cases (b : Bank) (addr : Nat) (vals : List Nat) (s t : State)
    (h : seedWriteOffer b addr vals s = .next t) :
    t = s ∨
    (∃ bb vs, b = .bits bb ∧ addr + vs.length ≤ capBits s.cfg bb ∧ lockOf s.locks (.bits bb) = .free ∧
      t = bankWriteBits bb addr vs s) ∨
    (∃ r vs, b = .regs r ∧ addr + vs.length ≤ capRegs s.cfg r ∧ lockOf s.locks (.regs r) = .free ∧
      t = bankWriteRegs r addr vs s) := by
  cases b with
  | bits b =>
    simp only [seedWriteOffer] at h
    split_ifs at h
    cases hd : dsWriteBits .host b addr (vals.map (BitVec.ofNat 1)) s with
    | wait => rw [hd] at h; cases h; exact .inl rfl
    | serverFailure => rw [hd] at h; cases h
    | done u s' =>
      rw [hd] at h
      cases h
      obtain ⟨rfl, hr, hl⟩ := dsWriteBits_done _ _ _ _ _ _ _ hd
      exact .inr (.inl ⟨b, _, rfl, (inRange_true _ _ _).1 hr, hl, rfl⟩)
  | regs r =>
    simp only [seedWriteOffer] at h
    split_ifs at h
    cases hd : dsWriteRegs .host r addr (vals.map (BitVec.ofNat 16)) s with
    | wait => rw [hd] at h; cases h; exact .inl rfl
    | serverFailure => rw [hd] at h; cases h
    | done u s' =>
      rw [hd] at h
      cases h
      obtain ⟨rfl, hr, hl⟩ := dsWriteRegs_done _ _ _ _ _ _ _ hd
      exact .inr (.inr ⟨r, _, rfl, (inRange_true _ _ _).1 hr, hl, rfl⟩)

/-- The state an issue step of `C[j]` into row `k` leaves, before a close (R167). -/
def issued (j k : Nat) (frame : List Byte) (sent : Bool) (s : State) : State :=
  emit (.ctx frame sent) (register j k (allocTid s.pt s.tidc) s)

theorem issue_cases (j : Nat) (sent : Bool) (s t : State) (h : issue j sent s = .next t) :
    t = s ∨
    (s.tx = .free ∧ ∃ k frame, lowestFree s.pt = some k ∧
      encodeFrame s.cfg.maxPdu (allocTid s.pt s.tidc) s.cfg.unitId (build (callerAt s j).op).pdu = some frame ∧
      t = if sent then issued j k frame sent s else closeClient (issued j k frame sent s)) := by
  unfold issue acquireTx at h
  by_cases ht : s.tx = .free
  · simp only [ht, if_true] at h
    cases hk : lowestFree s.pt with
    | none => rw [hk] at h; cases h; exact .inl rfl
    | some k =>
      rw [hk] at h
      simp only at h
      cases he : encodeFrame s.cfg.maxPdu (allocTid s.pt s.tidc) s.cfg.unitId (build (callerAt s j).op).pdu with
      | none =>
        have he' : encodeFrame s.cfg.maxPdu (allocTid s.pt s.tidc) s.cfg.unitId
            (build (callerAt { s with tx := .held j } j).op).pdu = none := he
        rw [he'] at h; cases h
      | some frame =>
        have he' : encodeFrame s.cfg.maxPdu (allocTid s.pt s.tidc) s.cfg.unitId
            (build (callerAt { s with tx := .held j } j).op).pdu = some frame := he
        rw [he'] at h
        refine .inr ⟨ht, k, frame, rfl, rfl, ?_⟩
        have hi : releaseTx (emit (.ctx frame sent)
            (register j k (allocTid s.pt s.tidc) { s with tx := .held j })) = issued j k frame sent s := by
          cases s
          simp_all [issued, releaseTx, register, emit, setCaller, callerAt]
        simp only at h
        rw [hi] at h
        cases sent <;> cases h <;> rfl
  · simp only [ht, if_false] at h
    cases h
    exact .inl rfl

theorem collect_cases (j : Nat) (s : State) :
    collect j s = s ∨
    ∃ e r, s.pt[(callerAt s j).k]? = some e ∧ e.st = .resolved ∧ e.slot = some r ∧
      collect j s = emit (.ret j r) (setCaller j { callerAt s j with fsm := .idle }
        (setEntry (callerAt s j).k { e with st := .free, slot := none } s)) := by
  unfold collect
  simp only
  cases he : s.pt[(callerAt s j).k]? with
  | none => exact .inl rfl
  | some e =>
    simp only
    split_ifs with hs
    · cases hr : e.slot with
      | none => exact .inl rfl
      | some r => exact .inr ⟨e, r, rfl, hs, hr, rfl⟩
    · exact .inl rfl

/-- What the step of a caller can do (R166, R167, R169, R181). -/
theorem callerOffer_cases (j : Nat) (sent : Bool) (s t : State) (h : callerOffer j sent s = .next t) :
    t = s ∨
    ((callerAt s j).fsm = .issue ∧ s.up = false ∧
      t = emit (.ret j (.err .connectionClosed)) (setCaller j { callerAt s j with fsm := .idle } s)) ∨
    ((callerAt s j).fsm = .issue ∧ s.up = true ∧ s.tx = .free ∧ ∃ k frame, lowestFree s.pt = some k ∧
      encodeFrame s.cfg.maxPdu (allocTid s.pt s.tidc) s.cfg.unitId (build (callerAt s j).op).pdu = some frame ∧
      t = if sent then issued j k frame sent s else closeClient (issued j k frame sent s)) ∨
    ((callerAt s j).fsm = .wait ∧ ∃ e r, s.pt[(callerAt s j).k]? = some e ∧ e.st = .resolved ∧
      e.slot = some r ∧ t = emit (.ret j r) (setCaller j { callerAt s j with fsm := .idle }
        (setEntry (callerAt s j).k { e with st := .free, slot := none } s))) := by
  unfold callerOffer at h
  simp only at h
  cases hf : (callerAt s j).fsm with
  | idle => rw [hf] at h; cases h; exact .inl rfl
  | issue =>
    rw [hf] at h
    simp only at h
    cases hu : s.up with
    | false =>
      simp only [hu, Bool.false_eq_true, if_false] at h
      cases h
      exact .inr (.inl ⟨rfl, rfl, rfl⟩)
    | true =>
      simp only [hu, if_true] at h
      rcases issue_cases j sent s t h with rfl | ⟨ht, k, frame, hk, he, hh⟩
      · exact .inl rfl
      · exact .inr (.inr (.inl ⟨rfl, rfl, ht, k, frame, hk, he, hh⟩))
  | wait =>
    rw [hf] at h
    cases h
    rcases collect_cases j s with hc | ⟨e, r, h1, h2, h3, h4⟩
    · exact .inl hc
    · exact .inr (.inr (.inr ⟨rfl, e, r, h1, h2, h3, h4⟩))

/-- A completed response frame is correlated by its id, whatever its PDU (R171, R172, R173). -/
theorem clientFrame_eq (f : Frame) (s : State) :
    clientFrame f s =
      .next (correlate f.tid
        (match decodePdu f.pdu with | .ok i => encodePdu i | .error _ => f.pdu)
        { s with active := .client f.tid }) := by
  unfold clientFrame
  cases decodePdu f.pdu with
  | ok i => exact exec_client i f.tid _ rfl
  | error e => rfl

/-- What a completed response frame can do: it is logged, or it resolves the entry pending under its id. -/
theorem clientFrame_cases (f : Frame) (s t : State) (h : clientFrame f s = .next t) :
    (pendingIndex s.pt f.tid = none ∧ t = emit (.unexpected f.tid) { s with active := .client f.tid }) ∨
    ∃ k e p, s.pt[k]? = some e ∧ e.st = .pending ∧ e.tid = f.tid ∧
      t = resolveAt k (checkResponse e p) { s with active := .client f.tid } := by
  rw [clientFrame_eq] at h
  cases h
  rcases correlate_cases f.tid _ { s with active := .client f.tid } with ⟨hn, hh⟩ | ⟨k, e, h1, h2, h3, hh⟩
  · exact .inl ⟨hn, hh⟩
  · exact .inr ⟨k, e, _, h1, h2, h3, hh⟩

/-- What the read loop's step can do (R170, R171, R179). -/
theorem clientReceiveOffer_cases (s : State) :
    clientReceiveOffer s = .next s ∨
    (s.up = true ∧ ∃ x rest, s.clInp = x :: rest ∧
      ((∃ b rx, x = .byte b ∧ deframe s.cfg.maxPdu s.rlRx b = .more rx ∧
          clientReceiveOffer s = .next { s with rlRx := rx, clInp := rest }) ∨
       (∃ b f, x = .byte b ∧ deframe s.cfg.maxPdu s.rlRx b = .frame f ∧
          clientReceiveOffer s = clientFrame f { s with rlRx := [], clInp := rest }) ∨
       ((∀ b, x = .byte b → ∃ tag, deframe s.cfg.maxPdu s.rlRx b = .malformed tag) ∧
          clientReceiveOffer s = .next (closeClient { s with clInp := rest })))) := by
  unfold clientReceiveOffer
  cases hu : s.up with
  | false => exact .inl rfl
  | true =>
    simp only [if_true]
    cases hi : s.clInp with
    | nil => exact .inl rfl
    | cons x rest =>
      refine .inr ⟨trivial, x, rest, rfl, ?_⟩
      cases x with
      | eof => exact .inr (.inr ⟨fun b hb => (by cases hb), rfl⟩)
      | ioError => exact .inr (.inr ⟨fun b hb => (by cases hb), rfl⟩)
      | byte b =>
        simp only
        cases hd : deframe s.cfg.maxPdu s.rlRx b with
        | more rx => exact .inl ⟨b, rx, rfl, hd, rfl⟩
        | frame f => exact .inr (.inl ⟨b, f, rfl, hd, rfl⟩)
        | malformed tag => exact .inr (.inr ⟨fun c hc => (by cases hc; exact ⟨tag, hd⟩), rfl⟩)

theorem timeoutOffer_cases (k : Nat) (s : State) :
    timeoutOffer k s = s ∨
    ∃ e, s.pt[k]? = some e ∧ e.st = .pending ∧ s.cfg.timeout ≤ (s.now - e.tSub).toNat ∧
      timeoutOffer k s = resolveAt k (.err .timeout) s := by
  unfold timeoutOffer
  cases he : s.pt[k]? with
  | none => exact .inl rfl
  | some e =>
    simp only
    split_ifs with hx
    · rw [isExpired_iff] at hx
      exact .inr ⟨e, rfl, hx.1, hx.2, rfl⟩
    · exact .inl rfl

theorem tickOffer_cases (s : State) :
    tickOffer s = s ∨
    ((∀ e ∈ s.pt, e.st = .pending → (s.now - e.tSub).toNat < s.cfg.timeout) ∧
      tickOffer s = { s with now := s.now + 1 }) := by
  unfold tickOffer
  split_ifs with h
  · exact .inl rfl
  · refine .inr ⟨fun e he hp => ?_, rfl⟩
    by_contra hc
    exact h (List.any_eq_true.2 ⟨e, he, (isExpired_iff _ _ _).2 ⟨hp, by omega⟩⟩)

/-- What a call can do, at a caller the instance has (R163, R164, R167). -/
theorem callOffer_cases (j : Nat) (op : FacadeOp) (s t : State) (h : callOffer j op s = .next t) :
    hasCaller s.cfg j = true ∧
    (t = s ∨ (∃ r, t = emit (.ret j r) s) ∨
    ((callerAt s j).fsm = .idle ∧ s.up = true ∧ inDomain s.cfg op = true ∧
      t = setCaller j { callerAt s j with fsm := .issue, op := op } s)) := by
  unfold callOffer at h
  by_cases hc : hasCaller s.cfg j = true
  · simp only [hc, if_true] at h
    refine ⟨hc, ?_⟩
    split_ifs at h with h1 h2 h3 <;> cases h
    · exact .inr (.inl ⟨_, rfl⟩)
    · exact .inr (.inl ⟨_, rfl⟩)
    · exact .inr (.inr ⟨h1, by simpa using h2, by simpa using h3, rfl⟩)
    · exact .inl rfl
  · simp [hc] at h

/-- What an open can do, at a server agent the instance has (R112). -/
theorem openOffer_cases (i : Nat) (s t : State) (h : openOffer i s = .next t) :
    hasConn s.cfg i = true ∧
    (((connAt s i).fsm ≠ .closed ∧ t = s) ∨
    ((connAt s i).fsm = .closed ∧
      t = setConn i { connAt s i with fsm := .recv, rx := [], inp := [] } s)) := by
  unfold openOffer at h
  by_cases hc : hasConn s.cfg i = true
  · simp only [hc, if_true] at h
    refine ⟨hc, ?_⟩
    split_ifs at h with h1 <;> cases h
    · exact .inr ⟨h1, rfl⟩
    · exact .inl ⟨h1, rfl⟩
  · simp [hc] at h

/-- An issued entry is pending (R167). -/
theorem issuedEntry_st (j : Nat) (t : Word) (b : Built) (n : Ticks) : (issuedEntry j t b n).st = .pending := rfl

end Sys2Proof.Machine
end

