-- ==== Sys2Proof/Laws/PerInstr.lean ====
section
/-! SUPPORT. What holds of every instruction as syntax, one lemma per constructor. -/

namespace Sys2Proof.Laws

/-- A pair form has as many bytes as its size. -/
theorem pairForm_bytes_length (p : PairForm) : p.bytes.length = p.size := by
  cases p <;> simp [PairForm.bytes, PairForm.size, be16]
  omega

/-- A multi form has as many bytes as its size. -/
theorem multiForm_bytes_length (m : MultiForm) : m.bytes.length = m.size := by
  cases m <;> simp [MultiForm.bytes, MultiForm.size, be16]
  omega

/-- An exception form has as many bytes as its size. -/
theorem excForm_bytes_length (e : ExcForm) : e.bytes.length = e.size := by
  cases e <;> simp [ExcForm.bytes, ExcForm.size]
  omega

namespace EncodeLength

/-- The encoding has the length well-formedness bounds, 1 byte or more (R76). -/
def Statement (i : Instr) : Prop := (encodePdu i).length = i.pduLength ∧ 1 ≤ i.pduLength

theorem rc (p : PairForm) : Statement (.rc p) := by
  simp [Statement, encodePdu, Instr.pduLength, pairForm_bytes_length, Nat.add_comm]

theorem rdi (p : PairForm) : Statement (.rdi p) := by
  simp [Statement, encodePdu, Instr.pduLength, pairForm_bytes_length, Nat.add_comm]

theorem rhr (p : PairForm) : Statement (.rhr p) := by
  simp [Statement, encodePdu, Instr.pduLength, pairForm_bytes_length, Nat.add_comm]

theorem rir (p : PairForm) : Statement (.rir p) := by
  simp [Statement, encodePdu, Instr.pduLength, pairForm_bytes_length, Nat.add_comm]

theorem wsc (p : PairForm) : Statement (.wsc p) := by
  simp [Statement, encodePdu, Instr.pduLength, pairForm_bytes_length, Nat.add_comm]

theorem wsr (p : PairForm) : Statement (.wsr p) := by
  simp [Statement, encodePdu, Instr.pduLength, pairForm_bytes_length, Nat.add_comm]

theorem wmr (m : MultiForm) : Statement (.wmr m) := by
  simp [Statement, encodePdu, Instr.pduLength, multiForm_bytes_length, Nat.add_comm]

theorem exc (fc : BitVec 7) (e : ExcForm) : Statement (.exc fc e) := by
  simp [Statement, encodePdu, Instr.pduLength, excForm_bytes_length, Nat.add_comm]

end EncodeLength

end Sys2Proof.Laws
end

