-- ==== Sys2Proof/Tests/Slice0.lean ====
section
/-! SUPPORT. The model's own tests: the well-formedness checks, words written out from the encodings of 30_encoding.md,
the vectors of 95_test_vectors.md, each on one step; and for every statement with hypotheses a witness that meets them. -/

namespace Sys2Proof.Tests

open Sys2Proof Sys2Proof.Machine

/-! ## Well-formedness: for each check a term it refuses -/

/-- A cut pair form has fewer than four bytes (R123). -/
theorem test_wf_pair : (Instr.rc (.cut [0, 0, 0])).wellFormed 253 = true ∧
    (Instr.rc (.cut [0, 0, 0, 0])).wellFormed 253 = false := by decide

/-- A cut multi form has fewer than five bytes (R123). -/
theorem test_wf_multi : (Instr.wmr (.cut [0, 0, 0, 0])).wellFormed 253 = true ∧
    (Instr.wmr (.cut [0, 0, 0, 0, 0])).wellFormed 253 = false := by decide

/-- A PDU has at most MAX_PDU bytes (R76); here 8. -/
theorem test_wf_length : (Instr.rhr (.full 0 1 [0, 0, 0])).wellFormed 8 = true ∧
    (Instr.rhr (.full 0 1 [0, 0, 0, 0])).wellFormed 8 = false ∧
    (Instr.wmr (.full 0 1 2 [0, 1])).wellFormed 8 = true ∧
    (Instr.wmr (.full 0 1 2 [0, 1, 0])).wellFormed 8 = false ∧
    (Instr.exc 3 (.full 2 [0, 0, 0, 0, 0, 0])).wellFormed 8 = true ∧
    (Instr.exc 3 (.full 2 [0, 0, 0, 0, 0, 0, 0])).wellFormed 8 = false := by decide

/-! ## Decoding: words written out from R77 to R83 -/

/-- `RQ-READ` (R77): function code, address and quantity, each word high byte first. -/
theorem test_decode_reads :
    decodePdu [0b00000001#8, 0b00000000#8, 0b00000010#8, 0b00000000#8, 0b00001001#8] =
      .ok (.rc (.full 2 9 [])) ∧
    decodePdu [0b00000010#8, 0b00000000#8, 0b00000101#8, 0b00000000#8, 0b00000001#8] =
      .ok (.rdi (.full 5 1 [])) ∧
    decodePdu [0b00000011#8, 0b00000000#8, 0b01011111#8, 0b00000000#8, 0b00001010#8] =
      .ok (.rhr (.full 95 10 [])) ∧
    decodePdu [0b00000100#8, 0b00000001#8, 0b00000010#8, 0b00000011#8, 0b00000100#8] =
      .ok (.rir (.full 258 772 [])) := by decide

/-- `RQ-WSINGLE` (R78). -/
theorem test_decode_single_writes :
    decodePdu [0b00000101#8, 0b00000000#8, 0b00000011#8, 0b11111111#8, 0b00000000#8] =
      .ok (.wsc (.full 3 0xFF00#16 [])) ∧
    decodePdu [0b00000110#8, 0b00000000#8, 0b00000000#8, 0b00000100#8, 0b11010010#8] =
      .ok (.wsr (.full 0 1234 [])) := by decide

/-- `RQ-WMULTI` (R79): address, quantity, byte count, values. -/
theorem test_decode_multi_write :
    decodePdu [0b00010000#8, 0b00000000#8, 0b01100010#8, 0b00000000#8, 0b00000010#8, 0b00000100#8,
      0b00000000#8, 0b00000111#8, 0b00000000#8, 0b00001000#8] =
      .ok (.wmr (.full 98 2 4 [0, 7, 0, 8])) := by decide

/-- `RS-EXC` (R83): bit 7 set, the exception code. -/
theorem test_decode_exception : decodePdu [0b10000011#8, 0b00000010#8] = .ok (.exc 3 (.full 2 [])) ∧
    decodePdu [0b11111111#8] = .ok (.exc 127 .cut) := by decide

/-- Short and long payloads keep every byte (R123, R125). -/
theorem test_decode_lengths : decodePdu [0x03#8, 0x00#8, 0x00#8] = .ok (.rhr (.cut [0, 0])) ∧
    decodePdu [0x05#8, 0x00#8, 0x03#8, 0xFF#8, 0x00#8, 0x00#8] = .ok (.wsc (.full 3 0xFF00#16 [0])) ∧
    decodePdu [0x10#8, 0x00#8, 0x00#8, 0x00#8, 0x01#8] = .ok (.wmr (.cut [0, 0, 0, 1])) := by decide

/-- Every other first byte is refused by name (R85): 0x0F is one of them (C1). -/
theorem test_decode_refuses : decodePdu [0x0F#8, 0x00#8] = .error (.illegalFunction 0x0F#8) ∧
    decodePdu [0x00#8] = .error (.illegalFunction 0x00#8) ∧
    decodePdu [0x2B#8] = .error (.illegalFunction 0x2B#8) ∧
    decodePdu [0x11#8] = .error (.illegalFunction 0x11#8) ∧ decodePdu [] = .error .emptyPdu := by decide

/-- The table's first byte is bits 7..0; the bytes after it are zeros. -/
theorem test_table_word : decodeTableWord 8 0x03 = some (.rhr (.full 0 0 [])) ∧
    decodeTableWord 16 0x0283 = some (.exc 3 (.full 2 [])) ∧ decodeTableWord 8 0x07 = none := by decide

/-! ## The router, on the start state S0 of 95_test_vectors.md section 2.4 -/

/-- `CO[0..9] = 1,0,1,1,0,0,0,0,1,1`, `DI[5] = 1`, `HR[0] = 1234`, `IR[2] = 0xBEEF`. -/
def banksS0 : Memory :=
  { di := [(5, 1)], co := [(0, 1), (2, 1), (3, 1), (8, 1), (9, 1)], hr := [(0, 1234)], ir := [(2, 0xBEEF)] }

/-- The block with the banks of S0, and `S[0]` active. -/
def server : State := { State.reset with mem := banksS0 }

/-- `S[0]` in ROUTE with a request, and its step offered. -/
def request (pdu : List Byte) : State :=
  { server with conns := [(0, { Conn.reset with fsm := .route, req := pdu })], sched := [.route 0] }

/-- The state after a step; `d` where it does not go on. -/
def after (o : Host.Outcome State Fault Refusal) (d : State) : State :=
  match o with
  | .next t => t
  | _ => d

/-- The response `S[0]` has ready after routing a request. -/
def respond (pdu : List Byte) : List Byte := (connAt (after (step (request pdu)) server) 0).resp

/-- The banks after routing a request. -/
def banks (pdu : List Byte) : Memory := (after (step (request pdu)) server).mem

/-- X1, X3: packing, an unaligned start. -/
theorem test_rc_packs : respond [0x01#8, 0x00#8, 0x00#8, 0x00#8, 0x0A#8] = [0x01#8, 0x02#8, 0x0D#8, 0x03#8] ∧
    respond [0x01#8, 0x00#8, 0x02#8, 0x00#8, 0x09#8] = [0x01#8, 0x02#8, 0xC3#8, 0x00#8] := by decide

/-- X6, X7, X9, X12: the range comes before the quantity, and never wraps. -/
theorem test_rc_bounds : respond [0x01#8, 0x00#8, 0x64#8, 0x00#8, 0x00#8] = [0x81#8, 0x03#8] ∧
    respond [0x01#8, 0x00#8, 0x65#8, 0x00#8, 0x00#8] = [0x81#8, 0x02#8] ∧
    respond [0x01#8, 0xFF#8, 0xFF#8, 0xFF#8, 0xFF#8] = [0x81#8, 0x02#8] ∧
    respond [0x01#8, 0x00#8, 0x00#8, 0x00#8, 0x01#8, 0x00#8] = [0x81#8, 0x03#8] := by decide

/-- X14, X15. -/
theorem test_rdi_packs : respond [0x02#8, 0x00#8, 0x00#8, 0x00#8, 0x08#8] = [0x02#8, 0x01#8, 0x20#8] ∧
    respond [0x02#8, 0x00#8, 0x00#8, 0x00#8, 0x09#8] = [0x02#8, 0x02#8, 0x20#8, 0x00#8] := by decide

/-- X16. -/
theorem test_rdi_range : respond [0x02#8, 0x00#8, 0x5F#8, 0x00#8, 0x06#8] = [0x82#8, 0x02#8] := by decide

/-- X17, X20: high byte first, the last cell. -/
theorem test_rhr_reads : respond [0x03#8, 0x00#8, 0x00#8, 0x00#8, 0x01#8] = [0x03#8, 0x02#8, 0x04#8, 0xD2#8] ∧
    respond [0x03#8, 0x00#8, 0x63#8, 0x00#8, 0x01#8] = [0x03#8, 0x02#8, 0x00#8, 0x00#8] := by decide

/-- X22, X23, X25. -/
theorem test_rhr_bounds : respond [0x03#8, 0x00#8, 0x64#8, 0x00#8, 0x00#8] = [0x83#8, 0x03#8] ∧
    respond [0x03#8, 0x00#8, 0x00#8, 0x00#8, 0xC8#8] = [0x83#8, 0x02#8] ∧
    respond [0x03#8, 0x00#8, 0x00#8] = [0x83#8, 0x03#8] := by decide

/-- X27: ascending order. -/
theorem test_rir_reads : respond [0x04#8, 0x00#8, 0x01#8, 0x00#8, 0x03#8] =
    [0x04#8, 0x06#8, 0x00#8, 0x00#8, 0xBE#8, 0xEF#8, 0x00#8, 0x00#8] := by decide

/-- X28. -/
theorem test_rir_range : respond [0x04#8, 0x00#8, 0x62#8, 0x00#8, 0x03#8] = [0x84#8, 0x02#8] := by decide

/-- X30, X31: the echo, and the coil. -/
theorem test_wsc_writes : respond [0x05#8, 0x00#8, 0x03#8, 0x00#8, 0x00#8] = [0x05#8, 0x00#8, 0x03#8, 0x00#8, 0x00#8] ∧
    (banks [0x05#8, 0x00#8, 0x03#8, 0x00#8, 0x00#8]).co = [(0, 1), (2, 1), (8, 1), (9, 1)] ∧
    (banks [0x05#8, 0x00#8, 0x63#8, 0xFF#8, 0x00#8]).co = [(0, 1), (2, 1), (3, 1), (8, 1), (9, 1), (99, 1)] := by
  decide

/-- X32, X33, X35, X36: the address before the value; an illegal value writes nothing. -/
theorem test_wsc_refuses : respond [0x05#8, 0x00#8, 0x64#8, 0xFF#8, 0x00#8] = [0x85#8, 0x02#8] ∧
    respond [0x05#8, 0x00#8, 0x03#8, 0x00#8, 0xFF#8] = [0x85#8, 0x03#8] ∧
    banks [0x05#8, 0x00#8, 0x03#8, 0x00#8, 0xFF#8] = banksS0 ∧
    respond [0x05#8, 0x00#8, 0x64#8, 0x00#8, 0x01#8] = [0x85#8, 0x02#8] ∧
    respond [0x05#8, 0x00#8, 0x03#8, 0xFF#8, 0x00#8, 0x00#8] = [0x85#8, 0x03#8] := by decide

/-- X38: the largest value, the last cell. -/
theorem test_wsr_writes : respond [0x06#8, 0x00#8, 0x63#8, 0xFF#8, 0xFF#8] = [0x06#8, 0x00#8, 0x63#8, 0xFF#8, 0xFF#8] ∧
    (banks [0x06#8, 0x00#8, 0x63#8, 0xFF#8, 0xFF#8]).hr = [(0, 1234), (99, 0xFFFF)] := by decide

/-- X39, X40. -/
theorem test_wsr_refuses : respond [0x06#8, 0x00#8, 0x64#8, 0x00#8, 0x01#8] = [0x86#8, 0x02#8] ∧
    respond [0x06#8, 0x00#8, 0x00#8, 0x00#8] = [0x86#8, 0x03#8] := by decide

/-- X42: up to the last cell. -/
theorem test_wmr_writes :
    respond [0x10#8, 0x00#8, 0x62#8, 0x00#8, 0x02#8, 0x04#8, 0x00#8, 0x07#8, 0x00#8, 0x08#8] =
      [0x10#8, 0x00#8, 0x62#8, 0x00#8, 0x02#8] ∧
    (banks [0x10#8, 0x00#8, 0x62#8, 0x00#8, 0x02#8, 0x04#8, 0x00#8, 0x07#8, 0x00#8, 0x08#8]).hr =
      [(0, 1234), (98, 7), (99, 8)] := by decide

/-- X44 to X49. -/
theorem test_wmr_refuses : respond [0x10#8, 0x00#8, 0x00#8, 0x00#8, 0x00#8, 0x00#8] = [0x90#8, 0x03#8] ∧
    respond [0x10#8, 0x00#8, 0x00#8, 0x00#8, 0x01#8, 0x03#8, 0x00#8, 0x01#8, 0x00#8] = [0x90#8, 0x03#8] ∧
    respond [0x10#8, 0x00#8, 0x00#8, 0x00#8, 0x01#8, 0x02#8, 0x00#8, 0x01#8, 0x00#8] = [0x90#8, 0x03#8] ∧
    respond [0x10#8, 0x00#8, 0x00#8, 0x00#8, 0x02#8, 0x04#8, 0x00#8, 0x01#8, 0x00#8] = [0x90#8, 0x03#8] ∧
    respond [0x10#8, 0x00#8, 0x00#8, 0x00#8, 0x01#8] = [0x90#8, 0x03#8] ∧
    respond [0x10#8, 0x00#8, 0x00#8, 0x00#8, 0x7C#8, 0xF8#8] = [0x90#8, 0x02#8] := by decide

/-- X50 to X55: function codes that are none of the seven. -/
theorem test_unrecognised : respond [0x00#8] = [0x80#8, 0x01#8] ∧ respond [0x0F#8, 0x00#8] = [0x8F#8, 0x01#8] ∧
    respond [0x2B#8] = [0xAB#8, 0x01#8] ∧ respond [0x83#8, 0x02#8] = [0x83#8, 0x01#8] ∧
    respond [0xFF#8] = [0xFF#8, 0x01#8] := by decide

/-! ## Codec -/

/-- E1, E2, E5. -/
theorem test_encode_frame : encodeFrame 253 0x0001#16 0x01#8 [0x03#8, 0x00#8, 0x00#8, 0x00#8, 0x01#8] =
      some [0x00#8, 0x01#8, 0x00#8, 0x00#8, 0x00#8, 0x06#8, 0x01#8, 0x03#8, 0x00#8, 0x00#8, 0x00#8, 0x01#8] ∧
    encodeFrame 253 0xFFFF#16 0xFF#8 [0x83#8, 0x02#8] =
      some [0xFF#8, 0xFF#8, 0x00#8, 0x00#8, 0x00#8, 0x03#8, 0xFF#8, 0x83#8, 0x02#8] ∧
    encodeFrame 253 0 0 [] = none := by decide

/-- D2 to D7, D9. -/
theorem test_decode_frame :
    decodeFrame 253 [0x00#8, 0x01#8, 0x00#8, 0x00#8, 0x00#8, 0x01#8] = .malformed .short ∧
    decodeFrame 253 [0x00#8, 0x01#8, 0x00#8, 0x00#8, 0x00#8, 0x01#8, 0x01#8] = .malformed .empty ∧
    decodeFrame 253 [0x00#8, 0x01#8, 0x00#8, 0x01#8, 0x00#8, 0x09#8, 0x01#8, 0x03#8] = .malformed .proto ∧
    decodeFrame 253 [0x00#8, 0x01#8, 0x00#8, 0x00#8, 0x00#8, 0x03#8, 0x01#8, 0x03#8] = .malformed .length ∧
    decodeFrame 253 [0x00#8, 0x01#8, 0x00#8, 0x00#8, 0x00#8, 0x02#8, 0x01#8, 0x03#8, 0x00#8] = .malformed .length ∧
    decodeFrame 253 [0x00#8, 0x00#8, 0x00#8, 0x00#8, 0x00#8, 0x02#8, 0xFF#8, 0x2B#8] =
      .frame { tid := 0, uid := 0xFF#8, pdu := [0x2B#8] } := by decide

/-- F1, F2, F3: the header is judged at its sixth byte. -/
theorem test_deframe_header :
    deframe 253 [0x00#8, 0x05#8, 0x00#8, 0x01#8, 0x00#8] 0x06#8 = .malformed .proto ∧
    deframe 253 [0x00#8, 0x05#8, 0x00#8, 0x00#8, 0x00#8] 0x00#8 = .malformed .empty ∧
    deframe 253 [0x00#8, 0x05#8, 0x00#8, 0x00#8, 0x01#8] 0x00#8 = .malformed .tooLong ∧
    deframe 253 [0x00#8, 0x05#8, 0x00#8, 0x00#8, 0x00#8] 0xFE#8 =
      .more [0x00#8, 0x05#8, 0x00#8, 0x00#8, 0x00#8, 0xFE#8] := by decide

/-! ## Client -/

/-- A pending entry. -/
def entry (tid : Word) (fc : Byte) (addr qty val : Word) (tSub : Ticks) : Entry :=
  { st := .pending, tid := tid, fc := fc, addr := addr, qty := qty, val := val, tSub := tSub, owner := 0, slot := none }

/-- T2, T3, T6, T7: skip, wrap, skip across the wrap, a released id. -/
theorem test_alloc : allocTid [entry 5 3 0 1 0 0, entry 6 3 0 1 0 0, entry 7 3 0 1 0 0] 5 = 8 ∧
    allocTid [] 0xFFFF#16 = 0xFFFF#16 ∧
    allocTid [entry 0xFFFF#16 3 0 1 0 0, entry 0 3 0 1 0 0] 0xFFFF#16 = 1 ∧
    allocTid [entry 1 3 0 1 0 0, resolveEntry (.err .timeout) (entry 3 3 0 1 0 0)] 3 = 3 := by decide

/-- K1 to K8. -/
theorem test_parse_registers :
    checkResponse (entry 0 3 0 2 0 0) [0x03#8, 0x04#8, 0x00#8, 0x01#8, 0x00#8, 0x02#8] = .ok (.regs [1, 2]) ∧
    checkResponse (entry 0 3 0 2 0 0) [0x83#8, 0x0B#8] = .err (.exception 0x0B#8) ∧
    checkResponse (entry 0 3 0 2 0 0) [0x83#8, 0x02#8, 0x00#8] = .err .malformedResponse ∧
    checkResponse (entry 0 3 0 2 0 0) [0x03#8, 0x02#8, 0x00#8, 0x01#8] = .err .malformedResponse ∧
    checkResponse (entry 0 3 0 2 0 0) [0x04#8, 0x04#8, 0x00#8, 0x01#8, 0x00#8, 0x02#8] = .err .malformedResponse ∧
    checkResponse (entry 0 3 0 2 0 0) [0x90#8, 0x03#8] = .err .malformedResponse := by decide

/-- K9 to K11. -/
theorem test_parse_coils :
    checkResponse (entry 0 1 0 10 0 0) [0x01#8, 0x03#8, 0x0D#8, 0x03#8, 0xFF#8] =
      .ok (.bits [1, 0, 1, 1, 0, 0, 0, 0, 1, 1]) ∧
    checkResponse (entry 0 1 0 10 0 0) [0x01#8, 0x01#8, 0x0D#8] = .err .malformedResponse := by decide

/-- K12 to K16. -/
theorem test_parse_writes :
    checkResponse (entry 0 5 3 1 0xFF00#16 0) [0x05#8, 0x00#8, 0x03#8, 0xFF#8, 0x00#8] = .ok .unit ∧
    checkResponse (entry 0 5 3 1 0xFF00#16 0) [0x05#8, 0x00#8, 0x03#8, 0x00#8, 0x00#8] = .err .malformedResponse ∧
    checkResponse (entry 0 0x10#8 10 5 0 0) [0x10#8, 0x00#8, 0x0A#8, 0x00#8, 0x05#8] = .ok .unit ∧
    checkResponse (entry 0 0x10#8 10 5 0 0) [0x10#8, 0x00#8, 0x0A#8, 0x00#8, 0x04#8] = .err .malformedResponse := by
  decide

/-- M1, M2, M3: expired at TIMEOUT ticks, across the wrap as well. -/
theorem test_expired : isExpired 3 53 (entry 0 3 0 1 0 51) = false ∧ isExpired 3 54 (entry 0 3 0 1 0 51) = true ∧
    isExpired 3 1 (entry 0 3 0 1 0 0xFFFFFFFE#32) = true := by decide

/-- The connected client with one pending read of coils under id 7, and one result not collected yet. -/
def client : State :=
  { State.reset with
    up := true
    pt := [entry 7 1 0 10 0 50, { entry 6 5 0 1 0 49 with st := .resolved, owner := 1, slot := some (.ok .unit) }]
    callers := [(0, { Caller.reset with fsm := .wait, op := .readCoils 0 10 }),
      (1, { fsm := .wait, op := .writeCoil 0 false, k := 1 })]
    now := 52, tidc := 8, active := .client 7 }

/-- EXC at the client: the code reaches the waiting caller's entry unchanged (K3). -/
theorem test_exc_resolves : (after (exec (.exc 1 (.full 0x0B#8 [])) client) client).pt.map Entry.slot =
    [some (.err (.exception 0x0B#8)), some (.ok .unit)] := by decide

/-- K18: no entry has the frame's id, so it is logged. -/
theorem test_unexpected : (after (exec (.exc 1 (.full 2 [])) { client with active := .client 0x0042#16 }) client).outputs =
    [.unexpected 0x0042#16] := by decide

/-- M5: the close resolves what is pending and leaves a result not collected yet. -/
theorem test_close : (after (step { client with sched := [.disconnect] }) client).pt.map Entry.slot =
    [some (.err .connectionClosed), some (.ok .unit)] ∧
    (after (step { client with sched := [.disconnect] }) client).outputs = [.cclose] := by decide

/-- P2, step 1: the frame of `writeRegisters(10, [100, 200, 300, 400, 500])`. -/
theorem test_issue : (after (step { State.reset with
      up := true
      callers := [(0, { Caller.reset with fsm := .issue, op := .writeRegisters 10 [100, 200, 300, 400, 500] })]
      sched := [.callerStep 0 true] }) client).outputs =
    [.ctx [0x00#8, 0x00#8, 0x00#8, 0x00#8, 0x00#8, 0x11#8, 0x01#8, 0x10#8, 0x00#8, 0x0A#8, 0x00#8, 0x05#8, 0x0A#8,
      0x00#8, 0x64#8, 0x00#8, 0xC8#8, 0x01#8, 0x2C#8, 0x01#8, 0x90#8, 0x01#8, 0xF4#8] true] := by decide

set_option maxRecDepth 4000 in
/-- M6, M7: a call while closed, and one with too many values. -/
theorem test_call : (after (step { State.reset with sched := [.call 0 (.readCoils 0 1)] }) client).outputs =
      [.ret 0 (.err .connectionClosed)] ∧
    (after (step { State.reset with
      up := true, sched := [.call 0 (.writeRegisters 0 (List.replicate 124 0))] }) client).outputs =
      [.ret 0 (.err .invalidArgument)] := by decide

/-! ## From reset -/

/-- The first instruction after reset, placed by `withFetchWord` (log 22): a request runs at `S[0]`, a response at the
read loop. -/
theorem test_fetch_word :
    (connAt (after (step (State.reset.withFetchWord 8 0x10)) server) 0).resp = [0x90#8, 0x03#8] ∧
    (after (step (State.reset.withFetchWord 16 0x0283)) server).outputs = [.unexpected 0] := by decide

/-- An instance with an illegal configuration is refused (R139): 128 registers do not fit a byte count. -/
theorem test_illegal_configuration : Config.reference.legal = true ∧
    Config.legal { Config.reference with maxRdRegs := 128 } = false ∧
    Config.legal { Config.reference with maxPdu := 251 } = false := by decide

/-! ## Witnesses: for every statement with hypotheses, a state and operands that meet them all -/

open Sys2Proof.Claims

/-- The step goes on. -/
def goes (o : Host.Outcome State Fault Refusal) : Bool :=
  match o with
  | .next _ => true
  | _ => false

theorem next_of_goes {o : Host.Outcome State Fault Refusal} (h : goes o = true) : ∃ t, o = .next t := by
  cases o with
  | next t => exact ⟨t, rfl⟩
  | fault r => cases h
  | refused r => cases h

/-- What holds of every row of a table holds of the row at any index. -/
theorem rows {pt : List Entry} {p : Entry → Prop} (h : ∀ e ∈ pt, p e) (k : Nat) (e : Entry) (he : pt[k]? = some e) :
    p e := h e (List.mem_of_getElem? he)

theorem server_locksFree : locksFree server := by
  intro b
  rcases b with b | b <;> cases b <;> rfl

theorem witness_RouteReadCoils : server.active = .server 0 ∧ server.locks.co = .free ∧
    (PairForm.cut [0, 0, 0]).formOk = true ∧ (PairForm.full 0 1 []).formOk = true := by decide

theorem witness_RouteReadDiscreteInputs : server.active = .server 0 ∧ server.locks.di = .free ∧
    (PairForm.cut [0, 0, 0]).formOk = true ∧ (PairForm.full 0 1 []).formOk = true := by decide

theorem witness_RouteReadHoldingRegisters : server.active = .server 0 ∧ server.locks.hr = .free ∧
    (PairForm.cut [0, 0, 0]).formOk = true ∧ (PairForm.full 0 1 []).formOk = true := by decide

theorem witness_RouteReadInputRegisters : server.active = .server 0 ∧ server.locks.ir = .free ∧
    (PairForm.cut [0, 0, 0]).formOk = true ∧ (PairForm.full 0 1 []).formOk = true := by decide

theorem witness_RouteWriteSingleCoil : server.active = .server 0 ∧ server.locks.co = .free ∧
    (PairForm.cut [0, 0, 0]).formOk = true ∧ (PairForm.full 0 1 []).formOk = true := by decide

theorem witness_RouteWriteSingleRegister : server.active = .server 0 ∧ server.locks.hr = .free ∧
    (PairForm.cut [0, 0, 0]).formOk = true ∧ (PairForm.full 0 1 []).formOk = true := by decide

theorem witness_RouteWriteMultipleRegisters : server.active = .server 0 ∧ server.locks.hr = .free ∧
    (MultiForm.cut [0, 0, 0, 0]).formOk = true ∧ (MultiForm.full 98 2 4 [0, 7, 0, 8]).formOk = true := by decide

/-- The whole address space behind each bank, so that the quantity bounds are reached. -/
def wide : Config := { Config.reference with capDi := 65536, capCo := 65536, capHr := 65536, capIr := 65536 }

/-- The response under the wide banks. -/
def respondWide (pdu : List Byte) : List Byte := (connAt (after (step { request pdu with cfg := wide }) server) 0).resp

set_option maxRecDepth 10000 in
/-- The quantity clause of each read and of WMR at its bound: one more than R130 to R133 and R136 allow; and the
largest quantity at a bank's end. -/
theorem test_quantity_bounds : respondWide [0x01#8, 0x00#8, 0x00#8, 0x07#8, 0xD1#8] = [0x81#8, 0x03#8] ∧
    respondWide [0x02#8, 0x00#8, 0x00#8, 0x07#8, 0xD1#8] = [0x82#8, 0x03#8] ∧
    respondWide [0x03#8, 0x00#8, 0x00#8, 0x00#8, 0x7E#8] = [0x83#8, 0x03#8] ∧
    (respondWide [0x03#8, 0xFF#8, 0x83#8, 0x00#8, 0x7D#8]).length = 252 ∧
    respondWide [0x03#8, 0xFF#8, 0x84#8, 0x00#8, 0x7D#8] = [0x83#8, 0x02#8] ∧
    respondWide [0x04#8, 0x00#8, 0x00#8, 0x00#8, 0x7E#8] = [0x84#8, 0x03#8] ∧
    respondWide [0x10#8, 0x00#8, 0x00#8, 0x00#8, 0x7C#8, 0xF8#8] = [0x90#8, 0x03#8] := by decide

theorem witness_UnrecognisedFunctionCode : (request [0x83#8, 0x02#8]).cfg.legal = true ∧
    (request [0x83#8, 0x02#8]).sched = .route 0 :: [] ∧ (connAt (request [0x83#8, 0x02#8]) 0).fsm = .route ∧
    (connAt (request [0x83#8, 0x02#8]) 0).req = 0x83#8 :: [0x02#8] ∧ recognised 0x83#8 = false ∧
    recognised 0x07#8 = false ∧ recognised 0x11#8 = false ∧ recognised 0x0F#8 = false := by decide

theorem client_onlyPending : onlyPending client 7 0 (entry 7 1 0 10 0 50) := by
  refine ⟨rfl, rfl, rfl, fun k' e' h hp ht => ?_⟩
  rcases k' with _ | _ | k'
  · rfl
  · simp [client] at h
    subst h
    cases hp
  · simp [client] at h

theorem client_nonePending : nonePending client 0x0042#16 :=
  rows (by decide)

/-- Both clauses: the entry's own code with bit 7 set, and another one. -/
theorem witness_ExceptionResponseResolves : client.active = .client 7 ∧ onlyPending client 7 0 (entry 7 1 0 10 0 50) ∧
    0x80#8 ||| (1#7).setWidth 8 = (entry 7 1 0 10 0 50).fc ||| 0x80#8 ∧
    ¬ 0x80#8 ||| (2#7).setWidth 8 = (entry 7 1 0 10 0 50).fc ||| 0x80#8 :=
  ⟨rfl, client_onlyPending, by decide, by decide⟩

theorem witness_ResponseIsCorrelatedById : client.active = .client 7 ∧
    onlyPending client 7 0 (entry 7 1 0 10 0 50) ∧
    ({ client with active := .client 0x0042#16 } : State).active = .client 0x0042#16 ∧
    nonePending { client with active := .client 0x0042#16 } 0x0042#16 :=
  ⟨rfl, client_onlyPending, rfl, client_nonePending⟩

/-- HOST's seed access holds the lock of HR. -/
def lockedHr : State := { server with locks := { server.locks with hr := .held .host } }

/-- The first clause with the locks free and a bank that changes; the others with HR held: an accepted read and write,
one refused for its range, and the seed port. -/
theorem witness_BankAccessWaitsForLock :
    ((∃ t, step (request [0x06#8, 0x00#8, 0x63#8, 0x00#8, 0x07#8]) = .next t) ∧
      (∀ c now rest, (request [0x06#8, 0x00#8, 0x63#8, 0x00#8, 0x07#8]).sched ≠ .reset c now :: rest) ∧
      banks [0x06#8, 0x00#8, 0x63#8, 0x00#8, 0x07#8] ≠ banksS0) ∧
    (lockedHr.active = .server 0 ∧ bankOf (.rhr (.full 99 1 [])) = some (.regs .hr) ∧
      bankOf (.wsr (.full 100 1 [])) = some (.regs .hr) ∧ lockOf lockedHr.locks (.regs .hr) ≠ .free ∧
      (∃ t, exec (.rhr (.full 99 1 [])) lockedHr = .next t) ∧ ∃ t, exec (.wsr (.full 100 1 [])) lockedHr = .next t) ∧
    ({ lockedHr with sched := [.seedRead (.regs .hr) 99 1] } : State).sched = .seedRead (.regs .hr) 99 1 :: [] ∧
    (∃ t, step { lockedHr with sched := [.seedRead (.regs .hr) 99 1] } = .next t) ∧
    ∃ t, step { lockedHr with sched := [.seedWrite (.regs .hr) 99 [1]] } = .next t :=
  ⟨⟨next_of_goes (by decide), fun _ _ _ h => (by cases h), by decide⟩,
    ⟨rfl, rfl, rfl, by decide, next_of_goes (by decide), next_of_goes (by decide)⟩, rfl, next_of_goes (by decide),
    next_of_goes (by decide)⟩

theorem witness_ReadsLeaveEverythingElse : server.active = .server 0 ∧ sparseWf Conn.reset server.conns = true ∧
    (∃ t, exec (.rc (.full 0 10 [])) server = .next t) ∧ (∃ t, exec (.rdi (.full 5 1 [])) server = .next t) ∧
    (∃ t, exec (.rhr (.full 0 1 [])) server = .next t) ∧ (∃ t, exec (.rir (.full 2 1 [])) server = .next t) ∧
    ∃ t, exec (.exc 3 (.full 2 [])) server = .next t :=
  ⟨rfl, rfl, next_of_goes (by decide), next_of_goes (by decide), next_of_goes (by decide), next_of_goes (by decide),
    next_of_goes (by decide)⟩

theorem witness_WritesLeaveEverythingElse : server.active = .server 0 ∧ sparseWf Conn.reset server.conns = true ∧
    (∃ t, exec (.wsc (.full 99 0xFF00#16 [])) server = .next t) ∧
    (∃ t, exec (.wsr (.full 99 7 [])) server = .next t) ∧
    (∃ t, exec (.wmr (.full 98 2 4 [0, 7, 0, 8])) server = .next t) ∧
    ∃ t, exec (.wmr (.cut [])) server = .next t :=
  ⟨rfl, rfl, next_of_goes (by decide), next_of_goes (by decide), next_of_goes (by decide), next_of_goes (by decide)⟩

theorem witness_ResponsesLeaveEverythingElse : client.active = .client 7 ∧
    (∃ t, exec (.rc (.full 0x020D#16 0x0300#16 [])) client = .next t) ∧
    client.pt[1]? = some { entry 6 5 0 1 0 49 with st := .resolved, owner := 1, slot := some (.ok .unit) } ∧
    ¬ (EntryState.resolved = .pending ∧ (6#16) = 7) :=
  ⟨rfl, next_of_goes (by decide), rfl, by decide⟩

theorem witness_ReadAfterWrite : sparseWf 0 [(0, 1234#16), (5, 7#16)] = true := by decide

/-- Both clauses, at the first and the last index. -/
theorem witness_WireOrder : [0x04D2#16, 0xBEEF#16][1]? = some 0xBEEF#16 ∧
    regBytes [0x04D2#16, 0xBEEF#16] = [0x04#8, 0xD2#8, 0xBE#8, 0xEF#8] ∧
    1 < ([1, 0, 1, 1, 0, 0, 0, 0, 1] : List Bit).length ∧
    packBits [1, 0, 1, 1, 0, 0, 0, 0, 1] = [0x0D#8, 0x01#8] := by decide

theorem witness_BulkWriteThenRead : server.mem.wf = true ∧ server.active = .server 0 ∧ server.locks.hr = .free ∧
    (98#16).toNat + (2#16).toNat ≤ server.cfg.capHr ∧ 1 ≤ (2#16).toNat ∧ (2#16).toNat ≤ server.cfg.maxWrRegs ∧
    (2#16).toNat ≤ server.cfg.maxRdRegs ∧ (4#8).toNat = 2 * (2#16).toNat ∧
    ([0, 7, 0, 8] : List Byte).length = (4#8).toNat ∧
    ∃ t, exec (.wmr (.full 98 2 4 [0, 7, 0, 8])) server = .next t :=
  ⟨by decide, rfl, rfl, by decide, by decide, by decide, by decide, by decide, by decide, next_of_goes (by decide)⟩

/-- The four clauses, each inside and outside its domain at the bank's end and at the cell's width. -/
theorem witness_SeedPort : server.cfg.legal = true ∧ lockOf server.locks (.regs .hr) = .free ∧
    lockOf server.locks (.bits .di) = .free ∧
    goes (step { server with sched := [.seedRead (.regs .hr) 99 1] }) = true ∧
    goes (step { server with sched := [.seedRead (.regs .hr) 99 2] }) = false ∧
    goes (step { server with sched := [.seedWrite (.regs .hr) 98 [65535, 0]] }) = true ∧
    goes (step { server with sched := [.seedWrite (.regs .hr) 98 [65536]] }) = false ∧
    goes (step { server with sched := [.seedWrite (.regs .hr) 99 [1, 2]] }) = false ∧
    goes (step { server with sched := [.seedRead (.bits .di) 100 0] }) = true ∧
    goes (step { server with sched := [.seedRead (.bits .di) 101 0] }) = false ∧
    goes (step { server with sched := [.seedWrite (.bits .di) 99 [1]] }) = true ∧
    goes (step { server with sched := [.seedWrite (.bits .di) 99 [2]] }) = false ∧
    goes (step { server with sched := [.seedWrite (.bits .di) 100 [1]] }) = false := by decide

theorem witness_InputBanksAreReadOnly : (request [0x01#8]).sched = .route 0 :: [] ∧
    (∃ t, step (request [0x01#8]) = .next t) ∧ (∀ b a vs, Offer.route 0 ≠ .seedWrite b a vs) ∧
    (∀ c now, Offer.route 0 ≠ .reset c now) ∧
    (∃ t, step { server with sched := [.openConn 0] } = .next t) ∧ ∀ i, Offer.openConn 0 ≠ .route i :=
  ⟨rfl, next_of_goes (by decide), fun _ _ _ h => (by cases h), fun _ _ h => (by cases h), next_of_goes (by decide),
    fun _ h => (by cases h)⟩

/-- One of each form. -/
theorem witness_DecodeEncode : (Instr.rc (.full 2 9 [])).wellFormed 253 = true ∧
    (Instr.rc (.cut [1, 2, 3])).wellFormed 253 = true ∧ (Instr.wmr (.full 98 2 4 [0, 7, 0, 8])).wellFormed 253 = true ∧
    (Instr.wmr (.cut [])).wellFormed 253 = true ∧ (Instr.exc 127 (.full 255 [])).wellFormed 253 = true ∧
    (Instr.exc 0 .cut).wellFormed 253 = true := by decide

theorem witness_EncodeDecode : decodePdu [0x05#8, 0x00#8] = .ok (.wsc (.cut [0])) ∧
    decodePdu [0x80#8] = .ok (.exc 0 .cut) := by decide

/-- The frame D10, and a PDU of one byte. -/
def frameD10 : List Byte :=
  [0x00#8, 0x01#8, 0x00#8, 0x00#8, 0x00#8, 0x06#8, 0x01#8, 0x03#8, 0x00#8, 0x00#8, 0x00#8, 0x01#8]

theorem witness_FrameCodecInverse : 253 ≤ 65534 ∧
    encodeFrame 253 1 1 [0x03#8, 0x00#8, 0x00#8, 0x00#8, 0x01#8] = some frameD10 ∧
    decodeFrame 253 frameD10 = .frame { tid := 1, uid := 1, pdu := [0x03#8, 0x00#8, 0x00#8, 0x00#8, 0x01#8] } ∧
    encodeFrame 253 0 0 [0x2B#8] = some [0x00#8, 0x00#8, 0x00#8, 0x00#8, 0x00#8, 0x02#8, 0x00#8, 0x2B#8] := by decide

/-- The shortest PDU, and one of the largest size a configuration allows (here 8). -/
theorem witness_FrameLayout : 8 ≤ 65534 ∧ 1 ≤ ([0x2B#8] : List Byte).length ∧ ([0x2B#8] : List Byte).length ≤ 8 ∧
    (List.replicate 8 0x03#8).length ≤ 8 := by decide

/-- Each clause: the tag raised, and not raised, where the clauses meet (D1 to D8 in small). -/
theorem witness_DecodeVerdicts : ([0, 1, 0, 0, 0, 1] : List Byte).length < 7 ∧
    7 ≤ ([0, 1, 0, 1, 0, 9, 1, 3] : List Byte).length ∧ u16 [0, 1, 0, 1, 0, 9, 1, 3] 2 ≠ 0x0000#16 ∧
    u16 [0, 1, 0, 0, 0, 3, 1, 3] 2 = 0x0000#16 ∧ (u16 [0, 1, 0, 0, 0, 3, 1, 3] 4).toNat ≠ 8 - 6 ∧
    (u16 [0, 1, 0, 0, 0, 1, 1] 4).toNat = 7 - 6 ∧ decodeFrame 253 [0, 1, 0, 0, 0, 1, 1] = .malformed .empty ∧
    decodeFrame 8 [0, 1, 0, 0, 0, 9, 1, 3, 0, 0, 0, 0, 0, 0, 0] =
      .frame { tid := 1, uid := 1, pdu := [3, 0, 0, 0, 0, 0, 0, 0] } ∧
    decodeFrame 8 [0, 1, 0, 0, 0, 10, 1, 3, 0, 0, 0, 0, 0, 0, 0, 0] = .malformed .tooLong := by decide

/-- Both clauses; the encoder inside its domain and outside it. -/
theorem witness_CodecPort : server.cfg.legal = true ∧
    goes (step { server with sched := [.encode 1 1 [0x2B#8]] }) = true ∧
    goes (step { server with sched := [.encode 1 1 []] }) = false ∧
    (after (step { server with sched := [.decode [0, 1, 0, 0, 0, 2, 1, 3]] }) server).outputs =
      [.decoded (.frame { tid := 1, uid := 1, pdu := [3] })] ∧
    (after (step { server with sched := [.decode []] }) server).outputs = [.decoded .malformedFrameError] := by decide

theorem witness_RouteStepRunsDecoded : (request [0x03#8, 0x00#8]).cfg.legal = true ∧
    (request [0x03#8, 0x00#8]).sched = .route 0 :: [] ∧ (connAt (request [0x03#8, 0x00#8]) 0).fsm = .route ∧
    decodePdu (connAt (request [0x03#8, 0x00#8]) 0).req = .ok (.rhr (.cut [0])) := by decide

/-- The client with all but the last byte of a response received, and the last one in its stream. -/
def arriving (tid : Word) : State :=
  { client with
    active := .server 0
    rlRx := be16 tid ++ [0x00#8, 0x00#8, 0x00#8, 0x03#8, 0x01#8, 0x81#8]
    clInp := [.byte 0x02#8, .eof], sched := [.clientReceive] }

theorem witness_ReadLoopStepRunsDecoded : (arriving 7).cfg.legal = true ∧ (arriving 7).sched = .clientReceive :: [] ∧
    (arriving 7).up = true ∧ (arriving 7).clInp = .byte 0x02#8 :: [.eof] ∧
    deframe (arriving 7).cfg.maxPdu (arriving 7).rlRx 0x02#8 =
      .frame { tid := 7, uid := 1, pdu := [0x81#8, 0x02#8] } ∧
    decodePdu [0x81#8, 0x02#8] = .ok (.exc 1 (.full 2 [])) := by decide

/-- `S[0]` in RECV with the frame D10 in its stream, and one byte of the next frame. -/
def receiving (offers : List Offer) : State :=
  { server with
    conns := [(0, { Conn.reset with fsm := .recv, inp := frameD10.map StreamItem.byte ++ [.byte 0x00#8] })]
    sched := offers }

theorem witness_ReceiveExactlyOneFrame :
    (receiving (List.replicate 12 (.receive 0))).cfg.legal = true ∧
    sparseWf Conn.reset (receiving (List.replicate 12 (.receive 0))).conns = true ∧
    encodeFrame 253 1 1 [0x03#8, 0x00#8, 0x00#8, 0x00#8, 0x01#8] = some frameD10 ∧
    (connAt (receiving (List.replicate 12 (.receive 0))) 0).fsm = .recv ∧
    (connAt (receiving (List.replicate 12 (.receive 0))) 0).rx = [] ∧
    (connAt (receiving (List.replicate 12 (.receive 0))) 0).inp = frameD10.map StreamItem.byte ++ [.byte 0x00#8] ∧
    (receiving (List.replicate 12 (.receive 0))).sched = List.replicate frameD10.length (.receive 0) ++ [] := by
  decide

theorem witness_ServeOneRequest :
    let s := receiving (List.replicate 12 (.receive 0) ++ .route 0 :: .reply 0 true :: [])
    s.cfg.legal = true ∧ sparseWf Conn.reset s.conns = true ∧ locksFree s ∧
    encodeFrame 253 1 1 [0x03#8, 0x00#8, 0x00#8, 0x00#8, 0x01#8] = some frameD10 ∧
    (connAt s 0).fsm = .recv ∧ (connAt s 0).rx = [] ∧
    (connAt s 0).inp = frameD10.map StreamItem.byte ++ [.byte 0x00#8] ∧
    s.sched = List.replicate frameD10.length (.receive 0) ++ .route 0 :: .reply 0 true :: [] :=
  ⟨by decide, by decide, server_locksFree, by decide, by decide, by decide, by decide, by decide⟩

/-- An instance of two server agents and two callers. -/
def twoOfEach : Config := { Config.reference with nConn := some 2, nCaller := some 2 }

/-- Both counts at the ends of their range (R6). -/
theorem test_agent_counts : twoOfEach.legal = true ∧ Config.legal { Config.reference with nConn := some 1 } = true ∧
    Config.legal { Config.reference with nConn := some 0 } = false ∧
    Config.legal { Config.reference with nCaller := some 0 } = false := by decide

/-- A closed connection, and one that is open; the last connection of the instance, and the first it does not have. -/
theorem witness_OpenConnection : (receiving [.openConn 1]).cfg.legal = true ∧ twoOfEach.legal = true ∧
    (receiving [.openConn 1]).sched = .openConn 1 :: [] ∧ (connAt (receiving [.openConn 1]) 1).fsm = .closed ∧
    (connAt (receiving [.openConn 0]) 0).fsm ≠ .closed ∧ (∀ n, Config.reference.nConn = some n → 1 < n) ∧
    (∀ n, twoOfEach.nConn = some n → 1 < n) ∧ (∃ n, twoOfEach.nConn = some n ∧ n ≤ 2) :=
  ⟨by decide, by decide, by decide, by decide, by decide, fun _ h => (by cases h),
    fun _ h => (by cases h; decide), ⟨2, rfl, by decide⟩⟩

/-- `S[0]` in RECV with five bytes of a header received. -/
def heading (x : StreamItem) : State :=
  { server with
    conns := [(0, { Conn.reset with fsm := .recv, rx := [0, 5, 0, 0, 0], inp := [x, .byte 1] })]
    sched := [.receive 0] }

/-- An end of stream, and the sixth byte of a header whose length field is 1. -/
theorem witness_BadStreamClosesConnection : (heading .eof).cfg.legal = true ∧
    sparseWf Conn.reset (heading .eof).conns = true ∧ (heading .eof).sched = .receive 0 :: [] ∧
    (connAt (heading .eof) 0).fsm = .recv ∧ (connAt (heading .eof) 0).inp = .eof :: [.byte 1] ∧
    (∀ b, StreamItem.eof = .byte b → ∃ tag, deframe 253 [0, 5, 0, 0, 0] b = .malformed tag) ∧
    ∀ b, StreamItem.byte 1 = .byte b → ∃ tag, deframe 253 [0, 5, 0, 0, 0] b = .malformed tag :=
  ⟨by decide, by decide, rfl, rfl, rfl, fun _ h => (by cases h), fun _ h => ⟨.empty, by cases h; decide⟩⟩

/-- Each clause at its bound: length fields 1, 2, 254 and 255 under MAX_PDU = 253, and a protocol id. -/
theorem witness_HeaderCheckedAtSixBytes : ([0, 5, 0, 0, 0] : List Byte).length = 5 ∧
    deframe 253 [0, 5, 0, 0, 0] 1 = .malformed .empty ∧ deframe 253 [0, 5, 0, 0, 0] 2 = .more [0, 5, 0, 0, 0, 2] ∧
    deframe 253 [0, 5, 0, 0, 0] 254 = .more [0, 5, 0, 0, 0, 254] ∧
    deframe 253 [0, 5, 0, 0, 0] 255 = .malformed .tooLong ∧ deframe 253 [0, 5, 0, 1, 0] 1 = .malformed .proto := by
  decide

/-- `S[0]` with a response ready. -/
def replying (sent : Bool) : State :=
  { server with
    conns := [(0, { Conn.reset with fsm := .reply, tid := 2, uid := 1, resp := [0x83#8, 0x02#8] })]
    sched := [.reply 0 sent] }

theorem witness_ReplyStep : (replying true).cfg.legal = true ∧ (replying true).sched = .reply 0 true :: [] ∧
    (replying false).sched = .reply 0 false :: [] ∧ (connAt (replying true) 0).fsm = .reply ∧
    encodeFrame 253 2 1 [0x83#8, 0x02#8] =
      some [0x00#8, 0x02#8, 0x00#8, 0x00#8, 0x00#8, 0x03#8, 0x01#8, 0x83#8, 0x02#8] := by decide

/-- The shortest request. -/
theorem witness_RouterIsTotal : (request [0x2B#8]).cfg.legal = true ∧ locksFree (request [0x2B#8]) ∧
    sparseWf Conn.reset (request [0x2B#8]).conns = true ∧ (request [0x2B#8]).sched = .route 0 :: [] ∧
    (connAt (request [0x2B#8]) 0).fsm = .route ∧ 1 ≤ (connAt (request [0x2B#8]) 0).req.length ∧
    (connAt (request [0x2B#8]) 0).req.length ≤ (request [0x2B#8]).cfg.maxPdu ∧
    (request [0x2B#8]).cfg = Config.reference :=
  ⟨by decide, server_locksFree, by decide, rfl, rfl, by decide, by decide, rfl⟩

/-- X23 and X25. -/
theorem witness_ExceptionLeavesBanks : ∃ t, step (request [0x03#8, 0x00#8, 0x00#8]) = .next t ∧
    sparseWf Conn.reset (request [0x03#8, 0x00#8, 0x00#8]).conns = true ∧
    (request [0x03#8, 0x00#8, 0x00#8]).sched = .route 0 :: [] ∧
    (connAt (request [0x03#8, 0x00#8, 0x00#8]) 0).fsm = .route ∧ (connAt t 0).fsm = .reply ∧
    (connAt t 0).resp = 0x83#8 :: [0x03#8] ∧ (0x83#8).getLsbD 7 = true := by
  obtain ⟨t, ht⟩ := next_of_goes (o := step (request [0x03#8, 0x00#8, 0x00#8])) (by decide)
  have h1 : (connAt (after (step (request [0x03#8, 0x00#8, 0x00#8])) server) 0).fsm = .reply := by decide
  have h2 : (connAt (after (step (request [0x03#8, 0x00#8, 0x00#8])) server) 0).resp = [0x83#8, 0x03#8] := by decide
  rw [ht] at h1 h2
  exact ⟨t, ht, by decide, rfl, rfl, h1, h2, by decide⟩

theorem witness_ConnectionsAreIsolated : (heading .eof).sched = .receive 0 :: [] ∧ ofConn 0 (.receive 0) ∧
    (∃ t, step (heading .eof) = .next t) ∧ (1 : Nat) ≠ 0 :=
  ⟨rfl, rfl, next_of_goes (by decide), by decide⟩

theorem witness_ServerAndClientAreSeparate : (heading .eof).sched = .receive 0 :: [] ∧
    (∃ t, step (heading .eof) = .next t) ∧ ofClient (.receive 0) = false ∧
    (∀ c now, Offer.receive 0 ≠ .reset c now) ∧ (∀ c now, Offer.clientReceive ≠ .reset c now) ∧
    (arriving 7).sched = .clientReceive :: [] ∧ (∃ t, step (arriving 7) = .next t) ∧ ofClient .clientReceive = true :=
  ⟨rfl, next_of_goes (by decide), rfl, fun _ _ h => (by cases h), fun _ _ h => (by cases h), rfl,
    next_of_goes (by decide), rfl⟩

theorem witness_AllocatedIdIsFresh : ([entry 0xFFFF#16 3 0 1 0 0, entry 0 3 0 1 0 0] : List Entry).length ≤ 65535 := by
  decide

/-- `C[0]` in ISSUE, the connection open, every row free. -/
def issuing (op : FacadeOp) (offers : List Offer) : State :=
  { State.reset with up := true, callers := [(0, { Caller.reset with fsm := .issue, op := op })], sched := offers }

theorem issuing_canIssue (op : FacadeOp) (offers : List Offer) (h : inDomain Config.reference op = true) :
    canIssue 0 0 (issuing op offers) :=
  ⟨rfl, h, rfl, rfl, ⟨Entry.reset, rfl, rfl⟩, fun _ _ h => by omega⟩

theorem witness_IssueRegistersAndSends :
    (issuing (.writeCoil 3 true) [.callerStep 0 true]).cfg.legal = true ∧
    (issuing (.writeCoil 3 true) [.callerStep 0 true]).sched = .callerStep 0 true :: [] ∧
    canIssue 0 0 (issuing (.writeCoil 3 true) [.callerStep 0 true]) ∧
    (after (step (issuing (.writeCoil 3 true) [.callerStep 0 true])) server).pt[0]? =
      some { Entry.reset with st := .pending, fc := 0x05#8, addr := 3, qty := 1, val := 0xFF00#16 } :=
  ⟨by decide, rfl, issuing_canIssue _ _ (by decide), by decide⟩

/-- The six operations, at the ends of their domains (M8: no values at all). -/
theorem witness_FacadeExpansion : Config.reference.legal = true ∧
    inDomain Config.reference (.writeCoil 65535 true) = true ∧
    inDomain Config.reference (.readCoils 65535 65535) = true ∧
    inDomain Config.reference (.writeRegister 65535 65535) = true ∧
    inDomain Config.reference (.writeRegisters 0 []) = true ∧
    inDomain Config.reference (.readHoldingRegisters 0 0) = true ∧
    inDomain Config.reference (.readInputRegisters 0 0) = true ∧
    inDomain Config.reference (.readCoils 65536 1) = false := by decide

/-- The clauses; the last caller of an instance of two, and the first it does not have. -/
theorem witness_CallStep : (∀ n, Config.reference.nCaller = some n → 0 < n) ∧
    (∀ n, twoOfEach.nCaller = some n → 1 < n) ∧ (∃ n, twoOfEach.nCaller = some n ∧ n ≤ 2) ∧
    State.reset.cfg.legal = true ∧
    ({ State.reset with sched := [.call 0 (.readCoils 0 1)] } : State).sched = .call 0 (.readCoils 0 1) :: [] ∧
    (callerAt State.reset 0).fsm = .idle ∧ State.reset.up = false ∧
    ({ State.reset with up := true } : State).up = true ∧
    inDomain Config.reference (.readCoils 0 65536) = false ∧ inDomain Config.reference (.readCoils 0 65535) = true :=
  ⟨fun _ h => (by cases h), fun _ h => (by cases h; decide), ⟨2, rfl, by decide⟩, by decide, rfl, rfl, rfl, rfl,
    by decide, by decide⟩

/-- A caller in ISSUE with the table full, and one in WAIT on a pending row. -/
theorem witness_CallersHold :
    let full : State := { issuing (.readCoils 0 10) [.callerStep 0 true] with pt := [entry 7 1 0 10 0 50] }
    full.cfg.legal = true ∧ full.sched = .callerStep 0 true :: [] ∧ (callerAt full 0).fsm = .issue ∧
    full.up = true ∧ (∀ e ∈ full.pt, e.st ≠ .free) ∧ (callerAt client 0).fsm = .wait ∧
    client.pt[(callerAt client 0).k]? = some (entry 7 1 0 10 0 50) ∧ (entry 7 1 0 10 0 50).st ≠ .resolved := by decide

theorem witness_CollectFreesEntry :
    let s : State := { client with sched := [.callerStep 1 true] }
    s.cfg.legal = true ∧ s.sched = .callerStep 1 true :: [] ∧ (callerAt s 1).fsm = .wait ∧
    s.pt[(callerAt s 1).k]? =
      some { entry 6 5 0 1 0 49 with st := .resolved, owner := 1, slot := some (.ok .unit) } := by decide

/-- An id that is pending, and one that is not. -/
theorem witness_CompletedFrameIsCorrelated : (arriving 7).cfg.legal = true ∧
    (arriving 7).sched = .clientReceive :: [] ∧ (arriving 7).up = true ∧
    (arriving 7).clInp = .byte 0x02#8 :: [.eof] ∧
    deframe (arriving 7).cfg.maxPdu (arriving 7).rlRx 0x02#8 =
      .frame { tid := 7, uid := 1, pdu := [0x81#8, 0x02#8] } ∧
    onlyPending (arriving 7) 7 0 (entry 7 1 0 10 0 50) ∧
    deframe (arriving 0x0042#16).cfg.maxPdu (arriving 0x0042#16).rlRx 0x02#8 =
      .frame { tid := 0x0042#16, uid := 1, pdu := [0x81#8, 0x02#8] } ∧ nonePending (arriving 0x0042#16) 0x0042#16 :=
  ⟨by decide, rfl, rfl, rfl, by decide, client_onlyPending, by decide, client_nonePending⟩

/-- Both clauses at the bound: two bytes hold ten bits, one byte does not; and there is no byte count at all. -/
theorem witness_CoilResponseParse : (entry 7 1 0 10 0 50).fc = 0x01#8 ∧
    ([0x0D#8, 0x03#8] : List Byte).length = (2#8).toNat ∧ (entry 7 1 0 10 0 50).qty.toNat ≤ 8 * (2#8).toNat ∧
    ¬ (([0x0D#8] : List Byte).length = (1#8).toNat ∧ (entry 7 1 0 10 0 50).qty.toNat ≤ 8 * (1#8).toNat) ∧
    ∀ (bc : Byte) (data : List Byte), ([] : List Byte) = bc :: data →
      ¬ (data.length = bc.toNat ∧ (entry 7 1 0 10 0 50).qty.toNat ≤ 8 * bc.toNat) :=
  ⟨rfl, by decide, by decide, by decide, fun _ _ h => (by cases h)⟩

theorem witness_MismatchedResponse : 0x04#8 ≠ (entry 7 3 0 1 0 50).fc ∧ 0x04#8 ≠ (entry 7 3 0 1 0 50).fc ||| 0x80#8 ∧
    ([] : List Byte).length ≠ 1 ∧ ([2, 0] : List Byte).length ≠ 1 := by decide

/-- Each clause: open already, granted, refused. -/
theorem witness_ConnectStep : client.cfg.legal = true ∧
    ({ client with sched := [.connect true] } : State).sched = .connect true :: [] ∧ client.up = true ∧
    State.reset.up = false ∧
    (after (step { State.reset with sched := [.connect false] }) server).outputs = [.connected false] := by decide

/-- Disconnecting, an end of stream, a header with a protocol id, and a transmit error of an issue step while another
caller is in ISSUE. -/
theorem witness_CloseResolvesAllPending : client.cfg.legal = true ∧ sparseWf Caller.reset client.callers = true ∧
    ({ client with sched := [.disconnect] } : State).sched = .disconnect :: [] ∧ client.up = true ∧
    (∀ b, StreamItem.eof = .byte b → ∃ tag, deframe 253 [] b = .malformed tag) ∧
    (∀ b, StreamItem.byte 2 = .byte b → ∃ tag, deframe 253 [0, 5, 0, 1, 0] b = .malformed tag) ∧
    (issuing (.writeCoil 3 true) [.callerStep 0 false]).cfg.legal = true ∧
    sparseWf Caller.reset (issuing (.writeCoil 3 true) [.callerStep 0 false]).callers = true ∧
    (issuing (.writeCoil 3 true) [.callerStep 0 false]).sched = .callerStep 0 false :: [] ∧
    canIssue 0 0 (issuing (.writeCoil 3 true) [.callerStep 0 false]) ∧
    issueReturns [(1, { Caller.reset with fsm := .issue }), (2, Caller.reset)] =
      [.ret 1 (.err .connectionClosed)] :=
  ⟨by decide, by decide, rfl, rfl, fun _ h => (by cases h), fun _ h => ⟨.proto, by cases h; decide⟩, by decide,
    by decide, rfl, issuing_canIssue _ _ (by decide), rfl⟩

/-- R179: a transmit error resolves the entry just registered, and a caller in ISSUE returns. -/
theorem test_transmit_error :
    (after (step { issuing (.writeCoil 3 true) [.callerStep 0 false] with
      callers := [(0, { Caller.reset with fsm := .issue, op := .writeCoil 3 true }),
        (4, { Caller.reset with fsm := .issue })] }) server).outputs =
      [.ctx [0, 0, 0, 0, 0, 6, 1, 5, 0, 3, 0xFF#8, 0] false, .cclose, .ret 4 (.err .connectionClosed)] := by decide

/-- One tick before the bound, and at it (M1, M2). -/
theorem witness_TickAndTimeout : client.cfg.legal = true ∧
    (∀ e ∈ client.pt, e.st = .pending → (client.now - e.tSub).toNat < client.cfg.timeout) ∧
    (∃ e ∈ client.pt, e.st = .pending ∧ client.cfg.timeout ≤ (53#32 - e.tSub).toNat) ∧
    client.pt[0]? = some (entry 7 1 0 10 0 50) := by decide

theorem witness_EntriesMoveOnlySo : ∃ t, step { client with sched := [.disconnect] } = .next t ∧
    (∀ c now rest, [Offer.disconnect] ≠ .reset c now :: rest) ∧
    client.pt[0]? = some (entry 7 1 0 10 0 50) ∧ (t.pt[0]?).isSome = true := by
  obtain ⟨t, ht⟩ := next_of_goes (o := step { client with sched := [.disconnect] }) (by decide)
  have h : ((after (step { client with sched := [.disconnect] }) server).pt[0]?).isSome = true := by decide
  rw [ht] at h
  exact ⟨t, ht, fun _ _ _ h => (by cases h), rfl, h⟩

theorem witness_CounterAndConfiguration : (∃ t, step (arriving 7) = .next t) ∧
    (∀ c now rest, (arriving 7).sched ≠ .reset c now :: rest) ∧
    ∀ j sent rest, (arriving 7).sched ≠ .callerStep j sent :: rest :=
  ⟨next_of_goes (by decide), fun _ _ _ h => (by cases h), fun _ _ _ h => (by cases h)⟩

/-- A range that fits, one that does not, and no cells at all. -/
theorem witness_ClientAgreesWithServer : server.cfg.legal = true ∧ locksFree server ∧
    sparseWf Conn.reset server.conns = true ∧ server.active = .server 0 ∧
    inDomain server.cfg (.readHoldingRegisters 95 5) = true ∧ inDomain server.cfg (.readHoldingRegisters 95 10) = true ∧
    inDomain server.cfg (.writeRegisters 0 []) = true ∧ inDomain server.cfg (.writeCoil 99 true) = true :=
  ⟨by decide, server_locksFree, rfl, rfl, by decide, by decide, by decide, by decide⟩

/-- A reset with a legal configuration, and one with an illegal one. -/
theorem witness_ResetValues : server.cfg.legal = true ∧
    goes (step { server with sched := [.reset Config.reference 5] }) = true ∧
    goes (step { server with sched := [.reset { Config.reference with capCo := 0 } 5] }) = false ∧
    (after (step { server with sched := [.reset Config.reference 5] }) server).mem = Memory.zero := by decide

theorem witness_ResetMeetsInvariants : Config.reference.legal = true ∧ wide.legal = true := by decide

theorem client_memInv : MemInv client := by unfold MemInv; decide

theorem request_memInv : MemInv (request [0x06#8, 0x00#8, 0x63#8, 0x00#8, 0x07#8]) := by unfold MemInv; decide

theorem witness_StepKeepsMemory : MemInv (request [0x06#8, 0x00#8, 0x63#8, 0x00#8, 0x07#8]) ∧
    ∃ t, step (request [0x06#8, 0x00#8, 0x63#8, 0x00#8, 0x07#8]) = .next t :=
  ⟨request_memInv, next_of_goes (by decide)⟩

theorem heading_serverInv (x : StreamItem) : ServerInv (heading x) := by
  refine ⟨rfl, fun i => ?_, server_locksFree, fun i h => (by cases h)⟩
  by_cases hi : 0 = i
  · subst hi
    exact .inl (show (5 : Nat) < 6 by decide)
  · have : connAt (heading x) i = Conn.reset := by simp [connAt, heading, sparseGet, hi]
    rw [this]
    rfl

theorem witness_StepKeepsServer : ServerInv (heading .eof) ∧ ∃ t, step (heading .eof) = .next t :=
  ⟨heading_serverInv _, next_of_goes (by decide)⟩

/-- The client of `client`, with a table of two rows. -/
def client2 : State :=
  { client with
    cfg := { Config.reference with pendingDepth := 2 }
    conns := [(0, { Conn.reset with fsm := .recv })], sched := [.callerStep 1 true] }

theorem client2_rows (k : Nat) (e : Entry) (h : client2.pt[k]? = some e) :
    (k = 0 ∧ e = entry 7 1 0 10 0 50) ∨
    (k = 1 ∧ e = { entry 6 5 0 1 0 49 with st := .resolved, owner := 1, slot := some (.ok .unit) }) := by
  rcases k with _ | _ | k
  · exact .inl ⟨rfl, (Option.some.inj h).symm⟩
  · exact .inr ⟨rfl, (Option.some.inj h).symm⟩
  · cases h

theorem client2_callers (j : Nat) :
    (j = 0 ∧ callerAt client2 j = { Caller.reset with fsm := .wait, op := .readCoils 0 10 }) ∨
    (j = 1 ∧ callerAt client2 j = { fsm := .wait, op := .writeCoil 0 false, k := 1 }) ∨
    callerAt client2 j = Caller.reset := by
  rcases j with _ | _ | j
  · exact .inl ⟨rfl, rfl⟩
  · exact .inr (.inl ⟨rfl, rfl⟩)
  · exact .inr (.inr rfl)

theorem client2_clientInv : ClientInv client2 := by
  refine ⟨⟨rfl, fun k e h => ?_, fun k k' e e' h h' hp hp' _ => ?_⟩,
    ⟨rfl, .inl (by decide), fun h => by cases h⟩, rfl, fun j h => ?_, fun j h => ?_, fun k e h hf => ?_,
    fun j h => (by cases h)⟩
  · rcases client2_rows k e h with ⟨_, rfl⟩ | ⟨_, rfl⟩ <;> rfl
  · rcases client2_rows k e h with ⟨rfl, rfl⟩ | ⟨_, rfl⟩
    · rcases client2_rows k' e' h' with ⟨rfl, _⟩ | ⟨_, rfl⟩
      · rfl
      · cases hp'
    · cases hp
  · rcases client2_callers j with ⟨_, hj⟩ | ⟨_, hj⟩ | hj <;> rw [hj] at h <;> cases h
  · rcases client2_callers j with ⟨rfl, hj⟩ | ⟨rfl, hj⟩ | hj
    · exact ⟨entry 7 1 0 10 0 50, by rw [hj]; rfl, by decide, rfl⟩
    · exact ⟨{ entry 6 5 0 1 0 49 with st := .resolved, owner := 1, slot := some (.ok .unit) },
        by rw [hj]; rfl, by decide, rfl⟩
    · rw [hj] at h; cases h
  · rcases client2_rows k e h with ⟨rfl, rfl⟩ | ⟨rfl, rfl⟩ <;> exact ⟨rfl, rfl⟩

theorem witness_StepKeepsClient : ClientInv client2 ∧ ∃ t, step client2 = .next t :=
  ⟨client2_clientInv, next_of_goes (by decide)⟩

theorem client2_ageInv : AgeInv client2 := by
  intro k e h _
  rcases client2_rows k e h with ⟨_, rfl⟩ | ⟨_, rfl⟩ <;> decide

theorem witness_StepKeepsAge : AgeInv client2 ∧ ∃ t, step client2 = .next t :=
  ⟨client2_ageInv, next_of_goes (by decide)⟩

theorem client2_serverInv : ServerInv client2 := by
  refine ⟨rfl, fun i => ?_, ?_, fun i h => (by cases h)⟩
  · rcases i with _ | i
    · exact .inl (by decide)
    · exact (rfl : (connAt client2 (i + 1)).rx = [])
  · intro b
    rcases b with b | b <;> cases b <;> rfl

theorem witness_SafeStepsGoOn : Inv client2 ∧
    (∀ o rest, client2.sched = o :: rest → offerInDomain client2.cfg o = true) := by
  refine ⟨⟨by decide, by unfold MemInv; decide, client2_serverInv, client2_clientInv, client2_ageInv⟩,
    fun o rest h => ?_⟩
  cases h
  rfl

/-- The domain of HOST's calls, inside and outside. -/
theorem test_offer_domain : offerInDomain Config.reference (.seedRead (.bits .co) 99 1) = true ∧
    offerInDomain Config.reference (.seedRead (.bits .co) 99 2) = false ∧
    offerInDomain Config.reference (.encode 0 0 []) = false ∧
    offerInDomain twoOfEach (.openConn 1) = true ∧ offerInDomain twoOfEach (.openConn 2) = false ∧
    offerInDomain twoOfEach (.call 2 (.readCoils 0 1)) = false := by decide

end Sys2Proof.Tests
end

section
/-! SUPPORT. What the server invariant rests on: which steps leave the server agents alone, and what each step of a
server agent leaves in the position it enters (R28, R29, R108). -/

namespace Sys2Proof.Machine

open Sys2Proof.Claims

/-! Steps that leave the server agents, the locks and the configuration alone (R20). -/

theorem connectOffer_keeps_server (ok : Bool) (s : State) :
    (connectOffer ok s).cfg = s.cfg ∧ sameServer s (connectOffer ok s) := by
  unfold connectOffer
  split_ifs <;> exact ⟨rfl, rfl, rfl, rfl⟩

theorem disconnectOffer_keeps_server (s : State) :
    (disconnectOffer s).cfg = s.cfg ∧ sameServer s (disconnectOffer s) := by
  unfold disconnectOffer
  split_ifs <;> exact ⟨rfl, rfl, rfl, rfl⟩

theorem callOffer_keeps_server (j : Nat) (op : FacadeOp) (s t : State) (h : callOffer j op s = .next t) :
    t.cfg = s.cfg ∧ sameServer s t := by
  obtain ⟨-, rfl | ⟨r, rfl⟩ | ⟨-, -, -, rfl⟩⟩ := callOffer_cases j op s t h <;> exact ⟨rfl, rfl, rfl, rfl⟩

theorem callerOffer_keeps_server (j : Nat) (sent : Bool) (s t : State) (h : callerOffer j sent s = .next t) :
    t.cfg = s.cfg ∧ sameServer s t := by
  obtain rfl | ⟨-, -, rfl⟩ | ⟨-, -, -, k, frame, -, -, rfl⟩ | ⟨-, e, r, -, -, -, rfl⟩ :=
    callerOffer_cases j sent s t h
  · exact ⟨rfl, rfl, rfl, rfl⟩
  · exact ⟨rfl, rfl, rfl, rfl⟩
  · cases sent <;> exact ⟨rfl, rfl, rfl, rfl⟩
  · exact ⟨rfl, rfl, rfl, rfl⟩

theorem clientDeliverOffer_keeps_server (x : StreamItem) (s : State) :
    (clientDeliverOffer x s).cfg = s.cfg ∧ sameServer s (clientDeliverOffer x s) := by
  unfold clientDeliverOffer
  split_ifs <;> exact ⟨rfl, rfl, rfl, rfl⟩

theorem clientFrame_keeps_server (f : Frame) (s t : State) (h : clientFrame f s = .next t) :
    t.cfg = s.cfg ∧ sameServer s t := by
  obtain ⟨-, rfl⟩ | ⟨k, e, p, -, -, -, rfl⟩ := clientFrame_cases f s t h <;> exact ⟨rfl, rfl, rfl, rfl⟩

theorem clientReceiveOffer_keeps_server (s t : State) (h : clientReceiveOffer s = .next t) :
    t.cfg = s.cfg ∧ sameServer s t := by
  obtain h' | ⟨-, x, rest, -, ⟨b, rx, -, -, h'⟩ | ⟨b, f, -, -, h'⟩ | ⟨-, h'⟩⟩ := clientReceiveOffer_cases s <;>
    rw [h'] at h
  · cases h; exact ⟨rfl, rfl, rfl, rfl⟩
  · cases h; exact ⟨rfl, rfl, rfl, rfl⟩
  · exact clientFrame_keeps_server f { s with rlRx := [], clInp := rest } t h
  · cases h; exact ⟨rfl, rfl, rfl, rfl⟩

theorem tickOffer_keeps_server (s : State) :
    (tickOffer s).cfg = s.cfg ∧ sameServer s (tickOffer s) := by
  obtain h | ⟨-, h⟩ := tickOffer_cases s <;> rw [h] <;> exact ⟨rfl, rfl, rfl, rfl⟩

theorem timeoutOffer_keeps_server (k : Nat) (s : State) :
    (timeoutOffer k s).cfg = s.cfg ∧ sameServer s (timeoutOffer k s) := by
  obtain h | ⟨e, -, -, -, h⟩ := timeoutOffer_cases k s <;> rw [h] <;> exact ⟨rfl, rfl, rfl, rfl⟩

/-- A step of the client side leaves the whole server side as it is (R20, R87). -/
theorem takeOffer_client_keeps_server (o : Offer) (s t : State) (ho : ofClient o = true)
    (h : takeOffer o s = .next t) : t.cfg = s.cfg ∧ sameServer s t := by
  cases o with
  | connect ok => cases h; exact connectOffer_keeps_server ok s
  | disconnect => cases h; exact disconnectOffer_keeps_server s
  | call j op => exact callOffer_keeps_server j op s t h
  | callerStep j sent => exact callerOffer_keeps_server j sent s t h
  | clientDeliver x => cases h; exact clientDeliverOffer_keeps_server x s
  | clientReceive => exact clientReceiveOffer_keeps_server s t h
  | tick => cases h; exact tickOffer_keeps_server s
  | timeout k => cases h; exact timeoutOffer_keeps_server k s
  | _ => cases ho

/-- A seed read changes no bank, lock, server agent or configuration (R67). -/
theorem seedReadOffer_keeps_server (b : Bank) (addr n : Nat) (s t : State)
    (h : seedReadOffer b addr n s = .next t) : t.cfg = s.cfg ∧ sameServer s t := by
  obtain rfl | ⟨vals, rfl⟩ := seedReadOffer_cases b addr n s t h <;> exact ⟨rfl, rfl, rfl, rfl⟩

/-- A seed write changes no lock, server agent or configuration (R67). -/
theorem seedWriteOffer_keeps_agents (b : Bank) (addr : Nat) (vals : List Nat) (s t : State)
    (h : seedWriteOffer b addr vals s = .next t) : t.cfg = s.cfg ∧ t.locks = s.locks ∧ t.conns = s.conns := by
  obtain rfl | ⟨bb, vs, -, -, -, rfl⟩ | ⟨r, vs, -, -, -, rfl⟩ := seedWriteOffer_cases b addr vals s t h <;>
    exact ⟨rfl, rfl, rfl⟩

/-- An `Encode` of the codec port changes no bank, lock, server agent or configuration (R100). -/
theorem encodeOffer_keeps_server (tid : Word) (uid : Byte) (pdu : List Byte) (s t : State)
    (h : encodeOffer tid uid pdu s = .next t) : t.cfg = s.cfg ∧ sameServer s t := by
  unfold encodeOffer at h
  split at h <;> cases h
  exact ⟨rfl, rfl, rfl, rfl⟩

/-- A bank access of a ROUTE step changes no lock, server agent or configuration (R127). -/
theorem Accessed.keeps_agents {s s' : State} (h : Accessed s s') :
    s'.cfg = s.cfg ∧ s'.locks = s.locks ∧ s'.conns = s.conns := by
  cases h <;> exact ⟨rfl, rfl, rfl⟩

/-! The deframer's buffer (R107, R108). -/

/-- The length field does not change as more bytes arrive after the header. -/
theorem lengthField_append (rx ys : List Byte) (h : 6 ≤ rx.length) :
    lengthField (rx ++ ys) = lengthField rx := by
  rw [lengthField, lengthField, u16_append _ _ _ (by omega)]

/-- A buffer that waits for more bytes is a frame being received: the header of a longer one was checked when it was
complete (R108). -/
theorem deframe_more_rxOk (maxPdu : Nat) (rx rx' : List Byte) (x : Byte) (hrx : rxOk maxPdu rx)
    (h : deframe maxPdu rx x = .more rx') : rxOk maxPdu rx' := by
  obtain ⟨hd, hlen⟩ | ⟨hd, hlen, hc⟩ | ⟨hd, hlen, hshort⟩ | ⟨f, hd, -⟩ | ⟨tag, hd⟩ := deframe_cases maxPdu rx x <;>
    rw [hd] at h <;> cases h
  · exact .inl hlen
  · obtain ⟨hproto, hmin, hmax⟩ := headerCheck_none _ _ hc
    exact .inr ⟨hproto, hmin, hmax, by omega⟩
  · have hsix : 6 ≤ rx.length := by simp only [List.length_append, List.length_singleton] at hlen; omega
    obtain hbad | ⟨hproto, hmin, hmax, -⟩ := hrx
    · omega
    · rw [← lengthField_append rx [x] hsix] at hmin hmax
      exact .inr ⟨by rwa [u16_append _ _ _ (by omega)], hmin, hmax, hshort⟩

/-- The PDU of a completed frame has 1 to MAX_PDU bytes (R104, R108). -/
theorem deframe_frame_pdu_length (maxPdu : Nat) (rx : List Byte) (x : Byte) (f : Frame)
    (h : deframe maxPdu rx x = .frame f) : 1 ≤ f.pdu.length ∧ f.pdu.length ≤ maxPdu := by
  obtain ⟨hd, -⟩ | ⟨hd, -, -⟩ | ⟨hd, -, -⟩ | ⟨g, hd, hg⟩ | ⟨tag, hd⟩ := deframe_cases maxPdu rx x <;>
    rw [hd] at h <;> cases h
  exact decodeFrame_pdu_length _ _ _ hg

/-! The server invariant and the updates of the state. -/

/-- The server invariant reads only the configuration, the locks and the server agents. -/
theorem ServerInv.congr {s t : State} (hs : ServerInv s)
    (h : t.cfg = s.cfg ∧ t.locks = s.locks ∧ t.conns = s.conns) : ServerInv t := by
  obtain ⟨hcfg, hlocks, hconns⟩ := h
  simpa only [ServerInv, locksFree, connAt, hcfg, hlocks, hconns] using hs

/-- A step that leaves the server side as it is keeps the server invariant. -/
theorem ServerInv.of_sameServer {s t : State} (hs : ServerInv s) (h : t.cfg = s.cfg ∧ sameServer s t) :
    ServerInv t := by
  obtain ⟨hcfg, -, hlocks, hconns⟩ := h
  exact hs.congr ⟨hcfg, hlocks, hconns⟩

theorem ServerInv.connOk {s : State} (hs : ServerInv s) (i : Nat) : connOk s.cfg.maxPdu (connAt s i) := hs.2.1 i

/-- Only an agent the configuration provides leaves its reset position (R6, R28). -/
theorem ServerInv.hasConn_of_not_closed {s : State} (hs : ServerInv s) {i : Nat}
    (hf : (connAt s i).fsm ≠ .closed) : hasConn s.cfg i = true := by
  obtain ⟨-, -, -, hreset⟩ := hs
  by_contra hn
  rw [hreset i (by simpa using hn)] at hf
  exact hf rfl

/-- An agent the configuration provides may be written with what fits its position. -/
theorem ServerInv.setConn {s : State} (hs : ServerInv s) {i : Nat} {c : Conn} (hi : hasConn s.cfg i = true)
    (hc : Machine.connOk s.cfg.maxPdu c) : ServerInv (setConn i c s) := by
  obtain ⟨hwf, hok, hlocks, hreset⟩ := hs
  refine ⟨sparsePut_wf _ _ _ _ hwf, fun n => ?_, hlocks, fun n hn => ?_⟩ <;> rw [connAt_setConn _ _ _ _ hwf]
  · split_ifs
    · exact hc
    · exact hok n
  · have hne : n ≠ i := by rintro rfl; exact Bool.false_ne_true (hn.symm.trans hi)
    rw [if_neg hne]
    exact hreset n hn

/-- Closing an agent the configuration provides leaves it CLOSED with an empty buffer (R114, R117). -/
theorem ServerInv.closeConn {s : State} (hs : ServerInv s) {i : Nat} (hi : hasConn s.cfg i = true) :
    ServerInv (closeConn i s) :=
  (hs.setConn (c := { connAt s i with rx := [], fsm := .closed }) hi rfl).congr ⟨rfl, rfl, rfl⟩

/-- What fits a position does not depend on the items still in the stream (log 5). -/
theorem connOk_inp (maxPdu : Nat) (c : Conn) (inp : List StreamItem) (h : connOk maxPdu c) :
    connOk maxPdu { c with inp := inp } := h

/-! The steps of a server agent. -/

theorem openOffer_keeps_serverInv (i : Nat) (s t : State) (hs : ServerInv s) (h : openOffer i s = .next t) :
    ServerInv t := by
  obtain ⟨hi, ⟨-, rfl⟩ | ⟨-, rfl⟩⟩ := openOffer_cases i s t h
  · exact hs
  · exact hs.setConn hi (.inl (by simp))

theorem deliverOffer_keeps_serverInv (i : Nat) (x : StreamItem) (s : State) (hs : ServerInv s) :
    ServerInv (deliverOffer i x s) := by
  simp only [deliverOffer]
  split_ifs with hf
  · exact hs
  · exact hs.setConn (hs.hasConn_of_not_closed hf) (connOk_inp _ _ _ (hs.connOk i))

theorem receiveOffer_keeps_serverInv (i : Nat) (s : State) (hs : ServerInv s) :
    ServerInv (receiveOffer i s) := by
  obtain h | ⟨hf, x, rest, -, hcases⟩ := receiveOffer_cases i s
  · rwa [h]
  · have hi : hasConn s.cfg i = true := hs.hasConn_of_not_closed (by simp [hf])
    have hok := hs.connOk i
    obtain ⟨b, rx, -, hd, h⟩ | ⟨b, f, -, hd, h⟩ | ⟨-, h⟩ := hcases <;> rw [h]
    · have hrx : rxOk s.cfg.maxPdu (connAt s i).rx := by simpa only [connOk, hf] using hok
      refine hs.setConn hi ?_
      simpa only [connOk, hf] using deframe_more_rxOk _ _ _ _ hrx hd
    · exact hs.setConn hi ⟨rfl, deframe_frame_pdu_length _ _ _ _ hd⟩
    · exact (hs.setConn hi (connOk_inp _ _ rest hok)).closeConn hi

theorem routeOffer_keeps_serverInv (i : Nat) (s t : State) (hl : s.cfg.legal = true) (hs : ServerInv s)
    (h : routeOffer i s = .next t) : ServerInv t := by
  obtain ⟨-, rfl⟩ | ⟨hf, hr⟩ := routeOffer_cases i s t h
  · exact hs
  · have ha : ServerInv { s with active := .server i } := hs.congr ⟨rfl, rfl, rfl⟩
    cases hr with
    | waits => exact ha
    | answered pdu s' hacc hmin hmax =>
      obtain ⟨hcfg, hlocks, hconns⟩ := hacc.keeps_agents
      have hs' : ServerInv s' := ha.congr ⟨hcfg, hlocks, hconns⟩
      have hf' : (connAt s' i).fsm = .route := by rw [connAt_congr s' _ hconns]; exact hf
      have hi : hasConn s'.cfg i = true := hs'.hasConn_of_not_closed (by simp [hf'])
      have hok := hs'.connOk i
      simp only [connOk, hf'] at hok
      obtain ⟨hrx, -, -⟩ := hok
      exact hs'.setConn hi ⟨hrx, hmin, hcfg ▸ hmax hl⟩

theorem replyOffer_keeps_serverInv (i : Nat) (sent : Bool) (s t : State) (hs : ServerInv s)
    (h : replyOffer i sent s = .next t) : ServerInv t := by
  obtain ⟨-, rfl⟩ | ⟨hf, frame, -, hcases⟩ := replyOffer_cases i sent s t h
  · exact hs
  · have hi : hasConn s.cfg i = true := hs.hasConn_of_not_closed (by simp [hf])
    obtain ⟨-, rfl⟩ | ⟨-, rfl⟩ := hcases
    · have hrecv := hs.setConn (c := { connAt s i with fsm := .recv, rx := [] }) hi (.inl (by simp))
      exact hrecv.congr ⟨rfl, rfl, rfl⟩
    · have hemit : ServerInv (emit (.tx i frame false) s) := hs.congr ⟨rfl, rfl, rfl⟩
      exact hemit.closeConn hi

/-! Reset. -/

/-- After reset every server agent is CLOSED and every lock free (R25, R28, R41). -/
theorem boot_serverInv (c : Config) (now : Ticks) : ServerInv (State.boot c now) := by
  refine ⟨rfl, fun i => rfl, fun b => ?_, fun i _ => rfl⟩
  rcases b with (_ | _) | (_ | _) <;> rfl

theorem resetOffer_keeps_serverInv (c : Config) (now : Ticks) (s t : State)
    (h : resetOffer c now s = .next t) : ServerInv t := by
  unfold resetOffer at h
  split_ifs at h
  cases h
  exact (boot_serverInv c now).congr ⟨rfl, rfl, rfl⟩

/-! Every step. -/

/-- Whatever offer is taken, the server invariant is kept. -/
theorem takeOffer_keeps_serverInv (o : Offer) (s t : State) (hl : s.cfg.legal = true) (hs : ServerInv s)
    (h : takeOffer o s = .next t) : ServerInv t := by
  by_cases ho : ofClient o = true
  · exact hs.of_sameServer (takeOffer_client_keeps_server o s t ho h)
  · cases o with
    | openConn i => exact openOffer_keeps_serverInv i s t hs h
    | deliver i x => cases h; exact deliverOffer_keeps_serverInv i x s hs
    | receive i => cases h; exact receiveOffer_keeps_serverInv i s hs
    | route i => exact routeOffer_keeps_serverInv i s t hl hs h
    | reply i sent => exact replyOffer_keeps_serverInv i sent s t hs h
    | seedRead b addr n => exact hs.of_sameServer (seedReadOffer_keeps_server b addr n s t h)
    | seedWrite b addr vals => exact hs.congr (seedWriteOffer_keeps_agents b addr vals s t h)
    | encode tid uid pdu => exact hs.of_sameServer (encodeOffer_keeps_server tid uid pdu s t h)
    | decode bytes => cases h; exact hs.congr ⟨rfl, rfl, rfl⟩
    | reset c now => exact resetOffer_keeps_serverInv c now s t h
    | _ => exact absurd rfl ho

/-- Settles O57: the offer taken decides which agent may change, and each agent's step leaves what fits the position
it enters. -/
theorem stepKeepsServer : Obligations.StepKeepsServer := by
  intro s t hs h
  obtain ⟨hl, ⟨-, rfl⟩ | ⟨o, rest, -, ho⟩⟩ := step_cases s t h
  · exact hs
  · have hs' : ServerInv { s with sched := rest } := hs.congr ⟨rfl, rfl, rfl⟩
    exact takeOffer_keeps_serverInv o { s with sched := rest } t hl hs' ho

end Sys2Proof.Machine
end

section
/-! SUPPORT. What a step that is no client step and no reset can do, said once: it leaves the configuration, the locks
and the whole client as they are, and changes at most one bank, inside its bounds and with its lock free. -/

namespace Sys2Proof.Machine

open Sys2Proof.Claims

/-- What may become of the banks `m` in one step but a reset, under the capacities of `c` and the locks `l`: they stay,
or a run of cells of one bank whose lock is free is written, inside the bank (R25, R124, R127). -/
inductive BankChange (c : Config) (l : Locks) (m : Memory) : Memory → Prop where
  | same : BankChange c l m m
  | bits (b : BitBank) (a : Nat) (vs : List Bit) (ha : a + vs.length ≤ capBits c b)
      (hl : lockOf l (.bits b) = .free) : BankChange c l m (m.setBits b (writeCells (m.bits b) a vs))
  | regs (r : RegBank) (a : Nat) (vs : List Word) (ha : a + vs.length ≤ capRegs c r)
      (hl : lockOf l (.regs r) = .free) : BankChange c l m (m.setRegs r (writeCells (m.regs r) a vs))

/-- What a step that is neither a client step nor a reset keeps, and what it may do to the banks (R20, R25, R127). -/
structure OutsideClient (s t : State) : Prop where
  cfg : t.cfg = s.cfg
  locks : t.locks = s.locks
  client : sameClient s t
  banks : BankChange s.cfg s.locks s.mem t.mem

theorem sameClient_refl (s : State) : sameClient s s := ⟨rfl, rfl, rfl, rfl, rfl, rfl, rfl, rfl⟩

/-- A step that writes no bank, lock, configuration or client field, whatever else it writes. -/
theorem OutsideClient.of_same {s t : State} (hcfg : t.cfg = s.cfg) (hlocks : t.locks = s.locks)
    (hclient : sameClient s t) (hmem : t.mem = s.mem) : OutsideClient s t :=
  ⟨hcfg, hlocks, hclient, hmem ▸ .same⟩

/-- Writing a server agent is such a step. -/
theorem outsideClient_setConn (i : Nat) (c : Conn) (s : State) : OutsideClient s (setConn i c s) :=
  .of_same rfl rfl (sameClient_refl s) rfl

/-- Emitting an output is such a step. -/
theorem outsideClient_emit (o : Output) (s : State) : OutsideClient s (emit o s) :=
  .of_same rfl rfl (sameClient_refl s) rfl

theorem OutsideClient.refl (s : State) : OutsideClient s s := .of_same rfl rfl (sameClient_refl s) rfl

theorem openOffer_outsideClient (i : Nat) (s t : State) (h : openOffer i s = .next t) : OutsideClient s t := by
  obtain ⟨-, ⟨-, rfl⟩ | ⟨-, rfl⟩⟩ := openOffer_cases i s t h
  · exact .refl _
  · exact outsideClient_setConn _ _ _

theorem deliverOffer_outsideClient (i : Nat) (x : StreamItem) (s : State) :
    OutsideClient s (deliverOffer i x s) := by
  simp only [deliverOffer]
  split_ifs
  · exact .refl s
  · exact outsideClient_setConn _ _ _

theorem receiveOffer_outsideClient (i : Nat) (s : State) : OutsideClient s (receiveOffer i s) := by
  obtain h | ⟨-, x, rest, -, ⟨b, rx, -, -, h⟩ | ⟨b, f, -, -, h⟩ | ⟨-, h⟩⟩ := receiveOffer_cases i s <;> rw [h]
  · exact .refl s
  · exact outsideClient_setConn _ _ _
  · exact outsideClient_setConn _ _ _
  · exact .of_same rfl rfl (sameClient_refl s) rfl

/-- The bank access of a ROUTE step is one a step may make (R127, R134 to R137). -/
theorem Accessed.outsideClient {s s' : State} (h : Accessed s s') : OutsideClient s s' := by
  cases h with
  | none => exact .refl s
  | coil a v ha hl => exact ⟨rfl, rfl, sameClient_refl s, .bits .co a [v] ha hl⟩
  | regs a vs ha hl => exact ⟨rfl, rfl, sameClient_refl s, .regs .hr a vs ha hl⟩

theorem routeOffer_outsideClient (i : Nat) (s t : State) (h : routeOffer i s = .next t) : OutsideClient s t := by
  obtain ⟨-, rfl⟩ | ⟨-, hr⟩ := routeOffer_cases i s t h
  · exact .refl _
  · cases hr with
    | waits => exact .of_same rfl rfl (sameClient_refl s) rfl
    | answered pdu s' ha _ _ =>
      obtain ⟨hcfg, hlocks, hclient, hbanks⟩ := ha.outsideClient
      exact ⟨hcfg, hlocks, hclient, hbanks⟩

theorem replyOffer_outsideClient (i : Nat) (sent : Bool) (s t : State) (h : replyOffer i sent s = .next t) :
    OutsideClient s t := by
  obtain ⟨-, rfl⟩ | ⟨-, frame, -, ⟨-, rfl⟩ | ⟨-, rfl⟩⟩ := replyOffer_cases i sent s t h
  · exact .refl _
  · exact .of_same rfl rfl (sameClient_refl s) rfl
  · exact .of_same rfl rfl (sameClient_refl s) rfl

theorem seedReadOffer_outsideClient (b : Bank) (addr n : Nat) (s t : State)
    (h : seedReadOffer b addr n s = .next t) : OutsideClient s t := by
  obtain rfl | ⟨vals, rfl⟩ := seedReadOffer_cases b addr n s t h
  · exact .refl _
  · exact outsideClient_emit _ _

theorem seedWriteOffer_outsideClient (b : Bank) (addr : Nat) (vals : List Nat) (s t : State)
    (h : seedWriteOffer b addr vals s = .next t) : OutsideClient s t := by
  obtain rfl | ⟨bb, vs, -, ha, hl, rfl⟩ | ⟨r, vs, -, ha, hl, rfl⟩ := seedWriteOffer_cases b addr vals s t h
  · exact .refl _
  · exact ⟨rfl, rfl, sameClient_refl s, .bits bb addr vs ha hl⟩
  · exact ⟨rfl, rfl, sameClient_refl s, .regs r addr vs ha hl⟩

theorem encodeOffer_outsideClient (tid : Word) (uid : Byte) (pdu : List Byte) (s t : State)
    (h : encodeOffer tid uid pdu s = .next t) : OutsideClient s t := by
  unfold encodeOffer at h
  split at h <;> cases h
  exact outsideClient_emit _ _

/-- Every step that is neither a client step nor a reset. -/
theorem takeOffer_outsideClient (o : Offer) (s t : State) (hc : ofClient o = false)
    (hr : ∀ c now, o ≠ .reset c now) (h : takeOffer o s = .next t) : OutsideClient s t := by
  cases o with
  | openConn i => exact openOffer_outsideClient i s t h
  | deliver i x => cases h; exact deliverOffer_outsideClient i x s
  | receive i => cases h; exact receiveOffer_outsideClient i s
  | route i => exact routeOffer_outsideClient i s t h
  | reply i sent => exact replyOffer_outsideClient i sent s t h
  | seedRead b addr n => exact seedReadOffer_outsideClient b addr n s t h
  | seedWrite b addr vals => exact seedWriteOffer_outsideClient b addr vals s t h
  | encode tid uid pdu => exact encodeOffer_outsideClient tid uid pdu s t h
  | decode bytes => cases h; exact outsideClient_emit _ _
  | reset c now => exact absurd rfl (hr c now)
  | _ => cases hc

/-- What any step but a reset does to the configuration, the locks and the banks (R25, R26, R127). -/
theorem takeOffer_banks (o : Offer) (s t : State) (hr : ∀ c now, o ≠ .reset c now)
    (h : takeOffer o s = .next t) :
    t.cfg = s.cfg ∧ t.locks = s.locks ∧ BankChange s.cfg s.locks s.mem t.mem := by
  cases hc : ofClient o with
  | false =>
    obtain ⟨hcfg, hlocks, -, hbanks⟩ := takeOffer_outsideClient o s t hc hr h
    exact ⟨hcfg, hlocks, hbanks⟩
  | true =>
    obtain ⟨hcfg, hmem, hlocks, -⟩ := takeOffer_client_keeps_server o s t hc h
    exact ⟨hcfg, hlocks, hmem ▸ .same⟩

/-- A step but a reset finds no offer, or takes one that is no reset. -/
theorem step_cases_of_not_reset (s t : State) (h : step s = .next t)
    (hr : ∀ c now rest, s.sched ≠ .reset c now :: rest) :
    t = s ∨ ∃ o rest, s.sched = o :: rest ∧ (∀ c now, o ≠ .reset c now) ∧
      takeOffer o { s with sched := rest } = .next t := by
  obtain ⟨-, ⟨-, ht⟩ | ⟨o, rest, hs, ho⟩⟩ := step_cases s t h
  · exact .inl ht
  · exact .inr ⟨o, rest, hs, fun c now hc => hr c now rest (hc ▸ hs), ho⟩

end Sys2Proof.Machine
end

section
/-! SUPPORT. What the invariant of the banks rests on (R22, R65). -/

namespace Sys2Proof.Machine

/-- A write inside a bit bank keeps every bank inside its capacity. -/
theorem memory_setBits_within (c : Config) (m : Memory) (b : BitBank) (a : Nat) (vs : List Bit)
    (ha : a + vs.length ≤ capBits c b) (h : m.within c = true) :
    (m.setBits b (writeCells (m.bits b) a vs)).within c = true := by
  rw [memory_within_iff] at h ⊢
  obtain ⟨hbits, hregs⟩ := h
  refine ⟨fun b' => ?_, fun r => by simpa using hregs r⟩
  rw [bits_setBits]
  split_ifs with hb
  · subst hb
    exact writeCells_bound _ _ _ _ ha (hbits b')
  · exact hbits b'

/-- A write inside a register bank keeps every bank inside its capacity. -/
theorem memory_setRegs_within (c : Config) (m : Memory) (r : RegBank) (a : Nat) (vs : List Word)
    (ha : a + vs.length ≤ capRegs c r) (h : m.within c = true) :
    (m.setRegs r (writeCells (m.regs r) a vs)).within c = true := by
  rw [memory_within_iff] at h ⊢
  obtain ⟨hbits, hregs⟩ := h
  refine ⟨fun b => by simpa using hbits b, fun r' => ?_⟩
  rw [regs_setRegs]
  split_ifs with hr
  · subst hr
    exact writeCells_bound _ _ _ _ ha (hregs r')
  · exact hregs r'

/-- What a step but a reset may do to the banks keeps their invariant. -/
theorem MemInv.bankChange {s t : State} (hs : MemInv s) (hcfg : t.cfg = s.cfg)
    (h : BankChange s.cfg s.locks s.mem t.mem) : MemInv t := by
  obtain ⟨hwf, hwithin⟩ := hs
  unfold MemInv
  rw [hcfg]
  generalize t.mem = m' at h ⊢
  cases h with
  | same => exact ⟨hwf, hwithin⟩
  | bits b a vs ha _ => exact ⟨memory_setBits_wf _ _ _ _ hwf, memory_setBits_within _ _ _ _ _ ha hwithin⟩
  | regs r a vs ha _ => exact ⟨memory_setRegs_wf _ _ _ _ hwf, memory_setRegs_within _ _ _ _ _ ha hwithin⟩

/-- A reset step leaves the reset state of a legal configuration, but for what outlives it (R26, R230; log 28). -/
theorem resetOffer_cases (c : Config) (now : Ticks) (s t : State) (h : resetOffer c now s = .next t) :
    c.legal = true ∧ t = { State.boot c now with sched := s.sched, outputs := s.outputs } := by
  unfold resetOffer at h
  split_ifs at h with hl
  cases h
  exact ⟨hl, rfl⟩

/-- After a reset with a legal configuration the banks hold its initial image (R41). -/
theorem boot_memInv (c : Config) (now : Ticks) (hl : c.legal = true) : MemInv (State.boot c now) :=
  legal_image c hl

/-- Settles O56: a step but a reset writes at most one run of cells inside one bank, and a reset leaves an initial image
that is in canonical form and inside the banks. -/
theorem stepKeepsMemory : Obligations.StepKeepsMemory := by
  intro s t hs h
  obtain ⟨-, ⟨-, rfl⟩ | ⟨o, rest, -, ho⟩⟩ := step_cases s t h
  · exact hs
  · by_cases hr : ∃ c now, o = .reset c now
    · obtain ⟨c, now, rfl⟩ := hr
      obtain ⟨hl, rfl⟩ := resetOffer_cases c now _ t ho
      exact boot_memInv c now hl
    · push Not at hr
      obtain ⟨hcfg, -, hbanks⟩ := takeOffer_banks o _ t hr ho
      exact hs.bankChange hcfg hbanks

end Sys2Proof.Machine
end

section
/-! SUPPORT. What the client invariant rests on: the id sequencer, the rows of the table, the callers and the link
(R31, R32, R34, R165, R178, R181). -/

namespace Sys2Proof.Machine

open Sys2Proof.Claims

/-! The id sequencer (R165). -/

/-- The loop of `AllocTid` skips ids that are pending, and stops at one that is not or after `fuel` skips. -/
theorem skipPending_spec (pt : List Entry) (fuel : Nat) (t : Word) :
    ∃ n ≤ fuel, skipPending pt fuel t = t + BitVec.ofNat 16 n ∧
      (∀ m < n, tidPending pt (t + BitVec.ofNat 16 m) = true) ∧
      (n = fuel ∨ tidPending pt (t + BitVec.ofNat 16 n) = false) := by
  induction fuel generalizing t with
  | zero => exact ⟨0, le_rfl, by simp [skipPending], fun m hm => absurd hm m.not_lt_zero, .inl rfl⟩
  | succ fuel ih =>
    cases hp : tidPending pt t with
    | false =>
      exact ⟨0, Nat.zero_le _, by simp [skipPending, hp], fun m hm => absurd hm m.not_lt_zero, by simp [hp]⟩
    | true =>
      obtain ⟨n, hn, heq, hskip, hstop⟩ := ih (t + 1)
      have hshift (m : Nat) : t + 1 + BitVec.ofNat 16 m = t + BitVec.ofNat 16 (m + 1) := by
        rw [BitVec.add_assoc, BitVec.add_comm 1, BitVec.ofNat_add]; rfl
      rw [hshift] at heq hstop
      refine ⟨n + 1, by omega, by rw [skipPending, if_pos hp, heq], fun m hm => ?_,
        hstop.imp_left (congrArg (· + 1))⟩
      cases m with
      | zero => simpa using hp
      | succ m => rw [← hshift]; exact hskip m (by omega)

/-- A table has too few rows for more ids in a run to be pending than it has rows (R31, R165). -/
theorem pending_run_le (pt : List Entry) (t : Word) (n : Nat) (hn : n ≤ 65536)
    (h : ∀ m < n, tidPending pt (t + BitVec.ofNat 16 m) = true) : n ≤ pt.length := by
  have hsub : (List.range n).map (fun m => t + BitVec.ofNat 16 m) ⊆ pt.map Entry.tid := by
    intro x hx
    obtain ⟨m, hm, rfl⟩ := List.mem_map.1 hx
    obtain ⟨e, he, -, htid⟩ := (tidPending_iff _ _).1 (h m (List.mem_range.1 hm))
    exact List.mem_map.2 ⟨e, he, htid⟩
  have hnodup : ((List.range n).map (fun m => t + BitVec.ofNat 16 m)).Nodup := by
    refine (List.nodup_map_iff_inj_on List.nodup_range).2 fun a ha b hb hab => ?_
    rw [List.mem_range] at ha hb
    have := congrArg BitVec.toNat ((BitVec.add_right_inj t).1 hab)
    simpa only [BitVec.toNat_ofNat, Nat.mod_eq_of_lt (show a < 2 ^ 16 by omega),
      Nat.mod_eq_of_lt (show b < 2 ^ 16 by omega)] using this
  simpa using (hnodup.subperm hsub).length_le

/-- The id an issue step takes is pending in no row (R165). -/
theorem allocTid_fresh (pt : List Entry) (tidc : Word) (hlen : pt.length ≤ 65535) :
    tidPending pt (allocTid pt tidc) = false := by
  obtain ⟨n, hn, heq, hskip, hstop⟩ := skipPending_spec pt pt.length tidc
  rw [allocTid, heq]
  obtain rfl | hfree := hstop
  · by_contra hp
    rw [Bool.not_eq_false] at hp
    have := pending_run_le pt tidc (pt.length + 1) (by omega) fun m hm => by
      obtain hlt | rfl := Nat.lt_succ_iff_lt_or_eq.1 hm
      · exact hskip m hlt
      · exact hp
    omega
  · exact hfree

/-! Which rows a caller owns (R31, R34). -/

/-- Row `k` is in use and `C[j]` is its owner. -/
def ownsRow (pt : List Entry) (j k : Nat) : Prop := ∃ e, pt[k]? = some e ∧ e.st ≠ .free ∧ e.owner = j

/-- The callers' invariant in terms of the rows they own: each waits on exactly the row it owns. -/
theorem callerInv_iff (s : State) :
    CallerInv s ↔ sparseWf Caller.reset s.callers = true ∧
      (∀ j, (callerAt s j).fsm = .issue → inDomain s.cfg (callerAt s j).op = true) ∧
      (∀ j k, ownsRow s.pt j k ↔ (callerAt s j).fsm = .wait ∧ (callerAt s j).k = k) ∧
      (∀ j, hasCaller s.cfg j = false → callerAt s j = Caller.reset) := by
  constructor
  · rintro ⟨hwf, hop, hwaits, howner, habsent⟩
    refine ⟨hwf, hop, fun j k => ⟨?_, ?_⟩, habsent⟩
    · rintro ⟨e, he, hst, rfl⟩
      exact howner k e he hst
    · rintro ⟨hf, rfl⟩
      exact hwaits j hf
  · rintro ⟨hwf, hop, howns, habsent⟩
    exact ⟨hwf, hop, fun j hf => (howns j _).2 ⟨hf, rfl⟩, fun k e he hst => (howns _ k).1 ⟨e, he, hst, rfl⟩, habsent⟩

/-- Who owns what after one row is written. -/
theorem ownsRow_set (pt : List Entry) (k : Nat) (e e' : Entry) (hk : pt[k]? = some e) (j m : Nat) :
    ownsRow (pt.set k e') j m ↔ if k = m then e'.st ≠ .free ∧ e'.owner = j else ownsRow pt j m := by
  obtain ⟨hlt, -⟩ := List.getElem?_eq_some_iff.1 hk
  unfold ownsRow
  rw [List.getElem?_set]
  split_ifs with hm
  · simp
  · rfl

/-- A row in use that stays in use keeps its owner. -/
theorem ownsRow_set_of_same_owner (pt : List Entry) (k : Nat) (e e' : Entry) (hk : pt[k]? = some e)
    (hst : e.st ≠ .free) (hst' : e'.st ≠ .free) (ho : e'.owner = e.owner) (j m : Nat) :
    ownsRow (pt.set k e') j m ↔ ownsRow pt j m := by
  rw [ownsRow_set _ _ _ _ hk]
  split_ifs with hm
  · subst hm; simp [ownsRow, hk, hst, hst', ho]
  · rfl

@[simp] theorem resolveEntry_st (r : CallResult) (e : Entry) : (resolveEntry r e).st = .resolved := rfl
@[simp] theorem resolveEntry_tid (r : CallResult) (e : Entry) : (resolveEntry r e).tid = e.tid := rfl
@[simp] theorem resolveEntry_owner (r : CallResult) (e : Entry) : (resolveEntry r e).owner = e.owner := rfl
@[simp] theorem resolveEntry_slot (r : CallResult) (e : Entry) : (resolveEntry r e).slot = some r := rfl

/-- No row is pending after a close (R178). -/
@[simp] theorem closeEntry_not_pending (e : Entry) : (closeEntry e).st ≠ .pending := by
  unfold closeEntry; split_ifs with h <;> simp [h]

@[simp] theorem closeEntry_free_iff (e : Entry) : (closeEntry e).st = .free ↔ e.st = .free := by
  unfold closeEntry; split_ifs with h <;> simp [h]

@[simp] theorem closeEntry_owner (e : Entry) : (closeEntry e).owner = e.owner := by
  unfold closeEntry; split_ifs <;> rfl

theorem closeEntry_slotOk (e : Entry) (h : slotOk e) : slotOk (closeEntry e) := by
  unfold closeEntry; split_ifs
  · rfl
  · exact h

/-- The close takes no row from its owner (R178). -/
theorem ownsRow_close (pt : List Entry) (j k : Nat) : ownsRow (pt.map closeEntry) j k ↔ ownsRow pt j k := by
  simp [ownsRow]

/-- What the close does to a caller's position: one that issues is IDLE, the others stay (R167, R178). -/
@[simp] theorem abandonIssue_not_issue (c : Caller) : (abandonIssue c).fsm ≠ .issue := by
  unfold abandonIssue; split_ifs with h <;> simp [h]

@[simp] theorem abandonIssue_wait_iff (c : Caller) : (abandonIssue c).fsm = .wait ↔ c.fsm = .wait := by
  unfold abandonIssue; split_ifs with h <;> simp [h]

@[simp] theorem abandonIssue_k (c : Caller) : (abandonIssue c).k = c.k := by
  unfold abandonIssue; split_ifs <;> rfl

/-! The client invariant and the updates of the state. -/

/-- The client invariant reads only the configuration, the table, the connection bit, the callers, the client's buffer
and the arbiter. -/
theorem ClientInv.congr {s t : State} (hs : ClientInv s)
    (h : t.cfg = s.cfg ∧ t.pt = s.pt ∧ t.up = s.up ∧ t.callers = s.callers ∧ t.rlRx = s.rlRx ∧ t.tx = s.tx) :
    ClientInv t := by
  obtain ⟨hcfg, hpt, hup, hcallers, hrx, htx⟩ := h
  simpa only [ClientInv, TableInv, LinkInv, CallerInv, callerAt, hcfg, hpt, hup, hcallers, hrx, htx] using hs

/-- While the connection is open the link needs only a free arbiter and a buffer that is a frame being received. -/
theorem linkInv_of_up {s : State} (htx : s.tx = .free) (hrx : rxOk s.cfg.maxPdu s.rlRx) (hup : s.up = true) :
    LinkInv s := ⟨htx, hrx, fun hdown => absurd (hup.symm.trans hdown) (by decide)⟩

theorem rxOk_nil (maxPdu : Nat) : rxOk maxPdu [] := .inl (by simp)

/-- A pending row means that the connection is open (R178). -/
theorem LinkInv.up_of_pending {s : State} (hs : LinkInv s) {k : Nat} {e : Entry} (he : s.pt[k]? = some e)
    (hp : e.st = .pending) : s.up = true := by
  obtain ⟨-, -, hdown⟩ := hs
  by_contra hn
  obtain ⟨-, hrows, -⟩ := hdown (by simpa using hn)
  exact hrows k e he hp

/-- One row may be written with one whose slot fits its state and which, if pending, has an id no row is pending
under (R32, R165). -/
theorem TableInv.set {s t : State} (hs : TableInv s) (hcfg : t.cfg = s.cfg) {k : Nat} {e : Entry}
    (hpt : t.pt = s.pt.set k e) (hslot : slotOk e)
    (hfresh : e.st = .pending → tidPending s.pt e.tid = false) : TableInv t := by
  obtain ⟨hlen, hslots, huniq⟩ := hs
  have hrow (m : Nat) (x : Entry) (hx : t.pt[m]? = some x) : (m = k ∧ x = e) ∨ s.pt[m]? = some x := by
    rw [hpt, List.getElem?_set] at hx
    split_ifs at hx with hm
    · exact .inl ⟨hm.symm, (Option.some.inj hx).symm⟩
    · exact .inr hx
  have hnew (m : Nat) (x : Entry) (hx : s.pt[m]? = some x) (hp : x.st = .pending) (he : e.st = .pending) :
      x.tid ≠ e.tid := fun htid => by
    have := (tidPending_iff s.pt e.tid).2 ⟨x, List.mem_of_getElem? hx, hp, htid⟩
    rw [hfresh he] at this
    cases this
  refine ⟨by rw [hpt, List.length_set, hlen, hcfg], fun m x hx => ?_, fun m m' x x' hx hx' hp hp' htid => ?_⟩
  · obtain ⟨-, rfl⟩ | hx := hrow m x hx
    · exact hslot
    · exact hslots m x hx
  · obtain ⟨rfl, rfl⟩ | hx := hrow m x hx <;> obtain ⟨rfl, rfl⟩ | hx' := hrow m' x' hx'
    · rfl
    · exact absurd htid.symm (hnew m' x' hx' hp' hp)
    · exact absurd htid (hnew m x hx hp hp')
    · exact huniq m m' x x' hx hx' hp hp' htid

/-- A terminal event of a pending row keeps the client consistent (R171, R176, R180). -/
theorem ClientInv.resolveAt {s : State} (hs : ClientInv s) {k : Nat} {e : Entry} (he : s.pt[k]? = some e)
    (hp : e.st = .pending) (r : CallResult) : ClientInv (resolveAt k r s) := by
  obtain ⟨htable, hlink, hcallers⟩ := hs
  have hpt : (Machine.resolveAt k r s).pt = s.pt.set k (resolveEntry r e) := modify_eq_set _ _ _ _ he
  have ⟨htx, hrx, _⟩ := hlink
  rw [callerInv_iff] at hcallers
  obtain ⟨hwf, hop, howns, habsent⟩ := hcallers
  refine ⟨htable.set rfl hpt rfl (by simp), linkInv_of_up htx hrx (hlink.up_of_pending he hp),
    (callerInv_iff _).2 ⟨hwf, hop, fun j m => ?_, habsent⟩⟩
  rw [hpt, ownsRow_set_of_same_owner _ _ e (resolveEntry r e) he (by simp [hp]) (by simp) rfl]
  exact howns j m

/-- The close procedure keeps the client consistent (R178). -/
theorem ClientInv.closeClient {s : State} (hs : ClientInv s) : ClientInv (closeClient s) := by
  obtain ⟨⟨hlen, hslots, -⟩, ⟨htx, -, -⟩, hcallers⟩ := hs
  obtain ⟨hwf, -, howns, habsent⟩ := (callerInv_iff s).1 hcallers
  have hcaller (j : Nat) := callerAt_closeClient s j hwf
  refine ⟨⟨by simpa using hlen, fun k e he => ?_, fun k k' e e' he _ hp => ?_⟩,
    ⟨htx, rxOk_nil _, fun _ => ⟨rfl, fun k e he => ?_, fun j => by simp [hcaller]⟩⟩,
    (callerInv_iff _).2 ⟨sparseMap_wf _ _ _ hwf, fun j hf => ?_, fun j k => ?_, fun j hj => ?_⟩⟩
  · simp only [closeClient_pt, List.getElem?_map, Option.map_eq_some_iff] at he
    obtain ⟨e, he, rfl⟩ := he
    exact closeEntry_slotOk e (hslots k e he)
  · simp only [closeClient_pt, List.getElem?_map, Option.map_eq_some_iff] at he
    obtain ⟨e, -, rfl⟩ := he
    exact absurd hp (closeEntry_not_pending e)
  · simp only [closeClient_pt, List.getElem?_map, Option.map_eq_some_iff] at he
    obtain ⟨e, -, rfl⟩ := he
    exact closeEntry_not_pending e
  · simp [hcaller] at hf
  · simpa [hcaller, ownsRow_close] using howns j k
  · rw [hcaller, habsent j hj]; rfl

/-- One caller the configuration provides may be written when it, and every other, then owns exactly the row it waits on. -/
theorem CallerInv.setCaller {s t : State} (hs : CallerInv s) (hcfg : t.cfg = s.cfg) {j : Nat} {c : Caller}
    (ht : t.callers = sparsePut Caller.reset s.callers j c) (hj : hasCaller s.cfg j = true)
    (hop : c.fsm = .issue → inDomain s.cfg c.op = true)
    (hown : ∀ k, ownsRow t.pt j k ↔ c.fsm = .wait ∧ c.k = k)
    (hother : ∀ n k, n ≠ j → (ownsRow t.pt n k ↔ ownsRow s.pt n k)) : CallerInv t := by
  obtain ⟨hwf, hops, howns, habsent⟩ := (callerInv_iff s).1 hs
  have hcaller (n : Nat) : callerAt t n = if n = j then c else callerAt s n := by
    rw [callerAt, ht, sparseGet_put _ _ _ _ _ hwf]; rfl
  refine (callerInv_iff t).2 ⟨ht ▸ sparsePut_wf _ _ _ _ hwf, fun n => ?_, fun n k => ?_, fun n hn => ?_⟩ <;>
    rw [hcaller]
  · rw [hcfg]
    split_ifs
    · exact hop
    · exact hops n
  · split_ifs with hnj
    · exact hnj ▸ hown k
    · rw [hother n k hnj]
      exact howns n k
  · rw [hcfg] at hn
    rw [if_neg (by rintro rfl; exact Bool.false_ne_true (hn.symm.trans hj))]
    exact habsent n hn

/-- Only a caller the configuration provides leaves its reset position (R6, R34). -/
theorem CallerInv.hasCaller_of_not_idle {s : State} (hs : CallerInv s) {j : Nat}
    (hf : (callerAt s j).fsm ≠ .idle) : hasCaller s.cfg j = true := by
  obtain ⟨-, -, -, -, habsent⟩ := hs
  by_contra hn
  rw [habsent j (by simpa using hn)] at hf
  exact hf rfl

/-- A caller that does not wait owns no row (R31, R34). -/
theorem CallerInv.not_ownsRow {s : State} (hs : CallerInv s) {j : Nat} (hf : (callerAt s j).fsm ≠ .wait) (k : Nat) :
    ¬ ownsRow s.pt j k := by
  obtain ⟨-, -, howns, -⟩ := (callerInv_iff s).1 hs
  exact fun h => hf ((howns j k).1 h).1

/-! The steps of the client. -/

theorem connectOffer_keeps_clientInv (ok : Bool) (s : State) (hs : ClientInv s) : ClientInv (connectOffer ok s) := by
  unfold connectOffer
  split_ifs
  · exact hs.congr ⟨rfl, rfl, rfl, rfl, rfl, rfl⟩
  · obtain ⟨htable, ⟨htx, -, -⟩, hcallers⟩ := hs
    exact ⟨htable, linkInv_of_up htx (rxOk_nil _) rfl, hcallers⟩
  · exact hs.congr ⟨rfl, rfl, rfl, rfl, rfl, rfl⟩

theorem disconnectOffer_keeps_clientInv (s : State) (hs : ClientInv s) : ClientInv (disconnectOffer s) := by
  unfold disconnectOffer
  split_ifs
  · exact hs.closeClient
  · exact hs

theorem callOffer_keeps_clientInv (j : Nat) (op : FacadeOp) (s t : State) (hs : ClientInv s)
    (h : callOffer j op s = .next t) : ClientInv t := by
  obtain ⟨hj, rfl | ⟨r, rfl⟩ | ⟨hf, hup, hop, rfl⟩⟩ := callOffer_cases j op s t h
  · exact hs
  · exact hs.congr ⟨rfl, rfl, rfl, rfl, rfl, rfl⟩
  · obtain ⟨htable, ⟨htx, hrx, -⟩, hcallers⟩ := hs
    have hnone := hcallers.not_ownsRow (j := j) (by simp [hf])
    exact ⟨htable, linkInv_of_up htx hrx hup,
      hcallers.setCaller rfl rfl hj (fun _ => hop) (by simpa using hnone) (fun _ _ _ => .rfl)⟩

/-- An issue into a FREE row under a fresh id keeps the client consistent (R165, R167). -/
theorem issued_keeps_clientInv (j k : Nat) (frame : List Byte) (sent : Bool) (s : State) (hs : ClientInv s)
    (hl : s.cfg.legal = true) (hf : (callerAt s j).fsm = .issue) (hup : s.up = true)
    (hk : lowestFree s.pt = some k) : ClientInv (issued j k frame sent s) := by
  obtain ⟨htable, ⟨htx, hrx, -⟩, hcallers⟩ := hs
  have hnone := hcallers.not_ownsRow (j := j) (by simp [hf])
  obtain ⟨e, he, hfree⟩ := lowestFree_some _ _ hk
  have hdepth : s.pt.length ≤ 65535 := by
    obtain ⟨hlen, -, -⟩ := htable
    obtain ⟨-, ⟨-, hmax⟩, -⟩ := legal_bounds _ hl
    omega
  have hset := ownsRow_set s.pt k e (issuedEntry j (allocTid s.pt s.tidc) (build (callerAt s j).op) s.now) he
  refine ⟨htable.set rfl rfl rfl (fun _ => allocTid_fresh _ _ hdepth), linkInv_of_up htx hrx hup,
    hcallers.setCaller rfl rfl (hcallers.hasCaller_of_not_idle (j := j) (by simp [hf])) (fun h => by cases h)
      (fun m => ?_) (fun n m hn => ?_)⟩
  · refine (hset j m).trans ?_
    split_ifs with hm
    · simp [hm, issuedEntry]
    · simp [hm, hnone m]
  · refine (hset n m).trans ?_
    split_ifs with hm
    · subst hm; simp [ownsRow, he, hfree, issuedEntry, Ne.symm hn]
    · rfl

/-- Freeing the row a caller waits on, with the caller IDLE again, keeps the client consistent (R169, R181). -/
theorem collected_keeps_clientInv (j : Nat) (e : Entry) (r : CallResult) (s : State) (hs : ClientInv s)
    (hf : (callerAt s j).fsm = .wait) (he : s.pt[(callerAt s j).k]? = some e) :
    ClientInv (emit (.ret j r) (setCaller j { callerAt s j with fsm := .idle }
      (setEntry (callerAt s j).k { e with st := .free, slot := none } s))) := by
  obtain ⟨htable, ⟨htx, hrx, hdown⟩, hcallers⟩ := hs
  obtain ⟨hwf, -, howns, -⟩ := (callerInv_iff s).1 hcallers
  have howner : e.owner = j := by
    obtain ⟨e', he', -, ho⟩ := (howns j _).2 ⟨hf, rfl⟩
    rwa [Option.some.inj (he'.symm.trans he)] at ho
  have hset := ownsRow_set s.pt (callerAt s j).k e { e with st := .free, slot := none } he
  refine ⟨htable.set rfl rfl rfl (fun h => by cases h), ⟨htx, hrx, fun hu => ?_⟩,
    hcallers.setCaller rfl rfl (hcallers.hasCaller_of_not_idle (j := j) (by simp [hf])) (fun h => by cases h)
      (fun m => ?_) (fun n m hn => ?_)⟩
  · obtain ⟨hempty, hrows, hissue⟩ := hdown hu
    refine ⟨hempty, fun m x hx => ?_, fun n => ?_⟩
    · simp only [emit_pt, setCaller_pt, setEntry_pt, List.getElem?_set] at hx
      split_ifs at hx
      · cases hx; simp
      · exact hrows m x hx
    · rw [callerAt_emit, callerAt_setCaller j n _ (setEntry (callerAt s j).k _ s) hwf]
      split_ifs
      · simp
      · exact hissue n
  · refine (hset j m).trans ?_
    split_ifs with hm
    · simp
    · simp [howns, hm]
  · refine (hset n m).trans ?_
    split_ifs with hm
    · subst hm; simp [ownsRow, he, howner, Ne.symm hn]
    · rfl

theorem callerOffer_keeps_clientInv (j : Nat) (sent : Bool) (s t : State) (hl : s.cfg.legal = true)
    (hs : ClientInv s) (h : callerOffer j sent s = .next t) : ClientInv t := by
  obtain rfl | ⟨hf, hdown, -⟩ | ⟨hf, hup, -, k, frame, hk, -, rfl⟩ | ⟨hf, e, r, he, -, -, rfl⟩ :=
    callerOffer_cases j sent s t h
  · exact hs
  · obtain ⟨-, ⟨-, -, hclosed⟩, -⟩ := hs
    obtain ⟨-, -, hissue⟩ := hclosed hdown
    exact absurd hf (hissue j)
  · have hissued := issued_keeps_clientInv j k frame sent s hs hl hf hup hk
    cases sent
    · exact hissued.closeClient
    · exact hissued
  · exact collected_keeps_clientInv j e r s hs hf he

theorem clientFrame_keeps_clientInv (f : Frame) (s t : State) (hs : ClientInv s) (h : clientFrame f s = .next t) :
    ClientInv t := by
  have ha : ClientInv { s with active := .client f.tid } := hs.congr ⟨rfl, rfl, rfl, rfl, rfl, rfl⟩
  obtain ⟨-, rfl⟩ | ⟨k, e, p, he, hp, -, rfl⟩ := clientFrame_cases f s t h
  · exact ha.congr ⟨rfl, rfl, rfl, rfl, rfl, rfl⟩
  · exact ha.resolveAt he hp _

theorem clientReceiveOffer_keeps_clientInv (s t : State) (hs : ClientInv s)
    (h : clientReceiveOffer s = .next t) : ClientInv t := by
  have ⟨htable, ⟨htx, hrx, _⟩, hcallers⟩ := hs
  obtain h' | ⟨hup, x, rest, -, ⟨b, rx, -, hd, h'⟩ | ⟨b, f, -, -, h'⟩ | ⟨-, h'⟩⟩ := clientReceiveOffer_cases s <;>
    rw [h'] at h
  · cases h; exact hs
  · cases h; exact ⟨htable, linkInv_of_up htx (deframe_more_rxOk _ _ _ _ hrx hd) hup, hcallers⟩
  · have hempty : ClientInv { s with rlRx := [], clInp := rest } :=
      ⟨htable, linkInv_of_up htx (rxOk_nil _) hup, hcallers⟩
    exact clientFrame_keeps_clientInv f _ t hempty h
  · cases h
    have htaken : ClientInv { s with clInp := rest } := hs.congr ⟨rfl, rfl, rfl, rfl, rfl, rfl⟩
    exact htaken.closeClient

theorem timeoutOffer_keeps_clientInv (k : Nat) (s : State) (hs : ClientInv s) : ClientInv (timeoutOffer k s) := by
  obtain h | ⟨e, he, hp, -, h⟩ := timeoutOffer_cases k s <;> rw [h]
  · exact hs
  · exact hs.resolveAt he hp _

theorem tickOffer_keeps_clientInv (s : State) (hs : ClientInv s) : ClientInv (tickOffer s) := by
  obtain h | ⟨-, h⟩ := tickOffer_cases s <;> rw [h]
  · exact hs
  · exact hs.congr ⟨rfl, rfl, rfl, rfl, rfl, rfl⟩

theorem clientDeliverOffer_keeps_clientInv (x : StreamItem) (s : State) (hs : ClientInv s) :
    ClientInv (clientDeliverOffer x s) := by
  unfold clientDeliverOffer
  split_ifs
  · exact hs.congr ⟨rfl, rfl, rfl, rfl, rfl, rfl⟩
  · exact hs

/-! Reset. -/

/-- Every row of the table is FREE and empty after reset (R31, R41). -/
theorem boot_row (c : Config) (now : Ticks) (k : Nat) (e : Entry) (h : (State.boot c now).pt[k]? = some e) :
    e = Entry.reset := List.eq_of_mem_replicate (List.mem_of_getElem? h)

/-- After reset nothing is pending, no row is in use and every caller is IDLE (R30, R31, R34, R41). -/
theorem boot_clientInv (c : Config) (now : Ticks) : ClientInv (State.boot c now) := by
  have hrow := boot_row c now
  refine ⟨⟨List.length_replicate, fun k e he => ?_, fun k k' e e' he _ hp => ?_⟩,
    ⟨rfl, rxOk_nil _, fun _ => ⟨rfl, fun k e he hp => ?_, fun j h => by cases h⟩⟩,
    rfl, fun j h => (by cases h), fun j h => (by cases h), fun k e he hst => ?_, fun j _ => rfl⟩ <;>
    obtain rfl := hrow k e he
  · rfl
  · cases hp
  · cases hp
  · exact absurd rfl hst

/-! Every step. -/

/-- Whatever offer the client takes, its invariant is kept. -/
theorem takeOffer_client_keeps_clientInv (o : Offer) (s t : State) (ho : ofClient o = true)
    (hl : s.cfg.legal = true) (hs : ClientInv s) (h : takeOffer o s = .next t) : ClientInv t := by
  cases o with
  | connect ok => cases h; exact connectOffer_keeps_clientInv ok s hs
  | disconnect => cases h; exact disconnectOffer_keeps_clientInv s hs
  | call j op => exact callOffer_keeps_clientInv j op s t hs h
  | callerStep j sent => exact callerOffer_keeps_clientInv j sent s t hl hs h
  | clientDeliver x => cases h; exact clientDeliverOffer_keeps_clientInv x s hs
  | clientReceive => exact clientReceiveOffer_keeps_clientInv s t hs h
  | tick => cases h; exact tickOffer_keeps_clientInv s hs
  | timeout k => cases h; exact timeoutOffer_keeps_clientInv k s hs
  | _ => cases ho

/-- A step that leaves the client as it is keeps its invariant. -/
theorem ClientInv.of_sameClient {s t : State} (hs : ClientInv s) (hcfg : t.cfg = s.cfg) (h : sameClient s t) :
    ClientInv t := by
  obtain ⟨hup, hpt, -, hcallers, hrx, -, htx, -⟩ := h
  exact hs.congr ⟨hcfg, hpt, hup, hcallers, hrx, htx⟩

/-- Settles O58: each caller waits on exactly the row it owns; an issue takes a FREE row and an id no row is pending
under, a terminal event keeps a row's owner, and a close leaves nothing pending or issuing. -/
theorem stepKeepsClient : Obligations.StepKeepsClient := by
  intro s t hs h
  obtain ⟨hl, ⟨-, rfl⟩ | ⟨o, rest, -, ho⟩⟩ := step_cases s t h
  · exact hs
  · have hs' : ClientInv { s with sched := rest } := hs.congr ⟨rfl, rfl, rfl, rfl, rfl, rfl⟩
    cases hc : ofClient o with
    | true => exact takeOffer_client_keeps_clientInv o { s with sched := rest } t hc hl hs' ho
    | false =>
      by_cases hr : ∃ c now, o = .reset c now
      · obtain ⟨c, now, rfl⟩ := hr
        obtain ⟨-, rfl⟩ := resetOffer_cases c now _ t ho
        exact (boot_clientInv c now).congr ⟨rfl, rfl, rfl, rfl, rfl, rfl⟩
      · push Not at hr
        obtain ⟨hcfg, -, hclient, -⟩ := takeOffer_outsideClient o _ t hc hr ho
        exact hs'.of_sameClient hcfg hclient

end Sys2Proof.Machine
end

section
/-! SUPPORT. What a held lock makes of a bank access (R25, R55; log 12). -/

namespace Sys2Proof.Machine

open Sys2Proof.Claims

/-- What may become of the request of `S[i]` with function code `fc` while its bank's lock is held: the agent waits, or
the router answers it with an address or a value exception before it accesses the bank (R121). -/
def WaitsOrRefused (fc : Byte) (i : Nat) (s t : State) : Prop :=
  t = s ∨ ∃ code, (code = 0x02#8 ∨ code = 0x03#8) ∧ t = replied i [fc ||| 0x80#8, code] s

theorem WaitsOrRefused.waits (fc : Byte) (i : Nat) (s : State) : WaitsOrRefused fc i s s := .inl rfl

theorem WaitsOrRefused.address (fc : Byte) (i : Nat) (s : State) :
    WaitsOrRefused fc i s (raiseExc i fc .illegalDataAddress s) := .inr ⟨_, .inl rfl, rfl⟩

theorem WaitsOrRefused.value (fc : Byte) (i : Nat) (s : State) :
    WaitsOrRefused fc i s (raiseExc i fc .illegalDataValue s) := .inr ⟨_, .inr rfl, rfl⟩

theorem routeReadBits_held (fc : Byte) (b : BitBank) (i : Nat) (p : PairForm) (s : State)
    (hl : lockOf s.locks (.bits b) ≠ .free) : WaitsOrRefused fc i s (routeReadBits fc b i p s) := by
  unfold routeReadBits
  cases p with
  | cut payload => exact .value fc i s
  | full addr qty tail =>
    simp only
    split_ifs with hrange hvalue
    · exact .address fc i s
    · exact .value fc i s
    · rw [dsReadBits_held _ _ _ _ _ hl, if_pos (by simpa using hrange)]
      exact .waits fc i s

theorem routeReadRegs_held (fc : Byte) (r : RegBank) (i : Nat) (p : PairForm) (s : State)
    (hl : lockOf s.locks (.regs r) ≠ .free) : WaitsOrRefused fc i s (routeReadRegs fc r i p s) := by
  unfold routeReadRegs
  cases p with
  | cut payload => exact .value fc i s
  | full addr qty tail =>
    simp only
    split_ifs with hrange hvalue
    · exact .address fc i s
    · exact .value fc i s
    · rw [dsReadRegs_held _ _ _ _ _ hl, if_pos (by simpa using hrange)]
      exact .waits fc i s

theorem routeWriteCoil_held (i : Nat) (p : PairForm) (s : State)
    (hl : lockOf s.locks (.bits .co) ≠ .free) : WaitsOrRefused 0x05#8 i s (routeWriteCoil i p s) := by
  unfold routeWriteCoil
  cases p with
  | cut payload => exact .value _ i s
  | full addr value tail =>
    simp only
    split_ifs with hrange hlength
    · exact .address _ i s
    · exact .value _ i s
    · cases coilOf value with
      | none => exact .value _ i s
      | some bit =>
        simp only
        rw [dsWriteBits_held _ _ _ _ _ hl, if_pos (by simpa using hrange)]
        exact .waits _ i s

theorem routeWriteReg_held (i : Nat) (p : PairForm) (s : State)
    (hl : lockOf s.locks (.regs .hr) ≠ .free) : WaitsOrRefused 0x06#8 i s (routeWriteReg i p s) := by
  unfold routeWriteReg
  cases p with
  | cut payload => exact .value _ i s
  | full addr value tail =>
    simp only
    split_ifs with hrange hlength
    · exact .address _ i s
    · exact .value _ i s
    · rw [dsWriteRegs_held _ _ _ _ _ hl, if_pos (by simpa using hrange)]
      exact .waits _ i s

/-- An accepted Write Multiple Registers has as many values as its quantity says (R125). -/
theorem multiValueOk_length (qty : Word) (bc : Byte) (data : List Byte) (bound : Nat)
    (h : ¬ multiValueOk qty bc data bound = false) : (bytesRegs data).length = qty.toNat := by
  rw [multiValueOk_false] at h
  rw [bytesRegs_length]
  omega

theorem routeWriteRegs_held (i : Nat) (m : MultiForm) (s : State)
    (hl : lockOf s.locks (.regs .hr) ≠ .free) : WaitsOrRefused 0x10#8 i s (routeWriteRegs i m s) := by
  unfold routeWriteRegs
  cases m with
  | cut payload => exact .value _ i s
  | full addr qty bc data =>
    simp only
    split_ifs with hrange hvalue
    · exact .address _ i s
    · exact .value _ i s
    · have hin : inRange (capRegs s.cfg .hr) addr.toNat (bytesRegs data).length = true := by
        rw [multiValueOk_length qty bc data _ hvalue]; simpa using hrange
      rw [dsWriteRegs_held _ _ _ _ _ hl, if_pos hin]
      exact .waits _ i s

/-- An instruction of a server agent on a bank whose lock is held. -/
theorem exec_held (s t : State) (i : Nat) (instr : Instr) (b : Bank) (ha : s.active = .server i)
    (hb : bankOf instr = some b) (hl : lockOf s.locks b ≠ .free) (h : exec instr s = .next t) :
    WaitsOrRefused ((encodePdu instr).getD 0 0) i s t := by
  cases instr <;> cases hb <;>
    simp only [exec, execRc, execRdi, execRhr, execRir, execWsc, execWsr, execWmr, ha] at h <;> cases h
  case rc p => exact routeReadBits_held _ _ i p s hl
  case rdi p => exact routeReadBits_held _ _ i p s hl
  case rhr p => exact routeReadRegs_held _ _ i p s hl
  case rir p => exact routeReadRegs_held _ _ i p s hl
  case wsc p => exact routeWriteCoil_held i p s hl
  case wsr p => exact routeWriteReg_held i p s hl
  case wmr m => exact routeWriteRegs_held i m s hl

/-- A seed read of a bank whose lock is held leaves the state as it is, or is refused (R67). -/
theorem seedReadOffer_held (b : Bank) (addr n : Nat) (s t : State) (hl : lockOf s.locks b ≠ .free)
    (h : seedReadOffer b addr n s = .next t) : t = s := by
  cases b with
  | bits bb =>
    simp only [seedReadOffer, dsReadBits_held _ _ _ _ _ hl] at h
    split_ifs at h
    cases h
    rfl
  | regs r =>
    simp only [seedReadOffer, dsReadRegs_held _ _ _ _ _ hl] at h
    split_ifs at h
    cases h
    rfl

/-- A seed write of a bank whose lock is held leaves the state as it is, or is refused (R67). -/
theorem seedWriteOffer_held (b : Bank) (addr : Nat) (vals : List Nat) (s t : State)
    (hl : lockOf s.locks b ≠ .free) (h : seedWriteOffer b addr vals s = .next t) : t = s := by
  obtain ht | ⟨bb, vs, rfl, -, hfree, -⟩ | ⟨r, vs, rfl, -, hfree, -⟩ := seedWriteOffer_cases b addr vals s t h
  · exact ht
  · exact absurd hfree hl
  · exact absurd hfree hl

/-- A permitted change of the banks touches one bank at most, and that one has its lock free. -/
theorem BankChange.one_bank {s t : State} (h : BankChange s.cfg s.locks s.mem t.mem) :
    ∃ b, sameOtherBanks b s t ∧ (t.mem ≠ s.mem → lockOf s.locks b = .free) := by
  unfold sameOtherBanks
  generalize t.mem = m' at h ⊢
  cases h with
  | same => exact ⟨.bits .di, by simp, fun hne => absurd rfl hne⟩
  | bits b a vs _ hl => exact ⟨.bits b, by cases b <;> simp [Memory.setBits], fun _ => hl⟩
  | regs r a vs _ hl => exact ⟨.regs r, by cases r <;> simp [Memory.setRegs], fun _ => hl⟩

/-- Settles O11: a step's access writes one bank and has its lock, and with the lock held every access waits once the
router has raised no exception. -/
theorem bankAccessWaitsForLock : Obligations.BankAccessWaitsForLock := by
  refine ⟨fun s t h hr => ?_, fun s t i instr b ha hb hl h => exec_held s t i instr b ha hb hl h,
    fun s t b addr n vals rest hl hs h => ?_⟩
  · obtain rfl | ⟨o, rest, -, hor, ho⟩ := step_cases_of_not_reset s t h hr
    · exact ⟨rfl, BankChange.same.one_bank⟩
    · obtain ⟨-, hlocks, hbanks⟩ := takeOffer_banks o _ t hor ho
      exact ⟨hlocks, BankChange.one_bank (s := s) hbanks⟩
  · obtain ⟨hlegal, -⟩ := step_cases s t h
    obtain hs | hs := hs <;> rw [step_of_sched s _ rest hlegal hs] at h
    · exact seedReadOffer_held b addr n { s with sched := rest } t hl h
    · exact seedWriteOffer_held b addr vals { s with sched := rest } t hl h

end Sys2Proof.Machine
end

section
/-! SUPPORT. Server and client apart (R20, R24), the rows of the pending table (R32) and the id counter (R33). -/

namespace Sys2Proof.Machine

open Sys2Proof.Claims

/-- Settles O38: the frames of the two sides, offer by offer. -/
theorem serverAndClientAreSeparate : Obligations.ServerAndClientAreSeparate := by
  intro s t o rest hs h hr
  obtain ⟨hlegal, -⟩ := step_cases s t h
  rw [step_of_sched s o rest hlegal hs] at h
  refine ⟨fun hc => ?_, fun hc => ?_⟩
  · obtain ⟨-, -, hclient, -⟩ := takeOffer_outsideClient o { s with sched := rest } t hc hr h
    exact hclient
  · obtain ⟨-, hserver⟩ := takeOffer_client_keeps_server o { s with sched := rest } t hc h
    exact hserver

/-! Rows move (R32). -/

/-- Every row of `pt'` comes from its row of `pt` by one move of R32. -/
def RowsMove (pt pt' : List Entry) : Prop :=
  ∀ (k : Nat) (e e' : Entry), pt[k]? = some e → pt'[k]? = some e' → entryMove e e'

theorem RowsMove.refl (pt : List Entry) : RowsMove pt pt :=
  fun _ _ _ h h' => .inl (Option.some.inj (h'.symm.trans h))

/-- One row of a moved table may be replaced by another move of it. -/
theorem RowsMove.set {pt pt' : List Entry} (h : RowsMove pt pt') {k : Nat} {e x : Entry} (he : pt[k]? = some e)
    (hm : entryMove e x) : RowsMove pt (pt'.set k x) := by
  intro m y y' hy hy'
  rw [List.getElem?_set] at hy'
  split_ifs at hy' with hk
  · subst hk
    cases hy'
    rwa [Option.some.inj (hy.symm.trans he)]
  · exact h m y y' hy hy'

theorem entryMove_resolve (r : CallResult) (e : Entry) (hp : e.st = .pending) : entryMove e (resolveEntry r e) :=
  .inr (.inr (.inr (.inl ⟨hp, r, rfl⟩)))

/-- The close resolves the pending rows and leaves the others (R178). -/
theorem rowsMove_close (pt : List Entry) : RowsMove pt (pt.map closeEntry) := by
  intro k e e' he he'
  rw [List.getElem?_map, he] at he'
  cases he'
  unfold closeEntry
  split_ifs with hp
  · exact entryMove_resolve _ _ hp
  · exact .inl rfl

/-- A terminal event moves the one row it resolves (R180). -/
theorem rowsMove_resolveAt (s : State) (k : Nat) (e : Entry) (r : CallResult) (he : s.pt[k]? = some e)
    (hp : e.st = .pending) : RowsMove s.pt (resolveAt k r s).pt := by
  rw [resolveAt_pt, modify_eq_set _ _ _ _ he]
  exact (RowsMove.refl s.pt).set he (entryMove_resolve r e hp)

/-- An issue moves a FREE row to PENDING, or, when its transmission fails, to RESOLVED with ConnectionClosed, in the
close of the same step (R167, R179). -/
theorem rowsMove_issued (j k : Nat) (frame : List Byte) (sent : Bool) (s : State) (hk : lowestFree s.pt = some k) :
    RowsMove s.pt (issued j k frame sent s).pt ∧ RowsMove s.pt (closeClient (issued j k frame sent s)).pt := by
  obtain ⟨e, he, hfree⟩ := lowestFree_some _ _ hk
  refine ⟨(RowsMove.refl s.pt).set he (.inr (.inl ⟨hfree, rfl, rfl⟩)), ?_⟩
  simp only [closeClient_pt, issued, emit_pt, register_pt, List.map_set]
  exact (rowsMove_close s.pt).set he (.inr (.inr (.inl ⟨hfree, rfl, rfl⟩)))

/-- The step of a caller moves at most one row, but for the close after a failed transmission (R167, R179, R181). -/
theorem callerOffer_rowsMove (j : Nat) (sent : Bool) (s t : State) (h : callerOffer j sent s = .next t) :
    RowsMove s.pt t.pt := by
  obtain rfl | ⟨-, -, rfl⟩ | ⟨-, -, -, k, frame, hk, -, rfl⟩ | ⟨-, e, r, he, hst, -, rfl⟩ :=
    callerOffer_cases j sent s t h
  · exact .refl _
  · exact .refl _
  · obtain ⟨hpending, hresolved⟩ := rowsMove_issued j k frame sent s hk
    cases sent
    · exact hresolved
    · exact hpending
  · exact (RowsMove.refl s.pt).set he (.inr (.inr (.inr (.inr ⟨hst, rfl⟩))))

theorem clientFrame_rowsMove (f : Frame) (s t : State) (h : clientFrame f s = .next t) :
    t.tidc = s.tidc ∧ RowsMove s.pt t.pt := by
  obtain ⟨-, rfl⟩ | ⟨k, e, p, he, hp, -, rfl⟩ := clientFrame_cases f s t h
  · exact ⟨rfl, .refl _⟩
  · exact ⟨rfl, rowsMove_resolveAt { s with active := .client f.tid } k e _ he hp⟩

theorem clientReceiveOffer_rowsMove (s t : State) (h : clientReceiveOffer s = .next t) :
    t.tidc = s.tidc ∧ RowsMove s.pt t.pt := by
  obtain h' | ⟨-, x, rest, -, ⟨b, rx, -, -, h'⟩ | ⟨b, f, -, -, h'⟩ | ⟨-, h'⟩⟩ := clientReceiveOffer_cases s <;>
    rw [h'] at h
  · cases h; exact ⟨rfl, .refl _⟩
  · cases h; exact ⟨rfl, .refl _⟩
  · exact clientFrame_rowsMove f { s with rlRx := [], clInp := rest } t h
  · cases h; exact ⟨rfl, rowsMove_close s.pt⟩

/-- A client step that is no caller's step keeps the id counter, and moves rows as R32 says. -/
theorem takeOffer_client_rowsMove (o : Offer) (s t : State) (ho : ofClient o = true)
    (hj : ∀ j sent, o ≠ .callerStep j sent) (h : takeOffer o s = .next t) :
    t.tidc = s.tidc ∧ RowsMove s.pt t.pt := by
  cases o with
  | connect ok =>
    cases h
    unfold connectOffer
    split_ifs <;> exact ⟨rfl, .refl _⟩
  | disconnect =>
    cases h
    unfold disconnectOffer
    split_ifs
    · exact ⟨rfl, rowsMove_close s.pt⟩
    · exact ⟨rfl, .refl _⟩
  | call j op =>
    obtain ⟨-, rfl | ⟨r, rfl⟩ | ⟨-, -, -, rfl⟩⟩ := callOffer_cases j op s t h <;> exact ⟨rfl, .refl _⟩
  | callerStep j sent => exact absurd rfl (hj j sent)
  | clientDeliver x =>
    cases h
    unfold clientDeliverOffer
    split_ifs <;> exact ⟨rfl, .refl _⟩
  | clientReceive => exact clientReceiveOffer_rowsMove s t h
  | tick =>
    cases h
    obtain h | ⟨-, h⟩ := tickOffer_cases s <;> rw [h] <;> exact ⟨rfl, .refl _⟩
  | timeout k =>
    cases h
    obtain h | ⟨e, he, hp, -, h⟩ := timeoutOffer_cases k s <;> rw [h]
    · exact ⟨rfl, .refl _⟩
    · exact ⟨rfl, rowsMove_resolveAt s k e _ he hp⟩
  | _ => cases ho

/-- No step but a reset and a caller's step writes the id counter, and it moves rows as R32 says. -/
theorem takeOffer_rowsMove (o : Offer) (s t : State) (hr : ∀ c now, o ≠ .reset c now)
    (hj : ∀ j sent, o ≠ .callerStep j sent) (h : takeOffer o s = .next t) :
    t.tidc = s.tidc ∧ RowsMove s.pt t.pt := by
  cases hc : ofClient o with
  | true => exact takeOffer_client_rowsMove o s t hc hj h
  | false =>
    obtain ⟨-, -, ⟨-, hpt, htidc, -⟩, -⟩ := takeOffer_outsideClient o s t hc hr h
    exact ⟨htidc, hpt ▸ .refl _⟩

/-- Settles O51: each client step writes its row by a move of R32, the close among them, and no other step writes the
table. -/
theorem entriesMoveOnlySo : Obligations.EntriesMoveOnlySo := by
  intro s t k e e' h hr he he'
  obtain rfl | ⟨o, rest, -, hor, ho⟩ := step_cases_of_not_reset s t h hr
  · exact RowsMove.refl _ k e e' he he'
  · by_cases hj : ∃ j sent, o = .callerStep j sent
    · obtain ⟨j, sent, rfl⟩ := hj
      exact callerOffer_rowsMove j sent _ t ho k e e' he he'
    · push Not at hj
      obtain ⟨-, hmoves⟩ := takeOffer_rowsMove o _ t hor hj ho
      exact hmoves k e e' he he'

/-- Settles O52: no offer but a reset writes the configuration, and no other but a caller's the id counter. -/
theorem counterAndConfiguration : Obligations.CounterAndConfiguration := by
  intro s t h hr
  obtain rfl | ⟨o, rest, hs, hor, ho⟩ := step_cases_of_not_reset s t h hr
  · exact ⟨rfl, fun _ => rfl⟩
  · obtain ⟨hcfg, -, -⟩ := takeOffer_banks o _ t hor ho
    refine ⟨hcfg, fun hj => ?_⟩
    obtain ⟨htidc, -⟩ := takeOffer_rowsMove o _ t hor (fun j sent hc => hj j sent rest (hc ▸ hs)) ho
    exact htidc

end Sys2Proof.Machine
end

section
/-! SUPPORT. Which steps go on (R26, R67, R100, R117, R138), and what reset leaves (R41). -/

namespace Sys2Proof.Machine

theorem goesOn_next (t : State) : goesOn (.next t) := ⟨t, rfl⟩

/-- The request PDU of a call inside its domain is one `Encode` accepts (R100, R164). -/
theorem build_pdu_length (c : Config) (op : FacadeOp) (hl : c.legal = true) (hd : inDomain c op = true) :
    1 ≤ (build op).pdu.length ∧ (build op).pdu.length ≤ c.maxPdu := by
  obtain ⟨-, -, ⟨hmin, -⟩, -⟩ := legal_bounds c hl
  cases op with
  | writeRegisters a vs =>
    simp only [inDomain, Bool.and_eq_true, decide_eq_true_eq] at hd
    obtain ⟨-, hlen⟩ := hd
    rw [maxValues] at hlen
    simp only [build, List.length_cons, List.length_append, be16_length, regBytes_length, List.length_map]
    omega
  | _ => simp only [build, rsSingle_length]; omega

theorem openOffer_goesOn (i : Nat) (s : State) (h : hasConn s.cfg i = true) : goesOn (openOffer i s) := by
  simp only [openOffer, h, if_true]
  exact goesOn_next _

theorem callOffer_goesOn (j : Nat) (op : FacadeOp) (s : State) (h : hasCaller s.cfg j = true) :
    goesOn (callOffer j op s) := by
  simp only [callOffer, h, if_true]
  exact goesOn_next _

/-- Only the empty request is no PDU at all for the router (R75). -/
theorem decodePdu_ne_emptyPdu (p : List Byte) (hp : 1 ≤ p.length) : decodePdu p ≠ .error .emptyPdu := by
  cases p with
  | nil => simp at hp
  | cons fc payload => simp only [decodePdu]; split_ifs <;> simp

theorem routeOffer_goesOn (i : Nat) (s : State) (hs : ServerInv s) : goesOn (routeOffer i s) := by
  have hok := hs.connOk i
  unfold routeOffer
  simp only
  split_ifs with hf
  · simp only [connOk, hf] at hok
    obtain ⟨-, hmin, -⟩ := hok
    split
    · exact exec_goesOn _ _
    · next hd => exact absurd hd (decodePdu_ne_emptyPdu _ hmin)
    · exact goesOn_next _
  · exact goesOn_next _

theorem replyOffer_goesOn (i : Nat) (sent : Bool) (s : State) (hs : ServerInv s) : goesOn (replyOffer i sent s) := by
  have hok := hs.connOk i
  simp only [replyOffer]
  by_cases hf : (connAt s i).fsm = .reply
  · simp only [connOk, hf] at hok
    obtain ⟨-, hmin, hmax⟩ := hok
    obtain ⟨frame, hframe⟩ :=
      encodeFrame_isSome s.cfg.maxPdu (connAt s i).tid (connAt s i).uid (connAt s i).resp (by omega) hmax
    rw [if_pos hf, hframe]
    cases sent <;> exact goesOn_next _
  · rw [if_neg hf]
    exact goesOn_next _

theorem seedReadOffer_goesOn (b : Bank) (addr n : Nat) (s : State) (hl : locksFree s)
    (h : offerInDomain s.cfg (.seedRead b addr n) = true) : goesOn (seedReadOffer b addr n s) := by
  cases b with
  | bits bb =>
    simp only [seedReadOffer, dsReadBits_free _ _ _ _ _ (hl _), if_pos (show inRange _ _ _ = true from h)]
    exact goesOn_next _
  | regs r =>
    simp only [seedReadOffer, dsReadRegs_free _ _ _ _ _ (hl _), if_pos (show inRange _ _ _ = true from h)]
    exact goesOn_next _

theorem seedWriteOffer_goesOn (b : Bank) (addr : Nat) (vals : List Nat) (s : State) (hl : locksFree s)
    (h : offerInDomain s.cfg (.seedWrite b addr vals) = true) : goesOn (seedWriteOffer b addr vals s) := by
  cases b with
  | bits bb =>
    simp only [offerInDomain, Bool.and_eq_true] at h
    obtain ⟨hrange, hfit⟩ := h
    simp only [seedWriteOffer, dsWriteBits_free _ _ _ _ _ (hl _), List.length_map, hfit, hrange, if_true]
    exact goesOn_next _
  | regs r =>
    simp only [offerInDomain, Bool.and_eq_true] at h
    obtain ⟨hrange, hfit⟩ := h
    simp only [seedWriteOffer, dsWriteRegs_free _ _ _ _ _ (hl _), List.length_map, hfit, hrange, if_true]
    exact goesOn_next _

theorem issue_goesOn (j : Nat) (sent : Bool) (s : State) (hl : s.cfg.legal = true)
    (hd : inDomain s.cfg (callerAt s j).op = true) : goesOn (issue j sent s) := by
  obtain ⟨hmin, hmax⟩ := build_pdu_length s.cfg _ hl hd
  simp only [issue, acquireTx]
  by_cases htx : s.tx = .free
  · simp only [htx, if_true]
    cases lowestFree s.pt with
    | none => exact goesOn_next _
    | some k =>
      obtain ⟨frame, hframe⟩ := encodeFrame_isSome s.cfg.maxPdu (allocTid s.pt s.tidc) s.cfg.unitId _ hmin hmax
      simp only [callerAt] at hframe ⊢
      rw [hframe]
      cases sent <;> exact goesOn_next _
  · simp only [htx, if_false]
    exact goesOn_next _

theorem callerOffer_goesOn (j : Nat) (sent : Bool) (s : State) (hl : s.cfg.legal = true) (hs : CallerInv s) :
    goesOn (callerOffer j sent s) := by
  obtain ⟨-, hop, -⟩ := hs
  simp only [callerOffer]
  cases hf : (callerAt s j).fsm with
  | idle => exact goesOn_next _
  | issue =>
    simp only
    split_ifs
    · exact issue_goesOn j sent s hl (hop j hf)
    · exact goesOn_next _
  | wait => exact goesOn_next _

theorem clientReceiveOffer_goesOn (s : State) : goesOn (clientReceiveOffer s) := by
  obtain h | ⟨-, x, rest, -, ⟨b, rx, -, -, h⟩ | ⟨b, f, -, -, h⟩ | ⟨-, h⟩⟩ := clientReceiveOffer_cases s <;> rw [h]
  · exact goesOn_next _
  · exact goesOn_next _
  · rw [clientFrame_eq]; exact goesOn_next _
  · exact goesOn_next _

/-- Every offer inside HOST's domain is taken, in a state that meets the invariants. -/
theorem takeOffer_goesOn (o : Offer) (s : State) (hs : Inv s) (ho : offerInDomain s.cfg o = true) :
    goesOn (takeOffer o s) := by
  obtain ⟨hl, -, hserver, ⟨-, -, hcallers⟩, -⟩ := hs
  have ⟨_, _, hlocks, _⟩ := hserver
  cases o with
  | openConn i => exact openOffer_goesOn i s ho
  | route i => exact routeOffer_goesOn i s hserver
  | reply i sent => exact replyOffer_goesOn i sent s hserver
  | seedRead b addr n => exact seedReadOffer_goesOn b addr n s hlocks ho
  | seedWrite b addr vals => exact seedWriteOffer_goesOn b addr vals s hlocks ho
  | encode tid uid pdu =>
    obtain ⟨hmin, hmax⟩ := of_decide_eq_true ho
    obtain ⟨bytes, hbytes⟩ := encodeFrame_isSome s.cfg.maxPdu tid uid pdu hmin hmax
    simp only [takeOffer, encodeOffer, hbytes]
    exact goesOn_next _
  | call j op => exact callOffer_goesOn j op s ho
  | callerStep j sent => exact callerOffer_goesOn j sent s hl hcallers
  | clientReceive => exact clientReceiveOffer_goesOn s
  | reset c now =>
    simp only [takeOffer, resetOffer, if_pos (show c.legal = true from ho)]
    exact goesOn_next _
  | _ => exact goesOn_next _

/-- Settles O60: what a step needs to go on, the invariants or HOST's domain gives. -/
theorem safeStepsGoOn : Obligations.SafeStepsGoOn := by
  intro s hs hdom
  have ⟨hl, _⟩ := hs
  cases hq : s.sched with
  | nil => exact ⟨s, by simp [step, hl, hq]⟩
  | cons o rest =>
    rw [step_of_sched s o rest hl hq]
    exact takeOffer_goesOn o { s with sched := rest } hs (hdom o rest hq)

/-- Settles O54: the reset state, field by field, and the reset step by its branches. -/
theorem resetValues : Obligations.ResetValues := by
  refine ⟨fun c now => ?_, fun s c now rest hl hs => ?_⟩
  · obtain ⟨-, -, hlocks, -⟩ := boot_serverInv c now
    refine ⟨rfl, hlocks, fun i => ⟨rfl, rfl⟩, rfl, fun k e he => ?_, rfl, fun j => rfl, rfl, rfl⟩
    obtain rfl := boot_row c now k e he
    exact ⟨rfl, rfl⟩
  · rw [step_of_sched s _ rest hl hs]
    rfl

/-- After reset no row is pending, so none is old (R41, R177). -/
theorem boot_ageInv (c : Config) (now : Ticks) : AgeInv (State.boot c now) := by
  intro k e he hp
  obtain rfl := boot_row c now k e he
  cases hp

/-- Settles O55: the reset state meets each invariant. -/
theorem resetMeetsInvariants : Obligations.ResetMeetsInvariants := fun c now hl =>
  ⟨hl, boot_memInv c now hl, boot_serverInv c now, boot_clientInv c now, boot_ageInv c now⟩

end Sys2Proof.Machine
end

section
/-! SUPPORT. The banks as a wire and an agent see them: what a read gives after a write (R58), in which order cells
travel (R53, R54), what the router (R127) and the seed port (R67) leave unchanged. -/

namespace Sys2Proof.Machine

/-! Cells read after a write (R58). -/

/-- Settles O15: the first cell is not touched by the rest of the write, the others by induction on the values. -/
theorem readAfterWrite : Obligations.ReadAfterWrite := by
  intro w m a vs hw
  induction vs generalizing m a with
  | nil => rfl
  | cons v vs ih =>
    have hrest : sparseGet 0 (writeCells (sparsePut 0 m a v) (a + 1) vs) a = v := by
      rw [sparseGet_writeCells_outside _ _ _ _ (.inl (Nat.lt_succ_self a)), sparseGet_put_same 0 m a v hw]
    simp only [writeCells, List.length_cons, readCells, hrest, ih _ _ (sparsePut_wf 0 m a v hw)]

/-! The order of cells on the wire (R53, R54). -/

/-- Register `k` of a sequence travels as bytes `2k` and `2k+1`, the high byte first (R53). -/
theorem regBytes_getElem (ws : List Word) (k : Nat) (w : Word) (h : ws[k]? = some w) :
    (regBytes ws)[2 * k]? = some (w.extractLsb' 8 8) ∧ (regBytes ws)[2 * k + 1]? = some (w.extractLsb' 0 8) := by
  induction ws generalizing k with
  | nil => simp at h
  | cons x ws ih =>
    cases k with
    | zero =>
      obtain rfl : x = w := by simpa using h
      exact ⟨rfl, rfl⟩
    | succ k => exact ih k (by simpa using h)

/-- Bit `b` of the number of a bit list is the list's `b`-th bit, and 0 past its end. -/
theorem bitsToNat_testBit (bs : List Bit) (b : Nat) : (bitsToNat bs).testBit b = true ↔ bs[b]? = some 1#1 := by
  induction bs generalizing b with
  | nil => simp [bitsToNat]
  | cons x bs ih =>
    have hx := x.isLt
    cases b with
    | zero =>
      have hbit : x = 1#1 ↔ x.toNat = 1 := BitVec.toNat_inj.symm
      simp only [bitsToNat, Nat.testBit_zero, decide_eq_true_eq, List.getElem?_cons_zero, Option.some.injEq, hbit]
      omega
    | succ b =>
      have hhalf : (x.toNat + 2 * bitsToNat bs) / 2 = bitsToNat bs := by omega
      rw [bitsToNat, Nat.testBit_succ, hhalf, ih, List.getElem?_cons_succ]

/-- Byte `m` of packed bits holds the eight bits from place `8m` (R54). -/
theorem packBytes_getElem (n m : Nat) (bs : List Bit) (hm : m < n) :
    (packBytes n bs)[m]? = some (BitVec.ofNat 8 (bitsToNat ((bs.drop (8 * m)).take 8))) := by
  induction n generalizing m bs with
  | zero => omega
  | succ n ih =>
    cases m with
    | zero => rfl
    | succ m =>
      rw [packBytes, List.getElem?_cons_succ, ih m _ (by omega), List.drop_drop, Nat.mul_succ, Nat.add_comm]

/-- Settles O16: register bytes by induction on the registers; a bit of a packed byte is a bit of the number that byte
holds. -/
theorem wireOrder : Obligations.WireOrder := by
  refine ⟨regBytes_getElem, fun bs => ⟨packBits_length bs, fun m b hm hb => ?_⟩⟩
  rw [packBits, List.getD_eq_getElem?_getD, packBytes_getElem (ceil8 bs.length) m bs hm, Option.getD_some,
    BitVec.getLsbD_ofNat, decide_eq_true hb, Bool.true_and, bitsToNat_testBit, List.getElem?_take_of_lt hb,
    List.getElem?_drop]

/-! What the router leaves unchanged (R58, R127). -/

/-- A bit read changes no bank. -/
theorem routeReadBits_mem (fc : Byte) (b : BitBank) (i : Nat) (p : PairForm) (s : State) :
    (routeReadBits fc b i p s).mem = s.mem := by
  unfold routeReadBits
  cases p with
  | cut payload => rfl
  | full addr qty tail =>
    simp only
    split_ifs
    · rfl
    · rfl
    · cases hd : dsReadBits (.server i) b addr.toNat qty.toNat s with
      | wait => rfl
      | serverFailure => rfl
      | done cells s' =>
        obtain ⟨rfl, -, -⟩ := dsReadBits_done _ _ _ _ _ _ _ hd
        rfl

/-- A register read changes no bank. -/
theorem routeReadRegs_mem (fc : Byte) (r : RegBank) (i : Nat) (p : PairForm) (s : State) :
    (routeReadRegs fc r i p s).mem = s.mem := by
  unfold routeReadRegs
  cases p with
  | cut payload => rfl
  | full addr qty tail =>
    simp only
    split_ifs
    · rfl
    · rfl
    · cases hd : dsReadRegs (.server i) r addr.toNat qty.toNat s with
      | wait => rfl
      | serverFailure => rfl
      | done cells s' =>
        obtain ⟨rfl, -, -⟩ := dsReadRegs_done _ _ _ _ _ _ _ hd
        rfl

/-- A coil write leaves the banks as they are, or writes the one coil it addresses (R134). -/
theorem routeWriteCoil_mem (i : Nat) (addr value : Word) (tail : List Byte) (s : State) :
    (routeWriteCoil i (.full addr value tail) s).mem = s.mem ∨
      ∃ v, (routeWriteCoil i (.full addr value tail) s).mem = (bankWriteBits .co addr.toNat [v] s).mem := by
  simp only [routeWriteCoil]
  split_ifs
  · exact .inl rfl
  · exact .inl rfl
  · cases coilOf value with
    | none => exact .inl rfl
    | some v =>
      simp only
      cases hd : dsWriteBits (.server i) .co addr.toNat [v] s with
      | wait => exact .inl rfl
      | serverFailure => exact .inl rfl
      | done u s' =>
        obtain ⟨rfl, -, -⟩ := dsWriteBits_done _ _ _ _ _ _ _ hd
        exact .inr ⟨v, rfl⟩

/-- A register write leaves the banks as they are, or writes the one register it addresses (R135). -/
theorem routeWriteReg_mem (i : Nat) (addr value : Word) (tail : List Byte) (s : State) :
    (routeWriteReg i (.full addr value tail) s).mem = s.mem ∨
      (routeWriteReg i (.full addr value tail) s).mem = (bankWriteRegs .hr addr.toNat [value] s).mem := by
  simp only [routeWriteReg]
  split_ifs
  · exact .inl rfl
  · exact .inl rfl
  · cases hd : dsWriteRegs (.server i) .hr addr.toNat [value] s with
    | wait => exact .inl rfl
    | serverFailure => exact .inl rfl
    | done u s' =>
      obtain ⟨rfl, -, -⟩ := dsWriteRegs_done _ _ _ _ _ _ _ hd
      exact .inr rfl

/-- A bulk write leaves the banks as they are, or writes as many registers as its quantity says (R136). -/
theorem routeWriteRegs_mem (i : Nat) (addr qty : Word) (bc : Byte) (data : List Byte) (s : State) :
    (routeWriteRegs i (.full addr qty bc data) s).mem = s.mem ∨
      ∃ vs, vs.length = qty.toNat ∧
        (routeWriteRegs i (.full addr qty bc data) s).mem = (bankWriteRegs .hr addr.toNat vs s).mem := by
  simp only [routeWriteRegs]
  split_ifs with hrange hvalue
  · exact .inl rfl
  · exact .inl rfl
  · cases hd : dsWriteRegs (.server i) .hr addr.toNat (bytesRegs data) s with
    | wait => exact .inl rfl
    | serverFailure => exact .inl rfl
    | done u s' =>
      obtain ⟨rfl, -, -⟩ := dsWriteRegs_done _ _ _ _ _ _ _ hd
      exact .inr ⟨_, multiValueOk_length qty bc data _ hvalue, rfl⟩

/-- The frame of every instruction at `S[i]`, but for what it does to CO and HR: no field other than the agents and
the banks, no other agent, of `S[i]` only its position and response, and neither DI nor IR (R127, R137). -/
theorem Routed.frame {i : Nat} {s t : State} (h : Routed i s t) :
    { t with conns := s.conns, mem := s.mem } = s ∧ (∀ n, n ≠ i → connAt t n = connAt s n) ∧
      (sparseWf Conn.reset s.conns = true →
        { connAt t i with fsm := (connAt s i).fsm, resp := (connAt s i).resp } = connAt s i) ∧
      t.mem.di = s.mem.di ∧ t.mem.ir = s.mem.ir := by
  cases h with
  | waits => exact ⟨rfl, fun _ _ => rfl, fun _ => rfl, rfl, rfl⟩
  | answered pdu s' hs =>
    obtain ⟨hfields, hdi, hir⟩ := hs.fields
    obtain ⟨-, -, hconns⟩ := hs.keeps_agents
    have hat (n : Nat) : connAt s' n = connAt s n := connAt_congr s' s hconns n
    refine ⟨?_, fun n hn => ?_, fun hw => ?_, hdi, hir⟩
    · rw [← hconns]
      exact hfields
    · rw [answer, connAt_setConn_other _ _ _ _ hn, hat]
    · rw [answer, connAt_setConn _ _ _ _ (hconns ▸ hw), if_pos rfl, hat]

/-- The next state of an instruction at `S[i]` is one a ROUTE step of `S[i]` can end in (R115). -/
theorem routed_of_exec {s t : State} {i : Nat} {instr : Instr} (ha : s.active = .server i)
    (h : exec instr s = .next t) : Routed i s t := by
  obtain ⟨t', ht, hr⟩ := exec_server instr i s ha
  rw [h] at ht
  cases ht
  exact hr

/-- Settles O12: no read and no EXC changes a bank, and the frame of every instruction gives the rest. -/
theorem readsLeaveEverythingElse : Obligations.ReadsLeaveEverythingElse := by
  intro s t i instr ha hi h
  have hmem : t.mem = s.mem := by
    obtain ⟨p, rfl | rfl | rfl | rfl⟩ | ⟨fc, e, rfl⟩ := hi <;>
      simp only [exec, execRc, execRdi, execRhr, execRir, execExc, ha, Host.Outcome.next.injEq] at h <;>
      subst h
    · exact routeReadBits_mem _ _ _ _ _
    · exact routeReadBits_mem _ _ _ _ _
    · exact routeReadRegs_mem _ _ _ _ _
    · exact routeReadRegs_mem _ _ _ _ _
    · rfl
  obtain ⟨hrest, hother, hself, -, -⟩ := (routed_of_exec ha h).frame
  rw [← hmem] at hrest
  exact ⟨hrest, hother, hself⟩

/-- Settles O13: the frame of every instruction, and for each write the one run of cells it can replace. -/
theorem writesLeaveEverythingElse : Obligations.WritesLeaveEverythingElse := by
  intro s t i instr ha hi h
  obtain ⟨hrest, hother, hself, hdi, hir⟩ := (routed_of_exec ha h).frame
  refine ⟨hrest, hother, hself, hdi, hir, ?_⟩
  obtain ⟨p, rfl | rfl⟩ | ⟨m, rfl⟩ := hi <;>
    simp only [exec, execWsc, execWsr, execWmr, ha, Host.Outcome.next.injEq] at h <;>
    subst h
  · cases p with
    | cut payload => rfl
    | full addr value tail =>
      obtain hm | ⟨v, hm⟩ := routeWriteCoil_mem i addr value tail s <;> simp only [hm]
      · exact ⟨trivial, fun _ _ => trivial⟩
      · exact ⟨rfl, fun a hne => sparseGet_writeCells_outside _ _ _ _ (Nat.lt_or_gt_of_ne hne)⟩
  · cases p with
    | cut payload => rfl
    | full addr value tail =>
      obtain hm | hm := routeWriteReg_mem i addr value tail s <;> simp only [hm]
      · exact ⟨trivial, fun _ _ => trivial⟩
      · exact ⟨rfl, fun a hne => sparseGet_writeCells_outside _ _ _ _ (Nat.lt_or_gt_of_ne hne)⟩
  · cases m with
    | cut payload => rfl
    | full addr qty bc data =>
      obtain hm | ⟨vs, hlen, hm⟩ := routeWriteRegs_mem i addr qty bc data s <;> simp only [hm]
      · exact ⟨trivial, fun _ _ => trivial⟩
      · exact ⟨rfl, fun a hout => sparseGet_writeCells_outside _ _ _ _ (by omega)⟩

/-! The seed port with the bank's lock free (R67). -/

theorem seedReadOffer_regs_free (r : RegBank) (addr n : Nat) (s : State)
    (hl : lockOf s.locks (.regs r) = .free) :
    seedReadOffer (.regs r) addr n s = if addr + n ≤ capRegs s.cfg r
      then .next (emit (.cells (.regs r) ((readCells (s.mem.regs r) addr n).map BitVec.toNat)) s)
      else .refused .seedRange := by
  simp only [seedReadOffer, dsReadRegs_free _ _ _ _ _ hl, inRange_true]
  split_ifs <;> rfl

theorem seedReadOffer_bits_free (b : BitBank) (addr n : Nat) (s : State)
    (hl : lockOf s.locks (.bits b) = .free) :
    seedReadOffer (.bits b) addr n s = if addr + n ≤ capBits s.cfg b
      then .next (emit (.cells (.bits b) ((readCells (s.mem.bits b) addr n).map BitVec.toNat)) s)
      else .refused .seedRange := by
  simp only [seedReadOffer, dsReadBits_free _ _ _ _ _ hl, inRange_true]
  split_ifs <;> rfl

theorem seedWriteOffer_regs_free (r : RegBank) (addr : Nat) (vals : List Nat) (s : State)
    (hl : lockOf s.locks (.regs r) = .free) :
    seedWriteOffer (.regs r) addr vals s = if addr + vals.length ≤ capRegs s.cfg r ∧ (∀ v ∈ vals, v < 65536)
      then .next (bankWriteRegs r addr (vals.map (BitVec.ofNat 16)) s)
      else .refused .seedRange := by
  simp only [seedWriteOffer, dsWriteRegs_free _ _ _ _ _ hl, inRange_true, List.length_map, List.all_eq_true,
    decide_eq_true_eq]
  by_cases hfit : ∀ v ∈ vals, v < 65536
  · simp only [if_pos hfit, and_iff_left hfit]
    split_ifs <;> rfl
  · rw [if_neg hfit, if_neg (fun h => hfit h.2)]

theorem seedWriteOffer_bits_free (b : BitBank) (addr : Nat) (vals : List Nat) (s : State)
    (hl : lockOf s.locks (.bits b) = .free) :
    seedWriteOffer (.bits b) addr vals s = if addr + vals.length ≤ capBits s.cfg b ∧ (∀ v ∈ vals, v < 2)
      then .next (bankWriteBits b addr (vals.map (BitVec.ofNat 1)) s)
      else .refused .seedRange := by
  simp only [seedWriteOffer, dsWriteBits_free _ _ _ _ _ hl, inRange_true, List.length_map, List.all_eq_true,
    decide_eq_true_eq]
  by_cases hfit : ∀ v ∈ vals, v < 2
  · simp only [if_pos hfit, and_iff_left hfit]
    split_ifs <;> rfl
  · rw [if_neg hfit, if_neg (fun h => hfit h.2)]

/-- Settles O18: with the lock free each of the four seed accesses is granted exactly inside its domain. -/
theorem seedPort : Obligations.SeedPort := by
  intro s r b addr n vals rest hlegal hr hb
  refine ⟨fun hs => ?_, fun hs => ?_, fun hs => ?_, fun hs => ?_⟩ <;> rw [step_of_sched s _ rest hlegal hs]
  · exact seedReadOffer_regs_free r addr n { s with sched := rest } hr
  · exact seedWriteOffer_regs_free r addr vals { s with sched := rest } hr
  · exact seedReadOffer_bits_free b addr n { s with sched := rest } hb
  · exact seedWriteOffer_bits_free b addr vals { s with sched := rest } hb

end Sys2Proof.Machine
end

section
/-! SUPPORT. The PDU encoding and its inverse (R75 to R90), the expansion of a facade operation (R92), and the fields of
an encoded frame (R70). -/

namespace Sys2Proof.Machine

open Sys2Proof.Claims

/-! The operand forms and their payload bytes (R77, R78, R79, R83, R89). -/

/-- The words of a whole form are read back (R10), and a payload too short for the fixed part is kept as it stands. -/
theorem decodePair_bytes (p : PairForm) (h : p.formOk = true) : decodePair p.bytes = p := by
  cases p with
  | full first second tail => simp [PairForm.bytes, be16, decodePair]
  | cut payload =>
    simp only [PairForm.formOk, decide_eq_true_eq] at h
    match payload with
    | [] | [_] | [_, _] | [_, _, _] => rfl
    | _ :: _ :: _ :: _ :: _ => simp only [List.length_cons] at h; omega

theorem decodeMulti_bytes (m : MultiForm) (h : m.formOk = true) : decodeMulti m.bytes = m := by
  cases m with
  | full addr qty bc data => simp [MultiForm.bytes, be16, decodeMulti]
  | cut payload =>
    simp only [MultiForm.formOk, decide_eq_true_eq] at h
    match payload with
    | [] | [_] | [_, _] | [_, _, _] | [_, _, _, _] => rfl
    | _ :: _ :: _ :: _ :: _ :: _ => simp only [List.length_cons] at h; omega

@[simp] theorem decodeExc_bytes (e : ExcForm) : decodeExc e.bytes = e := by cases e <;> rfl

/-- The pair form read from a payload holds every byte of it, and is cut only where the payload is too short. -/
theorem bytes_decodePair (payload : List Byte) :
    (decodePair payload).bytes = payload ∧ (decodePair payload).formOk = true := by
  match payload with
  | [] | [_] | [_, _] | [_, _, _] => exact ⟨rfl, rfl⟩
  | a :: b :: c :: d :: tail => simp [decodePair, PairForm.bytes, PairForm.formOk]

theorem bytes_decodeMulti (payload : List Byte) :
    (decodeMulti payload).bytes = payload ∧ (decodeMulti payload).formOk = true := by
  match payload with
  | [] | [_] | [_, _] | [_, _, _] | [_, _, _, _] => exact ⟨rfl, rfl⟩
  | a :: b :: c :: d :: bc :: data => simp [decodeMulti, MultiForm.bytes, MultiForm.formOk]

@[simp] theorem bytes_decodeExc (payload : List Byte) : (decodeExc payload).bytes = payload := by
  cases payload <;> rfl

/-! The first byte of an exception response (R75, R83). -/

/-- Bit 7 stands above the seven bits of the function code. -/
theorem excByte_eq_cons (fc : BitVec 7) : excByte fc = BitVec.cons true fc := by
  apply BitVec.eq_of_toNat_eq
  have := fc.isLt
  simp only [excByte, BitVec.toNat_ofNat, BitVec.toNat_cons', Bool.toNat_true]
  omega

theorem excByte_getLsbD_seven (fc : BitVec 7) : (excByte fc).getLsbD 7 = true := by
  simp [excByte_eq_cons, BitVec.getLsbD_cons]

theorem excByte_low (fc : BitVec 7) : (excByte fc).extractLsb' 0 7 = fc := by
  rw [excByte_eq_cons, BitVec.extractLsb'_cons]

/-- A byte with bit 7 set is the exception byte of its low seven bits. -/
theorem excByte_of_low (b : Byte) (h : b.getLsbD 7 = true) : excByte (b.extractLsb' 0 7) = b := by
  rw [excByte_eq_cons, ← BitVec.setWidth_eq_extractLsb' (by decide)]
  exact h ▸ BitVec.cons_msb_setWidth b

/-! The decoder and the encoder (R75 to R85, R89, R90). -/

/-- A first byte with bit 7 set is none of the seven function codes, so the decoder reads an exception (R83, R85). -/
theorem decodePdu_of_getLsbD_seven (b : Byte) (payload : List Byte) (h : b.getLsbD 7 = true) :
    decodePdu (b :: payload) = .ok (.exc (b.extractLsb' 0 7) (decodeExc payload)) := by
  have hne (c : Byte) (hc : c.getLsbD 7 = false) : b ≠ c := by rintro rfl; exact absurd (h.symm.trans hc) (by decide)
  simp only [decodePdu, if_neg (hne 0x01#8 rfl), if_neg (hne 0x02#8 rfl), if_neg (hne 0x03#8 rfl),
    if_neg (hne 0x04#8 rfl), if_neg (hne 0x05#8 rfl), if_neg (hne 0x06#8 rfl), if_neg (hne 0x10#8 rfl), if_pos h]

/-- Decoding the bytes of an instruction whose form is its payload's reading gives the instruction back. -/
theorem decodePdu_encodePdu (i : Instr) (h : i.formOk = true) : decodePdu (encodePdu i) = .ok i := by
  cases i with
  | wmr m => simp [encodePdu, decodePdu, decodeMulti_bytes m h]
  | exc fc e =>
    rw [encodePdu, decodePdu_of_getLsbD_seven _ _ (excByte_getLsbD_seven fc), excByte_low, decodeExc_bytes]
  | rc p | rdi p | rhr p | rir p | wsc p | wsr p => simp [encodePdu, decodePdu, decodePair_bytes p h]

/-- No byte of a PDU the decoder accepts is dropped, and a form is cut only where the payload is too short. -/
theorem encodePdu_of_decodePdu (pdu : List Byte) (i : Instr) (h : decodePdu pdu = .ok i) :
    encodePdu i = pdu ∧ i.formOk = true := by
  cases pdu with
  | nil => cases h
  | cons fc payload =>
    obtain ⟨hpair, hpairOk⟩ := bytes_decodePair payload
    obtain ⟨hmulti, hmultiOk⟩ := bytes_decodeMulti payload
    simp only [decodePdu] at h
    split_ifs at h with h1 h2 h3 h4 h5 h6 h16 h7 <;> cases h
    · exact ⟨by rw [encodePdu, hpair, h1], hpairOk⟩
    · exact ⟨by rw [encodePdu, hpair, h2], hpairOk⟩
    · exact ⟨by rw [encodePdu, hpair, h3], hpairOk⟩
    · exact ⟨by rw [encodePdu, hpair, h4], hpairOk⟩
    · exact ⟨by rw [encodePdu, hpair, h5], hpairOk⟩
    · exact ⟨by rw [encodePdu, hpair, h6], hpairOk⟩
    · exact ⟨by rw [encodePdu, hmulti, h16], hmultiOk⟩
    · exact ⟨by rw [encodePdu, excByte_of_low fc h7, bytes_decodeExc], rfl⟩

/-- An encoded PDU has the length that well-formedness bounds (R76). -/
theorem encodePdu_length (i : Instr) : (encodePdu i).length = i.pduLength := by
  cases i with
  | rc p => exact (Laws.EncodeLength.rc p).1
  | rdi p => exact (Laws.EncodeLength.rdi p).1
  | rhr p => exact (Laws.EncodeLength.rhr p).1
  | rir p => exact (Laws.EncodeLength.rir p).1
  | wsc p => exact (Laws.EncodeLength.wsc p).1
  | wsr p => exact (Laws.EncodeLength.wsr p).1
  | wmr m => exact (Laws.EncodeLength.wmr m).1
  | exc fc e => exact (Laws.EncodeLength.exc fc e).1

theorem wellFormed_iff (maxPdu : Nat) (i : Instr) :
    i.wellFormed maxPdu = true ↔ i.formOk = true ∧ i.pduLength ≤ maxPdu := by
  rw [Instr.wellFormed, Bool.and_eq_true, decide_eq_true_eq]

/-- Settles O20: only the form matters to the decoder, whatever the bound on the length. -/
theorem decodeEncode : Obligations.DecodeEncode := fun maxPdu i h =>
  decodePdu_encodePdu i ((wellFormed_iff maxPdu i).1 h).1

/-- Settles O21: the encoding is the PDU itself, so its length is the instruction's. -/
theorem encodeDecode : Obligations.EncodeDecode := by
  intro p i h
  obtain ⟨rfl, hform⟩ := encodePdu_of_decodePdu p i h
  exact ⟨rfl, (wellFormed_iff _ i).2 ⟨hform, (encodePdu_length i).ge⟩⟩

/-- Settles O22: each word is the encoding of its instruction. -/
theorem wordsDecode : Obligations.WordsDecode :=
  ⟨decodePdu_encodePdu (.rc (.full 2 9 [])) rfl,
    decodePdu_encodePdu (.wmr (.full 98 2 4 [0x00#8, 0x07#8, 0x00#8, 0x08#8])) rfl,
    decodePdu_encodePdu (.exc 3 (.full 2 [])) rfl⟩

/-! The request PDU of a facade operation (R92, R182 to R187). -/

theorem build_pdu (op : FacadeOp) : (build op).pdu = encodePdu (expansion op) := by cases op <;> rfl

theorem expansion_formOk (op : FacadeOp) : (expansion op).formOk = true := by cases op <;> rfl

/-- Settles O41: what is built is an encoding, and so decodes; its length is bounded by the operation's domain. -/
theorem facadeExpansion : Obligations.FacadeExpansion := by
  intro c op hl hd
  refine ⟨build_pdu op, ?_, build_pdu_length c op hl hd⟩
  rw [build_pdu]
  exact decodePdu_encodePdu _ (expansion_formOk op)

/-! The fields of a frame (R70). -/

/-- Settles O24: the fields are read off the bytes `Encode` lists; the length field holds a number below 65536. -/
theorem frameLayout : Obligations.FrameLayout := by
  intro maxPdu tid uid pdu hmax h1 h2
  refine ⟨_, (encodeFrame_eq_some ..).2 ⟨⟨h1, h2⟩, rfl⟩, ?_, ?_, ?_, ?_, rfl, rfl⟩
  · simp only [List.length_append, be16_length, List.length_cons, List.length_nil]
  · exact wordOf_be16 tid
  · change wordOf 0x00#8 0x00#8 = 0x0000#16
    decide
  · exact (congrArg BitVec.toNat (wordOf_be16 _)).trans (toNat_ofNat16 _ (by omega))

end Sys2Proof.Machine
end

section
/-! SUPPORT. The frame codec's inverse and its verdicts (R100 to R106), and the deframer fed with a whole frame (R107,
R108). -/

namespace Sys2Proof.Machine

open Sys2Proof.Claims

/-! The codec (R100 to R106). -/

/-- A byte sequence as long as a header is its three words, its unit id and the bytes after it (R70). -/
theorem header_append (b : List Byte) (h : 7 ≤ b.length) :
    be16 (u16 b 0) ++ be16 (u16 b 2) ++ be16 (u16 b 4) ++ [b.getD 6 0] ++ b.drop 7 = b := by
  match b with
  | a0 :: a1 :: a2 :: a3 :: a4 :: a5 :: a6 :: tail => simp [u16]
  | [] | [_] | [_, _] | [_, _, _] | [_, _, _, _] | [_, _, _, _, _] | [_, _, _, _, _, _] => simp at h

/-- `Decode` gives back the fields of an encoded frame (R105). -/
theorem decodeFrame_encodeFrame (maxPdu : Nat) (tid : Word) (uid : Byte) (pdu bytes : List Byte)
    (hmax : maxPdu ≤ 65534) (h : encodeFrame maxPdu tid uid pdu = some bytes) :
    decodeFrame maxPdu bytes = .frame { tid := tid, uid := uid, pdu := pdu } := by
  obtain ⟨⟨h1, h2⟩, -⟩ := (encodeFrame_eq_some ..).1 h
  obtain ⟨b, hb, hlen, htid, hproto, hfield, huid, hpdu⟩ := frameLayout maxPdu tid uid pdu hmax h1 h2
  obtain rfl : b = bytes := Option.some.inj (hb.symm.trans h)
  refine (decodeFrame_eq_frame ..).2 ⟨by omega, hproto, ?_, ?_, ?_⟩
  · rw [lengthField]; omega
  · rw [lengthField]; omega
  · rw [htid, hpdu, List.getD_eq_getElem?_getD, huid, Option.getD_some]

/-- A byte sequence that decodes is the encoding of its frame (R106). -/
theorem encodeFrame_decodeFrame (maxPdu : Nat) (b : List Byte) (f : Frame) (h : decodeFrame maxPdu b = .frame f) :
    encodeFrame maxPdu f.tid f.uid f.pdu = some b := by
  obtain ⟨hlen, hproto, hfield, -, hf⟩ := (decodeFrame_eq_frame ..).1 h
  refine (encodeFrame_eq_some ..).2 ⟨decodeFrame_pdu_length _ _ _ h, ?_⟩
  have hword : BitVec.ofNat 16 (1 + f.pdu.length) = u16 b 4 := by
    have hlength : 1 + f.pdu.length = lengthField b := by rw [hf, List.length_drop]; omega
    rw [hlength]
    exact BitVec.ofNat_toNat 16 _
  have hbytes := header_append b (by omega)
  rw [hproto] at hbytes
  rw [hword, hf]
  exact hbytes.symm

/-- Settles O23: the fields are where `Decode` reads them, and the header of a frame that decodes is fixed by its
fields. -/
theorem frameCodecInverse : Obligations.FrameCodecInverse :=
  ⟨decodeFrame_encodeFrame, fun maxPdu b f _ h => encodeFrame_decodeFrame maxPdu b f h⟩

/-- Settles O25: each check of `Decode` decides its verdict for the sequences that passed the checks before it. -/
theorem decodeVerdicts : Obligations.DecodeVerdicts := by
  intro maxPdu b
  unfold decodeFrame lengthField
  refine ⟨?_, fun h7 => ?_, fun h7 hproto => ?_, fun h7 hproto hlen => ⟨?_, ?_, fun h8 hmax => ?_⟩⟩
  · split_ifs <;> simp [*]
  · rw [if_neg (by omega)]
    split_ifs <;> simp [*]
  · rw [if_neg (by omega), if_neg (not_not_intro hproto)]
    split_ifs <;> simp [*]
  all_goals rw [if_neg (by omega), if_neg (not_not_intro hproto), if_neg (not_not_intro hlen), hlen]
  · split_ifs <;> simp <;> omega
  · split_ifs <;> simp <;> omega
  · rw [if_neg (by omega), if_neg (by omega)]

/-- Settles O26: each port runs its codec function and emits the result. -/
theorem codecPort : Obligations.CodecPort := by
  intro s tid uid pdu b rest hl
  refine ⟨fun hs => ?_, fun hs => ?_⟩ <;> rw [step_of_sched s _ rest hl hs]
  · simp only [takeOffer, encodeOffer, encodeFrame]
    split_ifs <;> rfl
  · simp only [takeOffer, decodeOffer]
    cases decodeFrame s.cfg.maxPdu b <;> rfl

/-! The deframer (R107, R108). -/

/-- At the sixth byte the header check decides (R108). -/
theorem deframe_of_six (maxPdu : Nat) (rx : List Byte) (x : Byte) (h : (rx ++ [x]).length = 6) :
    deframe maxPdu rx x = (headerCheck maxPdu (rx ++ [x])).elim (.more (rx ++ [x])) .malformed := by
  simp only [deframe, h, lt_irrefl, if_false, if_true]
  cases headerCheck maxPdu (rx ++ [x]) <;> rfl

/-- Settles O33: the verdict is the header check's, whose tests stand in the same order. -/
theorem headerCheckedAtSixBytes : Obligations.HeaderCheckedAtSixBytes := by
  intro maxPdu rx x hlen
  rw [deframe_of_six maxPdu rx x (by simp [hlen])]
  unfold headerCheck lengthField
  split_ifs <;> rfl

/-- The last byte of a frame completes it. -/
theorem deframe_of_whole (maxPdu : Nat) (rx : List Byte) (x : Byte) (f : Frame)
    (h : decodeFrame maxPdu (rx ++ [x]) = .frame f) : deframe maxPdu rx x = .frame f := by
  obtain ⟨h8, -, hfield, -, -⟩ := (decodeFrame_eq_frame ..).1 h
  simp only [deframe]
  rw [if_neg (by omega), if_neg (by omega), if_neg (by omega), h]

/-- Every byte of a frame before its last is kept: the header passes its check, and the frame is not complete. -/
theorem deframe_before_last (maxPdu : Nat) (rx ys : List Byte) (x : Byte) (f : Frame) (hys : ys ≠ [])
    (h : decodeFrame maxPdu (rx ++ [x] ++ ys) = .frame f) : deframe maxPdu rx x = .more (rx ++ [x]) := by
  obtain ⟨h8, hproto, hfield, hmax, -⟩ := (decodeFrame_eq_frame ..).1 h
  have hpos := List.length_pos_iff.2 hys
  rw [List.length_append] at hfield h8
  simp only [deframe]
  by_cases hshort : (rx ++ [x]).length < 6
  · rw [if_pos hshort]
  · rw [u16_append _ _ _ (by omega)] at hproto
    rw [lengthField_append _ _ (by omega)] at hfield hmax
    by_cases hsix : (rx ++ [x]).length = 6
    · rw [if_neg hshort, if_pos hsix, headerCheck, if_neg (not_not_intro hproto), if_neg (by omega),
        if_neg (by omega)]
    · rw [if_neg hshort, if_neg hsix, if_pos (by omega)]

end Sys2Proof.Machine
end

section
/-! SUPPORT. The server's frame loop step by step: open, receive, route and reply (R111 to R117), and a whole request
served from its first byte to its reply (R138). -/

namespace Sys2Proof.Machine

open Sys2Proof.Claims

/-! Runs of several steps. -/

/-- A run of `k + n` steps goes on from where its first `k` steps lead. -/
theorem run_add (M : Host.Core) (k n : Nat) (s t : M.State) (h : M.run k s = .next t) :
    M.run (k + n) s = M.run n t := by
  induction k generalizing s with
  | zero =>
    cases h
    rw [Nat.zero_add]
  | succ k ih =>
    rw [Nat.succ_add]
    simp only [Host.Core.run] at h ⊢
    cases hs : M.step s with
    | next s' => rw [hs] at h; exact ih s' h
    | fault r => rw [hs] at h; cases h
    | refused r => rw [hs] at h; cases h

/-- A step that goes on begins a run. -/
theorem run_succ (n : Nat) (s t : State) (h : step s = .next t) :
    Host.Core.run core (n + 1) s = Host.Core.run core n t := by
  rw [Nat.add_comm]
  refine run_add core 1 n s t ?_
  simp only [Host.Core.run, core, h]

/-! Writing one server agent. -/

/-- Of two writes of one agent the later counts. -/
theorem setConn_setConn (i : Nat) (c c' : Conn) (s : State) (hw : sparseWf Conn.reset s.conns = true) :
    setConn i c' (setConn i c s) = setConn i c' s := by
  simp only [setConn, sparsePut_put _ _ _ _ _ hw]

theorem connAt_setConn_same (i : Nat) (c : Conn) (s : State) (hw : sparseWf Conn.reset s.conns = true) :
    connAt (setConn i c s) i = c := sparseGet_put_same _ _ _ _ hw

/-! Opening a connection (R112). -/

theorem below_eq_true (count : Option Nat) (i : Nat) (h : ∀ n, count = some n → i < n) : below count i = true := by
  cases count with
  | none => rfl
  | some n => exact (below_some n i).2 (h n rfl)

/-- Settles O31: the open looks at the count of agents first, and then at the agent's position. -/
theorem openConnection : Obligations.OpenConnection := by
  intro s i rest hl hs
  rw [step_of_sched s _ rest hl hs]
  refine ⟨fun hn => ?_, fun ⟨n, hn, hi⟩ => ?_⟩
  · have hconn : hasConn s.cfg i = true := below_eq_true _ _ hn
    simp only [takeOffer, openOffer, if_pos hconn]
    rfl
  · have hconn : ¬ hasConn s.cfg i = true := by simp [hasConn, hn, hi]
    simp only [takeOffer, openOffer, if_neg hconn]

/-! Receiving (R113, R114, R117). -/

/-- `S[i]` still in RECV, with `rx` in its buffer and `inp` left in its stream (R113). -/
def buffered (i : Nat) (rx : List Byte) (inp : List StreamItem) (s : State) : State :=
  setConn i { connAt s i with rx := rx, inp := inp } s

/-- `S[i]` in ROUTE with the frame `f` in its registers, its buffer empty and `inp` left in its stream (R113). -/
def received (i : Nat) (f : Frame) (inp : List StreamItem) (s : State) : State :=
  setConn i { connAt s i with
    fsm := .route, rx := [], tid := f.tid, uid := f.uid, req := f.pdu, inp := inp } s

theorem connAt_buffered (i : Nat) (rx : List Byte) (inp : List StreamItem) (s : State)
    (hw : sparseWf Conn.reset s.conns = true) :
    connAt (buffered i rx inp s) i = { connAt s i with rx := rx, inp := inp } := connAt_setConn_same _ _ _ hw

theorem connAt_received (i : Nat) (f : Frame) (inp : List StreamItem) (s : State)
    (hw : sparseWf Conn.reset s.conns = true) :
    connAt (received i f inp s) i = { connAt s i with
      fsm := .route, rx := [], tid := f.tid, uid := f.uid, req := f.pdu, inp := inp } :=
  connAt_setConn_same _ _ _ hw

/-- What was buffered before a frame is complete leaves no trace once it is. -/
theorem received_buffered (i : Nat) (f : Frame) (rx : List Byte) (inp inp' : List StreamItem) (s : State)
    (hw : sparseWf Conn.reset s.conns = true) :
    received i f inp (buffered i rx inp' s) = received i f inp s := by
  simp only [received, buffered, connAt_setConn_same _ _ _ hw, setConn_setConn _ _ _ _ hw]

/-- A byte that completes no frame is kept (R113). -/
theorem receiveOffer_more (s : State) (i : Nat) (x : Byte) (inp : List StreamItem) (rx : List Byte)
    (hf : (connAt s i).fsm = .recv) (hi : (connAt s i).inp = .byte x :: inp)
    (hd : deframe s.cfg.maxPdu (connAt s i).rx x = .more rx) : receiveOffer i s = buffered i rx inp s := by
  simp only [receiveOffer, if_pos hf, hi, receiveByte, hd, buffered]

/-- The byte that completes a frame puts the agent in ROUTE with its fields (R113). -/
theorem receiveOffer_frame (s : State) (i : Nat) (x : Byte) (inp : List StreamItem) (f : Frame)
    (hf : (connAt s i).fsm = .recv) (hi : (connAt s i).inp = .byte x :: inp)
    (hd : deframe s.cfg.maxPdu (connAt s i).rx x = .frame f) : receiveOffer i s = received i f inp s := by
  simp only [receiveOffer, if_pos hf, hi, receiveByte, hd, received]

/-- A malformed byte, an EOF and an I/O error close the connection (R114, R117). -/
theorem receiveOffer_close (s : State) (i : Nat) (x : StreamItem) (inp : List StreamItem)
    (hw : sparseWf Conn.reset s.conns = true) (hf : (connAt s i).fsm = .recv) (hi : (connAt s i).inp = x :: inp)
    (hd : ∀ b, x = .byte b → ∃ tag, deframe s.cfg.maxPdu (connAt s i).rx b = .malformed tag) :
    receiveOffer i s =
      emit (.close i) (setConn i { connAt s i with fsm := .closed, rx := [], inp := inp } s) := by
  have hclose : receiveOffer i s = closeConn i (setConn i { connAt s i with inp := inp } s) := by
    simp only [receiveOffer, if_pos hf, hi]
    cases x with
    | eof => rfl
    | ioError => rfl
    | byte b =>
      obtain ⟨tag, hd⟩ := hd b rfl
      simp only [receiveByte, hd]
  rw [hclose, closeConn, connAt_setConn_same _ _ _ hw, setConn_setConn _ _ _ _ hw]

/-- Settles O32: the step with the offer taken is the close. -/
theorem badStreamClosesConnection : Obligations.BadStreamClosesConnection := by
  intro s i x inp rest hl hw hs hf hi hd
  rw [step_of_sched s _ rest hl hs]
  exact congrArg Host.Outcome.next (receiveOffer_close { s with sched := rest } i x inp hw hf hi hd)

theorem step_receive_more (s : State) (i : Nat) (x : Byte) (inp : List StreamItem) (rx : List Byte)
    (rest : List Offer) (hl : s.cfg.legal = true) (hs : s.sched = .receive i :: rest)
    (hf : (connAt s i).fsm = .recv) (hi : (connAt s i).inp = .byte x :: inp)
    (hd : deframe s.cfg.maxPdu (connAt s i).rx x = .more rx) :
    step s = .next (buffered i rx inp { s with sched := rest }) := by
  rw [step_of_sched s _ rest hl hs]
  exact congrArg Host.Outcome.next (receiveOffer_more { s with sched := rest } i x inp rx hf hi hd)

theorem step_receive_frame (s : State) (i : Nat) (x : Byte) (inp : List StreamItem) (f : Frame)
    (rest : List Offer) (hl : s.cfg.legal = true) (hs : s.sched = .receive i :: rest)
    (hf : (connAt s i).fsm = .recv) (hi : (connAt s i).inp = .byte x :: inp)
    (hd : deframe s.cfg.maxPdu (connAt s i).rx x = .frame f) :
    step s = .next (received i f inp { s with sched := rest }) := by
  rw [step_of_sched s _ rest hl hs]
  exact congrArg Host.Outcome.next (receiveOffer_frame { s with sched := rest } i x inp f hf hi hd)

/-- The bytes a frame still lacks, taken one a step, complete it: by induction on them, one at least. -/
theorem run_receive (i : Nat) (f : Frame) (inp : List StreamItem) (rest : List Offer) (x : Byte) (ys : List Byte)
    (s : State) (hl : s.cfg.legal = true) (hw : sparseWf Conn.reset s.conns = true)
    (hd : decodeFrame s.cfg.maxPdu ((connAt s i).rx ++ x :: ys) = .frame f) (hf : (connAt s i).fsm = .recv)
    (hi : (connAt s i).inp = (x :: ys).map StreamItem.byte ++ inp)
    (hs : s.sched = List.replicate (x :: ys).length (.receive i) ++ rest) :
    Host.Core.run core (x :: ys).length s = .next (received i f inp { s with sched := rest }) := by
  induction ys generalizing x s with
  | nil =>
    exact run_succ 0 _ _ (step_receive_frame s i x inp f rest hl hs hf hi (deframe_of_whole _ _ _ _ hd))
  | cons y ys ih =>
    rw [List.append_cons] at hd
    have hmore := deframe_before_last _ _ _ _ _ (List.cons_ne_nil y ys) hd
    have hstep := step_receive_more s i x _ _ _ hl hs hf hi hmore
    have hconn := connAt_buffered i ((connAt s i).rx ++ [x]) ((y :: ys).map .byte ++ inp)
      { s with sched := List.replicate (y :: ys).length (.receive i) ++ rest } hw
    refine (run_succ _ _ _ hstep).trans ((ih y _ ?_ ?_ ?_ ?_ ?_ ?_).trans ?_)
    · exact hl
    · exact sparsePut_wf _ _ _ _ hw
    · exact hconn ▸ hd
    · exact hconn ▸ hf
    · exact hconn ▸ rfl
    · rfl
    · exact congrArg Host.Outcome.next (received_buffered i f _ inp _ { s with sched := rest } hw)

/-- As many receive steps as an encoded frame has bytes put it in the agent's registers (R107 to R109, R113). -/
theorem run_receive_frame (s : State) (i : Nat) (tid : Word) (uid : Byte) (pdu bytes : List Byte)
    (inp : List StreamItem) (rest : List Offer) (hl : s.cfg.legal = true)
    (hw : sparseWf Conn.reset s.conns = true) (he : encodeFrame s.cfg.maxPdu tid uid pdu = some bytes)
    (hf : (connAt s i).fsm = .recv) (hrx : (connAt s i).rx = [])
    (hi : (connAt s i).inp = bytes.map StreamItem.byte ++ inp)
    (hs : s.sched = List.replicate bytes.length (.receive i) ++ rest) :
    Host.Core.run core bytes.length s =
      .next (received i { tid := tid, uid := uid, pdu := pdu } inp { s with sched := rest }) := by
  obtain ⟨-, -, ⟨-, hmax⟩, -⟩ := legal_bounds _ hl
  have hd := decodeFrame_encodeFrame _ _ _ _ _ hmax he
  cases bytes with
  | nil => cases hd
  | cons x ys => exact run_receive i _ inp rest x ys s hl hw (by rw [hrx]; exact hd) hf hi hs

/-- Settles O29: a frame decodes only when its last byte is there. -/
theorem receiveExactlyOneFrame : Obligations.ReceiveExactlyOneFrame := run_receive_frame

/-! Routing (R115, R138). -/

/-- Settles O27: the route step decodes and executes. -/
theorem routeStepRunsDecoded : Obligations.RouteStepRunsDecoded := by
  intro s i instr rest hl hs hf hd
  rw [step_of_sched s _ rest hl hs]
  change routeOffer i { s with sched := rest } = _
  have hf' : (connAt { s with sched := rest } i).fsm = .route := hf
  have hd' : decodePdu (connAt { s with sched := rest } i).req = .ok instr := hd
  simp only [routeOffer, if_pos hf', hd']

/-! With the locks free no request waits (R25, R138). -/

section Replies

variable (i : Nat) (s : State) (hl : locksFree s) (hw : sparseWf Conn.reset s.conns = true)

include hw in
/-- An answered agent is in REPLY (R115). -/
theorem answer_fsm (pdu : List Byte) : (connAt (answer i pdu s) i).fsm = .reply := by
  rw [answer, connAt_setConn_same _ _ _ hw]

include hw in
theorem raiseExc_fsm (fc : Byte) (code : ExcCode) : (connAt (raiseExc i fc code s) i).fsm = .reply :=
  answer_fsm i s hw _

include hl hw

theorem routeReadBits_fsm (fc : Byte) (b : BitBank) (p : PairForm) :
    (connAt (routeReadBits fc b i p s) i).fsm = .reply := by
  have hexc := raiseExc_fsm i s hw
  unfold routeReadBits
  cases p with
  | cut payload => exact hexc _ _
  | full addr qty tail =>
    simp only [dsReadBits_free _ _ _ _ _ (hl _)]
    split_ifs
    · exact hexc _ _
    · exact hexc _ _
    · exact answer_fsm i s hw _
    · exact hexc _ _

theorem routeReadRegs_fsm (fc : Byte) (r : RegBank) (p : PairForm) :
    (connAt (routeReadRegs fc r i p s) i).fsm = .reply := by
  have hexc := raiseExc_fsm i s hw
  unfold routeReadRegs
  cases p with
  | cut payload => exact hexc _ _
  | full addr qty tail =>
    simp only [dsReadRegs_free _ _ _ _ _ (hl _)]
    split_ifs
    · exact hexc _ _
    · exact hexc _ _
    · exact answer_fsm i s hw _
    · exact hexc _ _

theorem routeWriteCoil_fsm (p : PairForm) : (connAt (routeWriteCoil i p s) i).fsm = .reply := by
  have hexc := raiseExc_fsm i s hw
  unfold routeWriteCoil
  cases p with
  | cut payload => exact hexc _ _
  | full addr value tail =>
    simp only
    split_ifs
    · exact hexc _ _
    · exact hexc _ _
    · cases coilOf value with
      | none => exact hexc _ _
      | some v =>
        simp only [dsWriteBits_free _ _ _ _ _ (hl _)]
        split_ifs
        · exact answer_fsm i (bankWriteBits _ _ _ s) hw _
        · exact hexc _ _

theorem routeWriteReg_fsm (p : PairForm) : (connAt (routeWriteReg i p s) i).fsm = .reply := by
  have hexc := raiseExc_fsm i s hw
  unfold routeWriteReg
  cases p with
  | cut payload => exact hexc _ _
  | full addr value tail =>
    simp only [dsWriteRegs_free _ _ _ _ _ (hl _)]
    split_ifs
    · exact hexc _ _
    · exact hexc _ _
    · exact answer_fsm i (bankWriteRegs _ _ _ s) hw _
    · exact hexc _ _

theorem routeWriteRegs_fsm (m : MultiForm) : (connAt (routeWriteRegs i m s) i).fsm = .reply := by
  have hexc := raiseExc_fsm i s hw
  unfold routeWriteRegs
  cases m with
  | cut payload => exact hexc _ _
  | full addr qty bc data =>
    simp only [dsWriteRegs_free _ _ _ _ _ (hl _)]
    split_ifs
    · exact hexc _ _
    · exact hexc _ _
    · exact answer_fsm i (bankWriteRegs _ _ _ s) hw _
    · exact hexc _ _

/-- Every instruction at a server agent is answered in its ROUTE step (R138). -/
theorem exec_fsm (instr : Instr) (ha : s.active = .server i) :
    ∃ t, exec instr s = .next t ∧ (connAt t i).fsm = .reply := by
  cases instr <;>
    simp only [exec, execRc, execRdi, execRhr, execRir, execWsc, execWsr, execWmr, execExc, ha]
  case rc p => exact ⟨_, rfl, routeReadBits_fsm i s hl hw _ _ p⟩
  case rdi p => exact ⟨_, rfl, routeReadBits_fsm i s hl hw _ _ p⟩
  case rhr p => exact ⟨_, rfl, routeReadRegs_fsm i s hl hw _ _ p⟩
  case rir p => exact ⟨_, rfl, routeReadRegs_fsm i s hl hw _ _ p⟩
  case wsc p => exact ⟨_, rfl, routeWriteCoil_fsm i s hl hw p⟩
  case wsr p => exact ⟨_, rfl, routeWriteReg_fsm i s hl hw p⟩
  case wmr m => exact ⟨_, rfl, routeWriteRegs_fsm i s hl hw m⟩
  case exc fc e => exact ⟨_, rfl, raiseExc_fsm i s hw _ _⟩

/-- A request of one byte or more is answered in its ROUTE step, whatever its function code (R115, R138). -/
theorem routeOffer_fsm (hf : (connAt s i).fsm = .route) (hreq : 1 ≤ (connAt s i).req.length) :
    ∃ t, routeOffer i s = .next t ∧ (connAt t i).fsm = .reply := by
  simp only [routeOffer, if_pos hf]
  cases hd : decodePdu (connAt s i).req with
  | ok instr => exact exec_fsm i { s with active := .server i } hl hw instr rfl
  | error e =>
    cases e with
    | emptyPdu => exact absurd hd (decodePdu_ne_emptyPdu _ hreq)
    | illegalFunction fc => exact ⟨_, rfl, raiseExc_fsm i { s with active := .server i } hw _ _⟩

/-- With the locks free a ROUTE step answers, after at most one bank access, with a PDU of 2 to MAX_PDU bytes
(R115, R120, R138). -/
theorem routeOffer_answers (hf : (connAt s i).fsm = .route) (hreq : 1 ≤ (connAt s i).req.length) :
    ∃ pdu s', routeOffer i s = .next (answer i pdu s') ∧ Accessed { s with active := .server i } s' ∧
      2 ≤ pdu.length ∧ (s.cfg.legal = true → pdu.length ≤ s.cfg.maxPdu) := by
  obtain ⟨t, ht, hreply⟩ := routeOffer_fsm i s hl hw hf hreq
  obtain ⟨hn, -⟩ | ⟨-, hr⟩ := routeOffer_cases i s t ht
  · exact absurd hf hn
  · cases hr with
    | waits => exact absurd (hf.symm.trans hreply) (by decide)
    | answered pdu s' hacc hmin hmax => exact ⟨pdu, s', ht, hacc, hmin, hmax⟩

end Replies

/-! Replying (R116, R117). -/

/-- A reply that is sent puts the agent back in RECV (R116); one that is lost closes the connection (R117). -/
theorem replyOffer_eq (s : State) (i : Nat) (sent : Bool) (frame : List Byte) (hf : (connAt s i).fsm = .reply)
    (he : encodeFrame s.cfg.maxPdu (connAt s i).tid (connAt s i).uid (connAt s i).resp = some frame) :
    replyOffer i sent s = .next (if sent
      then emit (.tx i frame true) (setConn i { connAt s i with fsm := .recv, rx := [] } s)
      else closeConn i (emit (.tx i frame false) s)) := by
  simp only [replyOffer, if_pos hf, he]
  cases sent <;> rfl

/-- Settles O34: the two branches of the reply step; in the second the reply is listed before the close. -/
theorem replyStep : Obligations.ReplyStep := by
  intro s i sent frame rest hl hs hf he
  rw [step_of_sched s _ rest hl hs]
  refine (replyOffer_eq { s with sched := rest } i sent frame hf he).trans (congrArg Host.Outcome.next ?_)
  cases sent with
  | true => rfl
  | false =>
    have houtputs := List.append_assoc s.outputs [.tx i frame false] [.close i]
    simp only [closeConn, emit, setConn, houtputs]
    rfl

/-! A whole request (R111 to R116, R138). -/

/-- The bank access of a ROUTE step emits nothing and takes no offer (R127). -/
theorem Accessed.keeps_outputs {s s' : State} (h : Accessed s s') :
    s'.outputs = s.outputs ∧ s'.sched = s.sched := by
  cases h <;> exact ⟨rfl, rfl⟩

/-- The reply of an agent just answered carries that answer, under the agent's ids (R116). -/
theorem replyOffer_answer (i : Nat) (resp frame : List Byte) (s : State) (hw : sparseWf Conn.reset s.conns = true)
    (he : encodeFrame s.cfg.maxPdu (connAt s i).tid (connAt s i).uid resp = some frame) :
    replyOffer i true (answer i resp s) = .next
      (emit (.tx i frame true) (setConn i { connAt s i with resp := resp, fsm := .recv, rx := [] } s)) := by
  have hconn : connAt (answer i resp s) i = { connAt s i with resp := resp, fsm := .reply } :=
    connAt_setConn_same _ _ _ hw
  rw [replyOffer_eq _ i true frame (by rw [hconn]) (by rw [hconn]; exact he), if_pos rfl, hconn, answer,
    setConn_setConn _ _ _ _ hw]

/-- Routing and replying: one bank access at most, then the reply under the ids in the agent's registers. -/
theorem run_route_reply (s : State) (i : Nat) (rest : List Offer) (hl : s.cfg.legal = true)
    (hw : sparseWf Conn.reset s.conns = true) (hlocks : locksFree s)
    (hs : s.sched = .route i :: .reply i true :: rest) (hf : (connAt s i).fsm = .route)
    (hreq : 1 ≤ (connAt s i).req.length) :
    ∃ (resp frame : List Byte) (s' : State),
      encodeFrame s.cfg.maxPdu (connAt s i).tid (connAt s i).uid resp = some frame ∧
      Accessed { s with sched := .reply i true :: rest, active := .server i } s' ∧
      Host.Core.run core 2 s = .next (emit (.tx i frame true)
        (setConn i { connAt s i with resp := resp, fsm := .recv, rx := [] } { s' with sched := rest })) := by
  obtain ⟨resp, s', hroute, hacc, hmin, hmax⟩ :=
    routeOffer_answers i { s with sched := .reply i true :: rest } hlocks hw hf hreq
  obtain ⟨hcfg, -, hconns⟩ := hacc.keeps_agents
  obtain ⟨-, hsched⟩ := hacc.keeps_outputs
  obtain ⟨frame, hframe⟩ :=
    encodeFrame_isSome s.cfg.maxPdu (connAt s i).tid (connAt s i).uid resp (by omega) (hmax hl)
  have hat : connAt s' i = connAt s i := connAt_congr s' s hconns i
  have hreply := replyOffer_answer i resp frame { s' with sched := rest } (hconns ▸ hw) (by
    rw [connAt_congr { s' with sched := rest } s hconns, hcfg]; exact hframe)
  rw [connAt_congr { s' with sched := rest } s hconns] at hreply
  refine ⟨resp, frame, s', hframe, hacc, ?_⟩
  have hfirst : step s = .next (answer i resp s') := (step_of_sched s _ _ hl hs).trans hroute
  have hsecond : step (answer i resp s') = replyOffer i true (answer i resp { s' with sched := rest }) :=
    step_of_sched (answer i resp s') _ rest (hcfg ▸ hl) hsched
  exact (run_succ 1 _ _ hfirst).trans (run_succ 0 _ _ (hsecond.trans hreply))

/-- Settles O30: the frame is received, and the request in the registers is routed and answered under its ids. -/
theorem serveOneRequest : Obligations.ServeOneRequest := by
  intro s i tid uid pdu bytes inp rest hl hw hlocks he hf hrx hi hs
  obtain ⟨⟨hmin, -⟩, -⟩ := (encodeFrame_eq_some ..).1 he
  have hreceive := run_receive_frame s i tid uid pdu bytes inp (.route i :: .reply i true :: rest) hl hw he hf hrx hi hs
  have hconn := connAt_received i { tid := tid, uid := uid, pdu := pdu } inp
    { s with sched := .route i :: .reply i true :: rest } hw
  obtain ⟨resp, frame, s', hframe, hacc, hserve⟩ := run_route_reply
    (received i { tid := tid, uid := uid, pdu := pdu } inp { s with sched := .route i :: .reply i true :: rest })
    i rest hl (sparsePut_wf _ _ _ _ hw) hlocks rfl (by rw [hconn]) (by rw [hconn]; exact hmin)
  rw [hconn] at hframe hserve
  obtain ⟨-, -, hconns⟩ := hacc.keeps_agents
  obtain ⟨houtputs, -⟩ := hacc.keeps_outputs
  have hlast := connAt_setConn_same i
    { connAt s i with fsm := .recv, rx := [], tid := tid, uid := uid, req := pdu, resp := resp, inp := inp }
    { s' with sched := rest } (hconns ▸ sparsePut_wf _ _ _ _ hw)
  exact ⟨_, resp, frame, (run_add core bytes.length 2 s _ hreceive).trans hserve, hframe,
    congrArg (· ++ [Output.tx i frame true]) houtputs, rfl, congrArg Conn.fsm hlast, congrArg Conn.rx hlast,
    congrArg Conn.inp hlast, hacc.outsideClient.client⟩

/-! One connection apart from the others (R220). -/

/-- Settles O37: every step of `S[i]` writes the agents at index `i` alone. -/
theorem connectionsAreIsolated : Obligations.ConnectionsAreIsolated := by
  intro s t i n o rest hs ho h hn
  obtain ⟨hl, -⟩ := step_cases s t h
  rw [step_of_sched s o rest hl hs] at h
  have hother (c : Conn) : connAt (setConn i c { s with sched := rest }) n = connAt s n :=
    connAt_setConn_other _ _ _ _ hn
  cases o with
  | openConn m =>
    obtain rfl : m = i := ho
    obtain ⟨-, ⟨-, rfl⟩ | ⟨-, rfl⟩⟩ := openOffer_cases _ _ _ h
    · rfl
    · exact hother _
  | deliver m x =>
    obtain rfl : m = i := ho
    cases h
    simp only [deliverOffer]
    split_ifs
    · rfl
    · exact hother _
  | receive m =>
    obtain rfl : m = i := ho
    cases h
    obtain h | ⟨-, x, inp, -, ⟨b, rx, -, -, h⟩ | ⟨b, f, -, -, h⟩ | ⟨-, h⟩⟩ :=
      receiveOffer_cases m { s with sched := rest } <;> rw [h]
    · rfl
    · exact hother _
    · exact hother _
    · exact (connAt_setConn_other _ _ _ _ hn).trans (hother _)
  | route m =>
    obtain rfl : m = i := ho
    obtain ⟨-, rfl⟩ | ⟨-, hr⟩ := routeOffer_cases _ _ _ h
    · rfl
    · obtain ⟨-, hothers, -⟩ := hr.frame
      exact hothers n hn
  | reply m sent =>
    obtain rfl : m = i := ho
    obtain ⟨-, rfl⟩ | ⟨-, frame, -, ⟨-, rfl⟩ | ⟨-, rfl⟩⟩ := replyOffer_cases _ _ _ _ h
    · rfl
    · exact hother _
    · exact hother _
  | _ => exact absurd ho not_false

end Sys2Proof.Machine
end

section
/-! SUPPORT. A completed response frame at the read loop, whatever its PDU (R171, R172, R173). -/

namespace Sys2Proof.Machine

open Sys2Proof.Claims

/-- A completed response frame is correlated with its own PDU: the decoder drops none of its bytes. -/
theorem clientFrame_eq_correlate (f : Frame) (s : State) :
    clientFrame f s = .next (correlate f.tid f.pdu { s with active := .client f.tid }) := by
  rw [clientFrame_eq]
  cases hd : decodePdu f.pdu with
  | ok instr =>
    obtain ⟨hbytes, -⟩ := encodePdu_of_decodePdu _ _ hd
    simp only [hbytes]
  | error e => rfl

/-- The one entry pending under the id is resolved with `Check` of the PDU (R171). -/
theorem correlate_of_onlyPending (tid : Word) (pdu : List Byte) (s : State) (k : Nat) (e : Entry)
    (h : onlyPending s tid k e) : correlate tid pdu s = resolved k e (checkResponse e pdu) s := by
  obtain ⟨he, hp, htid, honly⟩ := h
  have hindex : pendingIndex s.pt tid = some k :=
    pendingIndex_unique _ _ _ _ he hp htid fun k' e' he' hp' htid' => honly k' e' he' hp' htid'
  have hrow : s.pt.getD k Entry.reset = e := by rw [List.getD_eq_getElem?_getD, he, Option.getD_some]
  simp only [correlate, hindex, hrow, resolveAt, modify_eq_set _ _ _ _ he]
  rfl

/-- With no entry pending under the id the frame is dropped and logged (R172). -/
theorem correlate_of_nonePending (tid : Word) (pdu : List Byte) (s : State) (h : nonePending s tid) :
    correlate tid pdu s = emit (.unexpected tid) s := by
  have hindex : pendingIndex s.pt tid = none := by
    refine (pendingIndex_none _ _).2 fun e he ⟨hp, htid⟩ => ?_
    obtain ⟨k, hk⟩ := List.getElem?_of_mem he
    exact h k e hk hp htid
  simp only [correlate, hindex]

/-- Settles O45: the step that takes the last byte correlates the frame, by its id alone. -/
theorem completedFrameIsCorrelated : Obligations.CompletedFrameIsCorrelated := by
  intro s x inp f rest hl hs hup hi hd
  have hstep : step s = .next (correlate f.tid f.pdu
      { s with sched := rest, rlRx := [], clInp := inp, active := .client f.tid }) := by
    rw [step_of_sched s _ rest hl hs]
    simp only [takeOffer, clientReceiveOffer, hup, if_true, hi, hd, clientFrame_eq_correlate]
  refine ⟨fun k e h => ?_, fun h => ?_⟩ <;> rw [hstep]
  · exact congrArg Host.Outcome.next (correlate_of_onlyPending _ _ _ _ _ h)
  · exact congrArg Host.Outcome.next (correlate_of_nonePending _ _ _ h)

end Sys2Proof.Machine
end

section
/-! SUPPORT. The router with its bank's lock free (R120 to R136): what it computes from the operands, and the same from
the bytes of the request PDU. -/

namespace Sys2Proof.Machine

open Sys2Proof.Claims

/-! From the operands: the checks in the order of R121, then the access and the answer. -/

theorem routeReadBits_free (fc : Byte) (b : BitBank) (i : Nat) (addr qty : Word) (tail : List Byte) (s : State)
    (hl : lockOf s.locks (.bits b) = .free) :
    routeReadBits fc b i (.full addr qty tail) s = answer i
      (if capBits s.cfg b < addr.toNat + qty.toNat then excPdu fc .illegalDataAddress
       else if tail ≠ [] ∨ qty.toNat < 1 ∨ s.cfg.maxRdBits < qty.toNat then excPdu fc .illegalDataValue
       else rsBits fc (readCells (s.mem.bits b) addr.toNat qty.toNat)) s := by
  simp only [routeReadBits, dsReadBits_free _ _ _ _ _ hl, inRange_false, inRange_true, readValueOk_false]
  split_ifs with hrange hvalue hin
  · rfl
  · rfl
  · rfl
  · exact absurd (Nat.le_of_not_lt hrange) hin

theorem routeReadRegs_free (fc : Byte) (r : RegBank) (i : Nat) (addr qty : Word) (tail : List Byte) (s : State)
    (hl : lockOf s.locks (.regs r) = .free) :
    routeReadRegs fc r i (.full addr qty tail) s = answer i
      (if capRegs s.cfg r < addr.toNat + qty.toNat then excPdu fc .illegalDataAddress
       else if tail ≠ [] ∨ qty.toNat < 1 ∨ s.cfg.maxRdRegs < qty.toNat then excPdu fc .illegalDataValue
       else rsRegs fc (readCells (s.mem.regs r) addr.toNat qty.toNat)) s := by
  simp only [routeReadRegs, dsReadRegs_free _ _ _ _ _ hl, inRange_false, inRange_true, readValueOk_false]
  split_ifs with hrange hvalue hin
  · rfl
  · rfl
  · rfl
  · exact absurd (Nat.le_of_not_lt hrange) hin

/-- The Write Single Coil value (R78). -/
theorem coilOf_eq (value : Word) :
    coilOf value = if value ≠ 0x0000#16 ∧ value ≠ 0xFF00#16 then none
      else some (if value = 0xFF00#16 then 1#1 else 0#1) := by
  unfold coilOf
  by_cases h1 : value = 0xFF00#16
  · simp [h1]
  · by_cases h0 : value = 0x0000#16
    · simp [h0]
    · simp [h0, h1]

theorem routeWriteCoil_free (i : Nat) (addr value : Word) (tail : List Byte) (s : State)
    (hl : lockOf s.locks (.bits .co) = .free) :
    routeWriteCoil i (.full addr value tail) s =
      if s.cfg.capCo < addr.toNat + 1 then raiseExc i 0x05#8 .illegalDataAddress s
      else if tail ≠ [] ∨ (value ≠ 0x0000#16 ∧ value ≠ 0xFF00#16) then raiseExc i 0x05#8 .illegalDataValue s
      else answer i (rsSingle 0x05#8 addr value)
        (bankWriteBits .co addr.toNat [if value = 0xFF00#16 then 1#1 else 0#1] s) := by
  simp only [routeWriteCoil, coilOf_eq, capBits, inRange_false]
  by_cases hrange : s.cfg.capCo < addr.toNat + 1
  · rw [if_pos hrange, if_pos hrange]
  · rw [if_neg hrange, if_neg hrange]
    by_cases hvalue : value ≠ 0x0000#16 ∧ value ≠ 0xFF00#16
    · simp only [if_pos hvalue, or_iff_right_of_imp (fun _ => hvalue), ite_self]
    · have hin : inRange (capBits s.cfg .co) addr.toNat 1 = true := (inRange_true ..).2 (Nat.le_of_not_lt hrange)
      simp only [if_neg hvalue, or_iff_left hvalue, dsWriteBits_free _ _ _ _ _ hl, List.length_singleton, if_pos hin]
      cases tail <;> rfl

theorem routeWriteReg_free (i : Nat) (addr value : Word) (tail : List Byte) (s : State)
    (hl : lockOf s.locks (.regs .hr) = .free) :
    routeWriteReg i (.full addr value tail) s =
      if s.cfg.capHr < addr.toNat + 1 then raiseExc i 0x06#8 .illegalDataAddress s
      else if tail ≠ [] then raiseExc i 0x06#8 .illegalDataValue s
      else answer i (rsSingle 0x06#8 addr value) (bankWriteRegs .hr addr.toNat [value] s) := by
  simp only [routeWriteReg, capRegs, inRange_false]
  by_cases hrange : s.cfg.capHr < addr.toNat + 1
  · rw [if_pos hrange, if_pos hrange]
  · have hin : inRange (capRegs s.cfg .hr) addr.toNat 1 = true := (inRange_true ..).2 (Nat.le_of_not_lt hrange)
    simp only [if_neg hrange, dsWriteRegs_free _ _ _ _ _ hl, List.length_singleton, if_pos hin]
    cases tail <;> rfl

theorem routeWriteRegs_free (i : Nat) (addr qty : Word) (bc : Byte) (data : List Byte) (s : State)
    (hl : lockOf s.locks (.regs .hr) = .free) :
    routeWriteRegs i (.full addr qty bc data) s =
      if s.cfg.capHr < addr.toNat + qty.toNat then raiseExc i 0x10#8 .illegalDataAddress s
      else if qty.toNat < 1 ∨ s.cfg.maxWrRegs < qty.toNat ∨ bc.toNat ≠ 2 * qty.toNat ∨ data.length ≠ bc.toNat then
        raiseExc i 0x10#8 .illegalDataValue s
      else answer i (rsMulti addr qty) (bankWriteRegs .hr addr.toNat (bytesRegs data) s) := by
  simp only [routeWriteRegs, capRegs, inRange_false, ← multiValueOk_false]
  split_ifs with hrange hvalue
  · rfl
  · rfl
  · have hin : inRange (capRegs s.cfg .hr) addr.toNat (bytesRegs data).length = true := by
      rw [multiValueOk_length qty bc data _ hvalue]
      exact (inRange_true ..).2 (Nat.le_of_not_lt hrange)
    rw [dsWriteRegs_free _ _ _ _ _ hl, if_pos hin]

/-! Which of these an instruction at a server agent is (R115). -/

section Server

variable {i : Nat} {s : State} (ha : s.active = .server i) (p : PairForm) (m : MultiForm)

include ha

theorem exec_rc_server : exec (.rc p) s = .next (routeReadBits 0x01#8 .co i p s) := by simp only [exec, execRc, ha]
theorem exec_rdi_server : exec (.rdi p) s = .next (routeReadBits 0x02#8 .di i p s) := by simp only [exec, execRdi, ha]
theorem exec_rhr_server : exec (.rhr p) s = .next (routeReadRegs 0x03#8 .hr i p s) := by simp only [exec, execRhr, ha]
theorem exec_rir_server : exec (.rir p) s = .next (routeReadRegs 0x04#8 .ir i p s) := by simp only [exec, execRir, ha]
theorem exec_wsc_server : exec (.wsc p) s = .next (routeWriteCoil i p s) := by simp only [exec, execWsc, ha]
theorem exec_wsr_server : exec (.wsr p) s = .next (routeWriteReg i p s) := by simp only [exec, execWsr, ha]
theorem exec_wmr_server : exec (.wmr m) s = .next (routeWriteRegs i m s) := by simp only [exec, execWmr, ha]

end Server

/-! The fields of a request PDU, byte by byte (R77 to R79). -/

section Fields

variable (fc : Byte) (a v : Word) (tail : List Byte) (bc : Byte) (data : List Byte)

theorem pairPdu_length : (fc :: (PairForm.full a v tail).bytes).length = 5 + tail.length := by
  rw [List.length_cons, Laws.pairForm_bytes_length, PairForm.size]
  omega

@[simp] theorem pairPdu_first : u16 (fc :: (PairForm.full a v tail).bytes) 1 = a := wordOf_be16 a
@[simp] theorem pairPdu_second : u16 (fc :: (PairForm.full a v tail).bytes) 3 = v := wordOf_be16 v

theorem multiPdu_length : (fc :: (MultiForm.full a v bc data).bytes).length = 6 + data.length := by
  rw [List.length_cons, Laws.multiForm_bytes_length, MultiForm.size]
  omega

@[simp] theorem multiPdu_addr : u16 (fc :: (MultiForm.full a v bc data).bytes) 1 = a := wordOf_be16 a
@[simp] theorem multiPdu_qty : u16 (fc :: (MultiForm.full a v bc data).bytes) 3 = v := wordOf_be16 v
theorem multiPdu_byteCount : (fc :: (MultiForm.full a v bc data).bytes).getD 5 0 = bc := rfl

/-- The value `v_m` of the pseudocode of R136 is the `m`-th word of the bytes after the fixed part. -/
theorem multiPdu_values (n : Nat) (hn : data.length = 2 * n) :
    (List.range n).map (fun k => u16 (fc :: (MultiForm.full a v bc data).bytes) (6 + 2 * k)) = bytesRegs data := by
  apply List.ext_getElem?
  intro k
  by_cases hk : k < n
  · rw [List.getElem?_map, List.getElem?_range hk, bytesRegs_getElem data k (by omega), Option.map_some]
    have hlow : 6 + 2 * k = 2 * k + 6 := Nat.add_comm _ _
    simp only [u16, hlow]
    rfl
  · rw [List.getElem?_eq_none (by simpa using hk), List.getElem?_eq_none (by rw [bytesRegs_length]; omega)]

end Fields

/-- A pair form cut short makes a PDU of fewer than five bytes (R123). -/
theorem cutPair_length (fc : Byte) (payload : List Byte) (h : (PairForm.cut payload).formOk = true) :
    (fc :: (PairForm.cut payload).bytes).length < 5 := by
  simp only [PairForm.formOk, decide_eq_true_eq] at h
  simp only [PairForm.bytes, List.length_cons]
  omega

/-- A multi form cut short makes a PDU of fewer than six bytes (R123). -/
theorem cutMulti_length (fc : Byte) (payload : List Byte) (h : (MultiForm.cut payload).formOk = true) :
    (fc :: (MultiForm.cut payload).bytes).length < 6 := by
  simp only [MultiForm.formOk, decide_eq_true_eq] at h
  simp only [MultiForm.bytes, List.length_cons]
  omega

/-- A PDU with a whole pair form is not cut short, and has exactly five bytes when nothing follows the form (R125). -/
theorem fullPair_length (fc : Byte) (a v : Word) (tail : List Byte) :
    ¬ (fc :: (PairForm.full a v tail).bytes).length < 5 ∧
      ((fc :: (PairForm.full a v tail).bytes).length ≠ 5 ↔ tail ≠ []) := by
  rw [pairPdu_length, ← List.length_pos_iff_ne_nil]
  omega

/-! The reads from the bytes of the request (R130 to R133). -/

/-- The pseudocode the four reads share, for function code `fc`, over the bytes of the request: its length, the range,
then the exact length and the quantity; `accepted` is the response to an address and a quantity that pass (R130 to
R133). -/
def readReply (fc : Byte) (cap bound : Nat) (accepted : Nat → Nat → List Byte) (pdu : List Byte) : List Byte :=
  let addr := (u16 pdu 1).toNat
  let qty := (u16 pdu 3).toNat
  if pdu.length < 5 then excPdu fc .illegalDataValue
  else if cap < addr + qty then excPdu fc .illegalDataAddress
  else if pdu.length ≠ 5 ∨ qty < 1 ∨ bound < qty then excPdu fc .illegalDataValue
  else accepted addr qty

theorem readReply_cut (fc : Byte) (cap bound : Nat) (accepted : Nat → Nat → List Byte) (payload : List Byte)
    (h : (PairForm.cut payload).formOk = true) :
    readReply fc cap bound accepted (fc :: (PairForm.cut payload).bytes) = excPdu fc .illegalDataValue :=
  if_pos (cutPair_length fc payload h)

theorem readReply_full (fc : Byte) (cap bound : Nat) (accepted : Nat → Nat → List Byte) (addr qty : Word)
    (tail : List Byte) :
    readReply fc cap bound accepted (fc :: (PairForm.full addr qty tail).bytes) =
      if cap < addr.toNat + qty.toNat then excPdu fc .illegalDataAddress
      else if tail ≠ [] ∨ qty.toNat < 1 ∨ bound < qty.toNat then excPdu fc .illegalDataValue
      else accepted addr.toNat qty.toNat := by
  obtain ⟨hlong, hexact⟩ := fullPair_length fc addr qty tail
  simp only [readReply, if_neg hlong, hexact, pairPdu_first, pairPdu_second]

theorem routeReadBits_eq_readReply (fc : Byte) (b : BitBank) (i : Nat) (p : PairForm) (s : State)
    (hl : lockOf s.locks (.bits b) = .free) (hp : p.formOk = true) :
    routeReadBits fc b i p s = answer i (readReply fc (capBits s.cfg b) s.cfg.maxRdBits
      (fun addr qty => [fc, BitVec.ofNat 8 (ceil8 qty)] ++ packBits (readCells (s.mem.bits b) addr qty))
      (fc :: p.bytes)) s := by
  cases p with
  | cut payload => rw [readReply_cut _ _ _ _ _ hp]; rfl
  | full addr qty tail =>
    rw [routeReadBits_free _ _ _ _ _ _ _ hl, readReply_full, rsBits, readCells_length]
    rfl

theorem routeReadRegs_eq_readReply (fc : Byte) (r : RegBank) (i : Nat) (p : PairForm) (s : State)
    (hl : lockOf s.locks (.regs r) = .free) (hp : p.formOk = true) :
    routeReadRegs fc r i p s = answer i (readReply fc (capRegs s.cfg r) s.cfg.maxRdRegs
      (fun addr qty => [fc, BitVec.ofNat 8 (2 * qty)] ++ (readCells (s.mem.regs r) addr qty).flatMap be16)
      (fc :: p.bytes)) s := by
  cases p with
  | cut payload => rw [readReply_cut _ _ _ _ _ hp]; rfl
  | full addr qty tail =>
    rw [routeReadRegs_free _ _ _ _ _ _ _ hl, readReply_full, rsRegs, readCells_length, regBytes_eq_flatMap]
    rfl

/-- Settles O1: the pseudocode of a read with RC's function code, bank and bound. -/
theorem routeReadCoils : Obligations.RouteReadCoils := by
  intro s i p ha hl hp
  rw [exec_rc_server ha, routeReadBits_eq_readReply _ .co i p s hl hp]
  rfl

/-- Settles O2: the pseudocode of a read with RDI's function code, bank and bound. -/
theorem routeReadDiscreteInputs : Obligations.RouteReadDiscreteInputs := by
  intro s i p ha hl hp
  rw [exec_rdi_server ha, routeReadBits_eq_readReply _ .di i p s hl hp]
  rfl

/-- Settles O3: the pseudocode of a read with RHR's function code, bank and bound. -/
theorem routeReadHoldingRegisters : Obligations.RouteReadHoldingRegisters := by
  intro s i p ha hl hp
  rw [exec_rhr_server ha, routeReadRegs_eq_readReply _ .hr i p s hl hp]
  rfl

/-- Settles O4: the pseudocode of a read with RIR's function code, bank and bound. -/
theorem routeReadInputRegisters : Obligations.RouteReadInputRegisters := by
  intro s i p ha hl hp
  rw [exec_rir_server ha, routeReadRegs_eq_readReply _ .ir i p s hl hp]
  rfl

/-! The writes from the bytes of the request (R134 to R136). -/

/-- Settles O5: a cut form is too short; on a whole one the checks read the same fields. -/
theorem routeWriteSingleCoil : Obligations.RouteWriteSingleCoil := by
  intro s i p ha hl hp
  rw [exec_wsc_server ha]
  simp only [encodePdu]
  cases p with
  | cut payload => exact congrArg _ (if_pos (cutPair_length _ payload hp)).symm
  | full addr value tail =>
    obtain ⟨hlong, hexact⟩ := fullPair_length 0x05#8 addr value tail
    simp only [routeWriteCoil_free _ _ _ _ _ hl, if_neg hlong, hexact, pairPdu_first, pairPdu_second]
    refine congrArg _ (ite_congr rfl (fun _ => rfl) fun _ => ite_congr rfl (fun _ => rfl) fun hvalue => ?_)
    obtain rfl : tail = [] := by simpa using fun h => hvalue (.inl h)
    rfl

/-- Settles O6: a cut form is too short; on a whole one the checks read the same fields. -/
theorem routeWriteSingleRegister : Obligations.RouteWriteSingleRegister := by
  intro s i p ha hl hp
  rw [exec_wsr_server ha]
  simp only [encodePdu]
  cases p with
  | cut payload => exact congrArg _ (if_pos (cutPair_length _ payload hp)).symm
  | full addr value tail =>
    obtain ⟨hlong, hexact⟩ := fullPair_length 0x06#8 addr value tail
    simp only [routeWriteReg_free _ _ _ _ _ hl, if_neg hlong, hexact, pairPdu_first, pairPdu_second]
    refine congrArg _ (ite_congr rfl (fun _ => rfl) fun _ => ite_congr rfl (fun _ => rfl) fun hlength => ?_)
    obtain rfl := not_ne_iff.1 hlength
    rfl

/-- Settles O7: a cut form is too short; on a whole one the checks read the same fields, and the values are the words
of the bytes after the fixed part. -/
theorem routeWriteMultipleRegisters : Obligations.RouteWriteMultipleRegisters := by
  intro s i m ha hl hm
  rw [exec_wmr_server ha]
  simp only [encodePdu]
  cases m with
  | cut payload => exact congrArg _ (if_pos (cutMulti_length _ payload hm)).symm
  | full addr qty bc data =>
    simp only [routeWriteRegs_free _ _ _ _ _ _ hl, multiPdu_length, multiPdu_addr, multiPdu_qty, multiPdu_byteCount,
      if_neg (Nat.not_lt.2 (Nat.le_add_right 6 _)), ne_eq, Nat.add_left_cancel_iff]
    refine congrArg _ (ite_congr rfl (fun _ => rfl) fun _ => ite_congr rfl (fun _ => rfl) fun hvalue => ?_)
    rw [multiPdu_values _ _ _ _ _ _ (by omega)]
    rfl

end Sys2Proof.Machine
end

section
/-! SUPPORT. What the router's answers say of the banks: a bulk write read back (R238), the answer to every request
(R138), exceptions that leave the banks (R127, R213), and the banks no other step writes (R137, R231). -/

namespace Sys2Proof.Machine

open Sys2Proof.Claims

/-! A bulk write read back (R136, R132, R238). -/

/-- The response to an accepted RHR (R132). -/
theorem exec_rhr_accepted (s : State) (i : Nat) (addr qty : Word) (ha : s.active = .server i)
    (hl : s.locks.hr = .free) (hin : addr.toNat + qty.toNat ≤ s.cfg.capHr) (hmin : 1 ≤ qty.toNat)
    (hmax : qty.toNat ≤ s.cfg.maxRdRegs) :
    exec (.rhr (.full addr qty [])) s =
      .next (answer i (rsRegs 0x03#8 (readCells s.mem.hr addr.toNat qty.toNat)) s) := by
  have hrange : ¬ capRegs s.cfg .hr < addr.toNat + qty.toNat := Nat.not_lt.2 hin
  have hvalue : ¬ (([] : List Byte) ≠ [] ∨ qty.toNat < 1 ∨ s.cfg.maxRdRegs < qty.toNat) := by
    simp only [ne_eq, not_true_eq_false, false_or]
    omega
  rw [exec_rhr_server ha, routeReadRegs_free _ .hr _ _ _ _ _ hl, if_neg hrange, if_neg hvalue]
  rfl

/-- The next state of an accepted WMR (R136). -/
theorem exec_wmr_accepted (s : State) (i : Nat) (addr qty : Word) (bc : Byte) (data : List Byte)
    (ha : s.active = .server i) (hl : s.locks.hr = .free) (hin : addr.toNat + qty.toNat ≤ s.cfg.capHr)
    (hmin : 1 ≤ qty.toNat) (hmax : qty.toNat ≤ s.cfg.maxWrRegs) (hbc : bc.toNat = 2 * qty.toNat)
    (hlen : data.length = bc.toNat) :
    exec (.wmr (.full addr qty bc data)) s =
      .next (answer i (rsMulti addr qty) (bankWriteRegs .hr addr.toNat (bytesRegs data) s)) := by
  rw [exec_wmr_server ha, routeWriteRegs_free _ _ _ _ _ _ hl, if_neg (Nat.not_lt.2 hin), if_neg (by omega)]

/-- Settles O17: the cells read are the words of the bytes written, so the response holds those bytes. -/
theorem bulkWriteThenRead : Obligations.BulkWriteThenRead := by
  intro s t i j addr qty bc data hw ha hl hin hmin hmaxWr hmaxRd hbc hlen h
  have hcount : (bytesRegs data).length = qty.toNat := by rw [bytesRegs_length]; omega
  have hbyte : BitVec.ofNat 8 (2 * qty.toNat) = bc := by rw [← hbc, BitVec.ofNat_toNat, BitVec.setWidth_eq]
  rw [exec_wmr_accepted s i addr qty bc data ha hl hin hmin hmaxWr hbc hlen, Host.Outcome.next.injEq] at h
  have hread : readCells t.mem.hr addr.toNat qty.toNat = bytesRegs data := by
    obtain ⟨-, hregs⟩ := (memory_wf_iff s.mem).1 hw
    rw [← h, ← hcount]
    exact readAfterWrite 16 s.mem.hr addr.toNat (bytesRegs data) (hregs .hr)
  rw [exec_rhr_accepted { t with active := .server j } j addr qty rfl (h ▸ hl) (h ▸ hin) hmin (h ▸ hmaxRd)]
  simp only [hread, rsRegs, hcount, hbyte, regBytes_bytesRegs data (by omega)]
  rfl

/-! Which PDU a request is answered with, and what the access before it did (R120, R127). -/

/-- `s` answers a request with a PDU and leaves a state: an exception and a read leave `s` as it is, a write leaves the
cells it addressed written (R127, R130 to R136). -/
inductive Served (s : State) : List Byte → State → Prop where
  | exception (fc : Byte) (code : ExcCode) : Served s (excPdu fc code) s
  | bits (fc : Byte) (cells : List Bit) (h : cells.length ≤ s.cfg.maxRdBits) : Served s (rsBits fc cells) s
  | regs (fc : Byte) (cells : List Word) (h : cells.length ≤ s.cfg.maxRdRegs) : Served s (rsRegs fc cells) s
  | coil (addr value : Word) (v : Bit) : Served s (rsSingle 0x05#8 addr value) (bankWriteBits .co addr.toNat [v] s)
  | reg (addr value : Word) : Served s (rsSingle 0x06#8 addr value) (bankWriteRegs .hr addr.toNat [value] s)
  | multi (addr qty : Word) (vs : List Word) : Served s (rsMulti addr qty) (bankWriteRegs .hr addr.toNat vs s)

/-- The ROUTE step of `S[i]` waits for a lock, or it answers the request (R115, log 12). -/
def WaitsOrServes (i : Nat) (s t : State) : Prop := t = s ∨ ∃ pdu s', Served s pdu s' ∧ t = answer i pdu s'

theorem WaitsOrServes.exception (fc : Byte) (code : ExcCode) (i : Nat) (s : State) :
    WaitsOrServes i s (raiseExc i fc code s) := .inr ⟨_, s, .exception fc code, rfl⟩

/-- What a held lock makes of a request is one of these. -/
theorem WaitsOrRefused.waitsOrServes {fc : Byte} {i : Nat} {s t : State} (h : WaitsOrRefused fc i s t) :
    WaitsOrServes i s t := by
  obtain rfl | ⟨code, rfl | rfl, rfl⟩ := h
  · exact .inl rfl
  · exact .exception fc .illegalDataAddress i s
  · exact .exception fc .illegalDataValue i s

theorem routeReadBits_waitsOrServes (fc : Byte) (b : BitBank) (i : Nat) (p : PairForm) (s : State) :
    WaitsOrServes i s (routeReadBits fc b i p s) := by
  by_cases hl : lockOf s.locks (.bits b) = .free
  · cases p with
    | cut payload => exact .exception fc _ i s
    | full addr qty tail =>
      rw [routeReadBits_free _ _ _ _ _ _ _ hl]
      split_ifs with hrange hvalue
      · exact .exception fc _ i s
      · exact .exception fc _ i s
      · exact .inr ⟨_, s, .bits fc _ (by rw [readCells_length]; omega), rfl⟩
  · exact (routeReadBits_held fc b i p s hl).waitsOrServes

theorem routeReadRegs_waitsOrServes (fc : Byte) (r : RegBank) (i : Nat) (p : PairForm) (s : State) :
    WaitsOrServes i s (routeReadRegs fc r i p s) := by
  by_cases hl : lockOf s.locks (.regs r) = .free
  · cases p with
    | cut payload => exact .exception fc _ i s
    | full addr qty tail =>
      rw [routeReadRegs_free _ _ _ _ _ _ _ hl]
      split_ifs with hrange hvalue
      · exact .exception fc _ i s
      · exact .exception fc _ i s
      · exact .inr ⟨_, s, .regs fc _ (by rw [readCells_length]; omega), rfl⟩
  · exact (routeReadRegs_held fc r i p s hl).waitsOrServes

theorem routeWriteCoil_waitsOrServes (i : Nat) (p : PairForm) (s : State) :
    WaitsOrServes i s (routeWriteCoil i p s) := by
  by_cases hl : lockOf s.locks (.bits .co) = .free
  · cases p with
    | cut payload => exact .exception _ _ i s
    | full addr value tail =>
      rw [routeWriteCoil_free _ _ _ _ _ hl]
      by_cases hrange : s.cfg.capCo < addr.toNat + 1
      · rw [if_pos hrange]
        exact .exception _ _ i s
      · rw [if_neg hrange]
        split
        · exact .exception _ _ i s
        · exact .inr ⟨_, _, .coil addr value _, rfl⟩
  · exact (routeWriteCoil_held i p s hl).waitsOrServes

theorem routeWriteReg_waitsOrServes (i : Nat) (p : PairForm) (s : State) :
    WaitsOrServes i s (routeWriteReg i p s) := by
  by_cases hl : lockOf s.locks (.regs .hr) = .free
  · cases p with
    | cut payload => exact .exception _ _ i s
    | full addr value tail =>
      rw [routeWriteReg_free _ _ _ _ _ hl]
      split_ifs with hrange hlength
      · exact .exception _ _ i s
      · exact .exception _ _ i s
      · exact .inr ⟨_, _, .reg addr value, rfl⟩
  · exact (routeWriteReg_held i p s hl).waitsOrServes

theorem routeWriteRegs_waitsOrServes (i : Nat) (m : MultiForm) (s : State) :
    WaitsOrServes i s (routeWriteRegs i m s) := by
  by_cases hl : lockOf s.locks (.regs .hr) = .free
  · cases m with
    | cut payload => exact .exception _ _ i s
    | full addr qty bc data =>
      rw [routeWriteRegs_free _ _ _ _ _ _ hl]
      split_ifs with hrange hvalue
      · exact .exception _ _ i s
      · exact .exception _ _ i s
      · exact .inr ⟨_, _, .multi addr qty _, rfl⟩
  · exact (routeWriteRegs_held i m s hl).waitsOrServes

/-- Every instruction at a server agent waits or answers (R115). -/
theorem exec_waitsOrServes (instr : Instr) (i : Nat) (s t : State) (ha : s.active = .server i)
    (h : exec instr s = .next t) : WaitsOrServes i s t := by
  cases instr with
  | rc p => rw [exec_rc_server ha] at h; cases h; exact routeReadBits_waitsOrServes _ _ i p s
  | rdi p => rw [exec_rdi_server ha] at h; cases h; exact routeReadBits_waitsOrServes _ _ i p s
  | rhr p => rw [exec_rhr_server ha] at h; cases h; exact routeReadRegs_waitsOrServes _ _ i p s
  | rir p => rw [exec_rir_server ha] at h; cases h; exact routeReadRegs_waitsOrServes _ _ i p s
  | wsc p => rw [exec_wsc_server ha] at h; cases h; exact routeWriteCoil_waitsOrServes i p s
  | wsr p => rw [exec_wsr_server ha] at h; cases h; exact routeWriteReg_waitsOrServes i p s
  | wmr m => rw [exec_wmr_server ha] at h; cases h; exact routeWriteRegs_waitsOrServes i m s
  | exc fc e =>
    simp only [exec, execExc, ha] at h
    cases h
    exact .exception _ _ i s

/-- A ROUTE step waits or answers, whatever the request's function code (R115, R202). -/
theorem routeOffer_waitsOrServes (i : Nat) (s t : State) (hf : (connAt s i).fsm = .route)
    (h : routeOffer i s = .next t) : WaitsOrServes i { s with active := .server i } t := by
  simp only [routeOffer, if_pos hf] at h
  split at h
  · exact exec_waitsOrServes _ i _ t rfl h
  · cases h
  · cases h
    exact .exception _ _ i _

/-- The access before an answer emits nothing and writes no server agent (R127). -/
theorem Served.keeps {s s' : State} {pdu : List Byte} (h : Served s pdu s') :
    s'.conns = s.conns ∧ s'.outputs = s.outputs := by
  cases h <;> exact ⟨rfl, rfl⟩

/-- The length of an answer: an echo's five bytes, or the two bytes before the cells and the cells (R80, R81, R138). -/
theorem Served.length {s s' : State} {pdu : List Byte} (h : Served s pdu s') :
    2 ≤ pdu.length ∧ pdu.length ≤ max 5 (2 + max (ceil8 s.cfg.maxRdBits) (2 * s.cfg.maxRdRegs)) := by
  cases h with
  | exception fc code => rw [excPdu_length]; omega
  | bits fc cells hn => rw [rsBits_length, ceil8, ceil8]; omega
  | regs fc cells hn => rw [rsRegs_length]; omega
  | coil addr value v => rw [rsSingle_length]; omega
  | reg addr value => rw [rsSingle_length]; omega
  | multi addr qty vs => rw [rsMulti_length]; omega

/-- The first byte of the answer to a write that was made has bit 7 clear, so an exception was answered without one
(R83, R127). -/
theorem Served.mem_of_exceptionBit {s s' : State} {b : Byte} {tail : List Byte} (h : Served s (b :: tail) s')
    (hb : b.getLsbD 7 = true) : s'.mem = s.mem := by
  generalize hpdu : b :: tail = pdu at h
  cases h with
  | exception fc code => rfl
  | bits fc cells hn => rfl
  | regs fc cells hn => rfl
  | coil addr value v => cases hpdu; cases hb
  | reg addr value => cases hpdu; cases hb
  | multi addr qty vs => cases hpdu; cases hb

theorem connAt_answer (i : Nat) (pdu : List Byte) (s : State) (hw : sparseWf Conn.reset s.conns = true) :
    connAt (answer i pdu s) i = { connAt s i with resp := pdu, fsm := .reply } := connAt_setConn_same i _ s hw

/-- Settles O35: with the locks free the step cannot wait, and the bounds of a legal configuration hold its answer
inside MAX_PDU. -/
theorem routerIsTotal : Obligations.RouterIsTotal := by
  intro s i rest hlegal hlocks hw hs hf hreq _
  obtain ⟨t, ht, hreply⟩ := routeOffer_fsm i { s with sched := rest } hlocks hw hf hreq
  refine ⟨t, (step_of_sched s _ rest hlegal hs).trans ht, hreply, ?_⟩
  obtain rfl | ⟨pdu, s', hserved, rfl⟩ := routeOffer_waitsOrServes i { s with sched := rest } t hf ht
  · exact absurd (hf.symm.trans hreply) (by decide)
  · obtain ⟨hconns, houtputs⟩ := hserved.keeps
    obtain ⟨hmin, hmax⟩ := hserved.length
    obtain ⟨-, -, ⟨hpdu, -⟩, -, -, -, hbits, -, hregs, -⟩ := legal_bounds _ hlegal
    rw [connAt_answer i pdu s' (hconns ▸ hw)]
    refine ⟨hmin, hmax.trans ?_, fun hcfg => hmax.trans ?_, houtputs⟩
    · change max 5 (2 + max (ceil8 s.cfg.maxRdBits) (2 * s.cfg.maxRdRegs)) ≤ s.cfg.maxPdu
      rw [ceil8]
      omega
    · change max 5 (2 + max (ceil8 s.cfg.maxRdBits) (2 * s.cfg.maxRdRegs)) ≤ 252
      rw [hcfg]
      decide

/-- Settles O36: the answers that follow a write have bit 7 of their first byte clear. -/
theorem exceptionLeavesBanks : Obligations.ExceptionLeavesBanks := by
  intro s t i rest b tail hw hs hf h hreply hresp hb
  obtain ⟨hlegal, -⟩ := step_cases s t h
  rw [step_of_sched s _ rest hlegal hs] at h
  obtain rfl | ⟨pdu, s', hserved, rfl⟩ := routeOffer_waitsOrServes i { s with sched := rest } t hf h
  · exact absurd (hf.symm.trans hreply) (by decide)
  · obtain ⟨hconns, houtputs⟩ := hserved.keeps
    rw [connAt_answer i pdu s' (hconns ▸ hw)] at hresp
    obtain rfl : pdu = b :: tail := hresp
    exact ⟨hserved.mem_of_exceptionBit hb, houtputs⟩

/-! The banks other steps leave alone (R137, R231). -/

/-- No step but a ROUTE step, a seed write or a reset writes a bank (R231). -/
theorem takeOffer_keeps_mem (o : Offer) (s t : State) (hroute : ∀ i, o ≠ .route i)
    (hseed : ∀ b a vs, o ≠ .seedWrite b a vs) (hreset : ∀ c now, o ≠ .reset c now)
    (h : takeOffer o s = .next t) : t.mem = s.mem := by
  cases o with
  | openConn i =>
    obtain ⟨-, ⟨-, rfl⟩ | ⟨-, rfl⟩⟩ := openOffer_cases i s t h <;> rfl
  | deliver i x =>
    cases h
    simp only [deliverOffer]
    split_ifs <;> rfl
  | receive i =>
    cases h
    obtain h | ⟨-, x, inp, -, ⟨b, rx, -, -, h⟩ | ⟨b, f, -, -, h⟩ | ⟨-, h⟩⟩ := receiveOffer_cases i s <;> rw [h] <;> rfl
  | reply i sent =>
    obtain ⟨-, rfl⟩ | ⟨-, frame, -, ⟨-, rfl⟩ | ⟨-, rfl⟩⟩ := replyOffer_cases i sent s t h <;> rfl
  | seedRead b addr n =>
    obtain ⟨-, hmem, -⟩ := seedReadOffer_keeps_server b addr n s t h
    exact hmem
  | encode tid uid pdu =>
    obtain ⟨-, hmem, -⟩ := encodeOffer_keeps_server tid uid pdu s t h
    exact hmem
  | decode bytes => cases h; rfl
  | route i => exact absurd rfl (hroute i)
  | seedWrite b a vs => exact absurd rfl (hseed b a vs)
  | reset c now => exact absurd rfl (hreset c now)
  | _ =>
    obtain ⟨-, hmem, -⟩ := takeOffer_client_keeps_server _ s t rfl h
    exact hmem

/-- Settles O19: a ROUTE step writes CO or HR alone, and the other steps write no bank. -/
theorem inputBanksAreReadOnly : Obligations.InputBanksAreReadOnly := by
  intro s t o rest hs h hseed hreset
  obtain ⟨hlegal, -⟩ := step_cases s t h
  rw [step_of_sched s o rest hlegal hs] at h
  by_cases hroute : ∃ i, o = .route i
  · obtain ⟨i, rfl⟩ := hroute
    obtain ⟨-, rfl⟩ | ⟨-, hr⟩ := routeOffer_cases i { s with sched := rest } t h
    · exact ⟨rfl, rfl, fun _ => rfl⟩
    · obtain ⟨-, -, -, hdi, hir⟩ := hr.frame
      exact ⟨hdi, hir, fun hn => absurd rfl (hn i)⟩
  · push Not at hroute
    have hmem : t.mem = s.mem := takeOffer_keeps_mem o { s with sched := rest } t hroute hseed hreset h
    exact ⟨congrArg _ hmem, congrArg _ hmem, fun _ => hmem⟩

end Sys2Proof.Machine
end

section
/-! SUPPORT. The client against this block's own server: the results `Check` (R173) gives of the server's answers. -/

namespace Sys2Proof.Machine

open Sys2Proof.Claims

/-! Bits of packed bytes (R54). -/

theorem byteBits_getElem (b : Byte) (k : Nat) (hk : k < 8) : (byteBits b)[k]? = some (b.extractLsb' k 1) := by
  interval_cases k <;> rfl

/-- Bit `k` of a byte sequence is bit `k % 8` of its byte `k / 8`. -/
theorem unpackBits_getElem (data : List Byte) (k : Nat) (hk : k < 8 * data.length) :
    (unpackBits data)[k]? = some ((data.getD (k / 8) 0).extractLsb' (k % 8) 1) := by
  induction data generalizing k with
  | nil => simp at hk
  | cons b data ih =>
    rw [List.length_cons] at hk
    have hlen : (byteBits b).length = 8 := rfl
    rw [unpackBits]
    by_cases hfirst : k < 8
    · rw [List.getElem?_append_left (hlen ▸ hfirst), byteBits_getElem b k hfirst, Nat.div_eq_of_lt hfirst,
        Nat.mod_eq_of_lt hfirst, List.getD_cons_zero]
    · obtain ⟨m, rfl⟩ := Nat.exists_eq_add_of_le' (Nat.not_lt.1 hfirst)
      rw [List.getElem?_append_right (by omega), hlen, Nat.add_sub_cancel, ih m (by omega),
        Nat.add_div_right m (by decide), Nat.add_mod_right, List.getD_cons_succ]

/-- A cell of one bit is decided by its bit. -/
theorem bit_eq_iff (x y : Bit) : x = y ↔ (x.getLsbD 0 = true ↔ y = 1#1) := by
  revert x y
  decide

/-- The bits of packed cells are the cells (R54, R183). -/
theorem unpackBits_packBits (cells : List Bit) : (unpackBits (packBits cells)).take cells.length = cells := by
  obtain ⟨hlen, hbit⟩ := wireOrder.2 cells
  apply List.ext_getElem?
  intro k
  by_cases hk : k < cells.length
  · rw [List.getElem?_take_of_lt hk, unpackBits_getElem _ k (by omega), List.getElem?_eq_getElem hk,
      Option.some.injEq, bit_eq_iff, BitVec.getLsbD_extractLsb', Nat.add_zero, decide_eq_true Nat.one_pos,
      Bool.true_and, hbit (k / 8) (k % 8) (by omega) (Nat.mod_lt k (by decide)), Nat.div_add_mod,
      List.getElem?_eq_getElem hk, Option.some.injEq]
  · rw [List.getElem?_eq_none (by rw [List.length_take]; omega), List.getElem?_eq_none (Nat.not_lt.1 hk)]

/-! `Check` of each answer (R173, R174, R182 to R187). -/

/-- A byte count below 256 is held whole (R80). -/
theorem toNat_ofNat8 (n : Nat) (h : n ≤ 255) : (BitVec.ofNat 8 n).toNat = n := by
  rw [BitVec.toNat_ofNat, Nat.mod_eq_of_lt (by omega)]

section Check

variable (e : Entry)

/-- An exception PDU of the entry's function code gives its code (R174). -/
theorem checkResponse_excPdu (code : ExcCode) :
    checkResponse e (excPdu e.fc code) = .err (.exception (excCodeByte code)) := if_pos rfl

/-- A PDU of the entry's function code, which has bit 7 clear, is parsed (R173). -/
theorem checkResponse_same_fc (payload : List Byte) (h : e.fc.getLsbD 7 = false) :
    checkResponse e (e.fc :: payload) = parseResponse e (e.fc :: payload) := by
  have hne : e.fc ≠ withExceptionBit e.fc := by
    intro heq
    rw [heq, withExceptionBit, BitVec.getLsbD_or] at h
    simp at h
  simp only [checkResponse, if_neg hne, if_true]

theorem checkResponse_rsBits (cells : List Bit) (hfc : e.fc = 0x01#8) (hqty : e.qty.toNat = cells.length)
    (hlen : ceil8 cells.length ≤ 255) : checkResponse e (rsBits e.fc cells) = .ok (.bits cells) := by
  have hbc := toNat_ofNat8 _ hlen
  rw [rsBits, checkResponse_same_fc e _ (by rw [hfc]; rfl), ← rsBits]
  have hparse : parseResponse e (rsBits e.fc cells) = parseBits e (rsBits e.fc cells) := by simp [parseResponse, hfc]
  have hcount : ((rsBits e.fc cells).getD 1 0).toNat = ceil8 cells.length := hbc
  have hdata : (rsBits e.fc cells).drop 2 = packBits cells := rfl
  rw [hparse, parseBits, hcount, hdata, hqty, unpackBits_packBits]
  exact if_pos ⟨by rw [rsBits_length]; omega, rsBits_length _ _, by rw [ceil8]; omega⟩

theorem checkResponse_rsRegs (cells : List Word) (hfc : e.fc = 0x03#8 ∨ e.fc = 0x04#8)
    (hqty : e.qty.toNat = cells.length) (hlen : 2 * cells.length ≤ 255) :
    checkResponse e (rsRegs e.fc cells) = .ok (.regs cells) := by
  have hbc := toNat_ofNat8 _ hlen
  rw [rsRegs, checkResponse_same_fc e _ (by obtain h | h := hfc <;> rw [h] <;> rfl), ← rsRegs]
  have hparse : parseResponse e (rsRegs e.fc cells) = parseRegs e (rsRegs e.fc cells) := by
    obtain h | h := hfc <;> simp [parseResponse, h]
  have hcount : ((rsRegs e.fc cells).getD 1 0).toNat = 2 * cells.length := hbc
  have hdata : (rsRegs e.fc cells).drop 2 = regBytes cells := rfl
  rw [hparse, parseRegs, hcount, hdata, hqty, bytesRegs_regBytes]
  exact if_pos ⟨by rw [rsRegs_length]; omega, rfl, rsRegs_length _ _⟩

theorem checkResponse_rsSingle (hfc : e.fc = 0x05#8 ∨ e.fc = 0x06#8) :
    checkResponse e (rsSingle e.fc e.addr e.val) = .ok .unit := by
  rw [rsSingle, checkResponse_same_fc e _ (by obtain h | h := hfc <;> rw [h] <;> rfl), parseResponse, if_pos hfc]
  exact if_pos rfl

theorem checkResponse_rsMulti (hfc : e.fc = 0x10#8) : checkResponse e (rsMulti e.addr e.qty) = .ok .unit := by
  have haddr : u16 (rsMulti e.addr e.qty) 1 = e.addr := wordOf_be16 e.addr
  have hqty : u16 (rsMulti e.addr e.qty) 3 = e.qty := wordOf_be16 e.qty
  have hparse : checkResponse e (rsMulti e.addr e.qty) = parseMulti e (rsMulti e.addr e.qty) := by
    rw [rsMulti, ← hfc, checkResponse_same_fc e _ (by rw [hfc]; rfl)]
    simp [parseResponse, hfc]
  rw [hparse, parseMulti, haddr, hqty]
  exact if_pos ⟨rfl, rfl, rfl⟩

end Check

/-! `Check` of what the router answers to a request (R130 to R136 against R173). -/

section Agreement

variable (i : Nat) (s : State) (e : Entry) (addr : Word) (hw : sparseWf Conn.reset s.conns = true)

include hw

theorem readBits_agrees (b : BitBank) (hfc : e.fc = 0x01#8) (hl : lockOf s.locks (.bits b) = .free)
    (hlegal : s.cfg.legal = true) :
    checkResponse e (connAt (routeReadBits e.fc b i (.full addr e.qty []) s) i).resp =
      if capBits s.cfg b < addr.toNat + e.qty.toNat then .err (.exception 0x02#8)
      else if e.qty.toNat < 1 ∨ s.cfg.maxRdBits < e.qty.toNat then .err (.exception 0x03#8)
      else .ok (.bits (readCells (s.mem.bits b) addr.toNat e.qty.toNat)) := by
  obtain ⟨-, -, -, -, -, hbits, -⟩ := legal_bounds _ hlegal
  rw [routeReadBits_free _ _ _ _ _ _ _ hl, connAt_answer _ _ _ hw]
  simp only [ne_eq, not_true_eq_false, false_or]
  split_ifs with hrange hvalue
  · exact checkResponse_excPdu e _
  · exact checkResponse_excPdu e _
  · exact checkResponse_rsBits e _ hfc (readCells_length ..).symm (by rw [readCells_length, ceil8]; omega)

theorem readRegs_agrees (r : RegBank) (hfc : e.fc = 0x03#8 ∨ e.fc = 0x04#8)
    (hl : lockOf s.locks (.regs r) = .free) (hlegal : s.cfg.legal = true) :
    checkResponse e (connAt (routeReadRegs e.fc r i (.full addr e.qty []) s) i).resp =
      if capRegs s.cfg r < addr.toNat + e.qty.toNat then .err (.exception 0x02#8)
      else if e.qty.toNat < 1 ∨ s.cfg.maxRdRegs < e.qty.toNat then .err (.exception 0x03#8)
      else .ok (.regs (readCells (s.mem.regs r) addr.toNat e.qty.toNat)) := by
  obtain ⟨-, -, -, -, -, -, -, hregs, -⟩ := legal_bounds _ hlegal
  rw [routeReadRegs_free _ _ _ _ _ _ _ hl, connAt_answer _ _ _ hw]
  simp only [ne_eq, not_true_eq_false, false_or]
  split_ifs with hrange hvalue
  · exact checkResponse_excPdu e _
  · exact checkResponse_excPdu e _
  · exact checkResponse_rsRegs e _ hfc (readCells_length ..).symm (by rw [readCells_length]; omega)

theorem writeCoil_agrees (hfc : e.fc = 0x05#8) (hval : e.val = 0xFF00#16 ∨ e.val = 0x0000#16)
    (hl : s.locks.co = .free) :
    checkResponse e (connAt (routeWriteCoil i (.full e.addr e.val []) s) i).resp =
      if s.cfg.capCo < e.addr.toNat + 1 then .err (.exception 0x02#8) else .ok .unit := by
  have hvalue : ¬ (([] : List Byte) ≠ [] ∨ (e.val ≠ 0x0000#16 ∧ e.val ≠ 0xFF00#16)) := by
    obtain h | h := hval <;> simp [h]
  rw [routeWriteCoil_free _ _ _ _ _ hl, if_neg hvalue, ← hfc]
  by_cases hrange : s.cfg.capCo < e.addr.toNat + 1
  · rw [if_pos hrange, if_pos hrange, raiseExc, connAt_answer _ _ _ hw]
    exact checkResponse_excPdu e _
  · rw [if_neg hrange, if_neg hrange, connAt_answer _ _ (bankWriteBits ..) hw]
    exact checkResponse_rsSingle e (.inl hfc)

theorem writeReg_agrees (hfc : e.fc = 0x06#8) (hl : s.locks.hr = .free) :
    checkResponse e (connAt (routeWriteReg i (.full e.addr e.val []) s) i).resp =
      if s.cfg.capHr < e.addr.toNat + 1 then .err (.exception 0x02#8) else .ok .unit := by
  rw [routeWriteReg_free _ _ _ _ _ hl, if_neg (not_not_intro rfl), ← hfc]
  by_cases hrange : s.cfg.capHr < e.addr.toNat + 1
  · rw [if_pos hrange, if_pos hrange, raiseExc, connAt_answer _ _ _ hw]
    exact checkResponse_excPdu e _
  · rw [if_neg hrange, if_neg hrange, connAt_answer _ _ (bankWriteRegs ..) hw]
    exact checkResponse_rsSingle e (.inr hfc)

theorem writeRegs_agrees (ws : List Word) (hfc : e.fc = 0x10#8) (hqty : e.qty.toNat = ws.length)
    (hlen : 2 * ws.length ≤ 255) (hl : s.locks.hr = .free) :
    checkResponse e
        (connAt (routeWriteRegs i (.full e.addr e.qty (BitVec.ofNat 8 (2 * ws.length)) (regBytes ws)) s) i).resp =
      if s.cfg.capHr < e.addr.toNat + ws.length then .err (.exception 0x02#8)
      else if ws.length < 1 ∨ s.cfg.maxWrRegs < ws.length then .err (.exception 0x03#8) else .ok .unit := by
  rw [routeWriteRegs_free _ _ _ _ _ _ hl, toNat_ofNat8 _ hlen, regBytes_length, hqty, ← hfc]
  simp only [ne_eq, not_true_eq_false, or_false]
  split_ifs with hrange hvalue
  · rw [raiseExc, connAt_answer _ _ _ hw]
    exact checkResponse_excPdu e _
  · rw [raiseExc, connAt_answer _ _ _ hw]
    exact checkResponse_excPdu e _
  · rw [connAt_answer _ _ (bankWriteRegs ..) hw]
    exact checkResponse_rsMulti e hfc

end Agreement

/-- Settles O53: each operation's request is one the router computes from its operands, and the arguments of an
operation in its domain are held whole in the words of the request. -/
theorem clientAgreesWithServer : Obligations.ClientAgreesWithServer := by
  intro s i j tid now op hlegal hlocks hw ha hd
  have hco : s.locks.co = .free := hlocks (.bits .co)
  have hhr : s.locks.hr = .free := hlocks (.regs .hr)
  have hir : s.locks.ir = .free := hlocks (.regs .ir)
  cases op with
  | writeCoil a on =>
    have haddr := toNat_ofNat16 a (of_decide_eq_true hd)
    refine ⟨_, exec_wsc_server ha _,
      (writeCoil_agrees i s (entryOf j tid now (.writeCoil a on)) hw rfl ?_ hco).trans ?_⟩
    · cases on
      · exact .inr rfl
      · exact .inl rfl
    · simp only [entryOf, haddr, expected]
  | readCoils a n =>
    simp only [inDomain, is16, Bool.and_eq_true, decide_eq_true_eq] at hd
    obtain ⟨haddr, hqty⟩ := hd
    refine ⟨_, exec_rc_server ha _,
      (readBits_agrees i s (entryOf j tid now (.readCoils a n)) _ hw .co rfl hco hlegal).trans ?_⟩
    simp only [entryOf, toNat_ofNat16 a haddr, toNat_ofNat16 n hqty, expected]
    rfl
  | writeRegister a v =>
    simp only [inDomain, is16, Bool.and_eq_true, decide_eq_true_eq] at hd
    obtain ⟨haddr, -⟩ := hd
    refine ⟨_, exec_wsr_server ha _,
      (writeReg_agrees i s (entryOf j tid now (.writeRegister a v)) hw rfl hhr).trans ?_⟩
    simp only [entryOf, toNat_ofNat16 a haddr, expected]
  | writeRegisters a vs =>
    simp only [inDomain, is16, Bool.and_eq_true, decide_eq_true_eq] at hd
    obtain ⟨⟨haddr, -⟩, hlen⟩ := hd
    rw [maxValues] at hlen
    have hqty := toNat_ofNat16 vs.length (by omega)
    have hagrees := writeRegs_agrees i s (entryOf j tid now (.writeRegisters a vs)) hw (vs.map (BitVec.ofNat 16)) rfl
      (by rw [List.length_map]; exact hqty) (by rw [List.length_map]; omega) hhr
    rw [List.length_map] at hagrees
    refine ⟨_, exec_wmr_server ha _, hagrees.trans ?_⟩
    simp only [entryOf, toNat_ofNat16 a haddr, expected]
  | readHoldingRegisters a n =>
    simp only [inDomain, is16, Bool.and_eq_true, decide_eq_true_eq] at hd
    obtain ⟨haddr, hqty⟩ := hd
    refine ⟨_, exec_rhr_server ha _,
      (readRegs_agrees i s (entryOf j tid now (.readHoldingRegisters a n)) _ hw .hr (.inl rfl) hhr hlegal).trans ?_⟩
    simp only [entryOf, toNat_ofNat16 a haddr, toNat_ofNat16 n hqty, expected]
    rfl
  | readInputRegisters a n =>
    simp only [inDomain, is16, Bool.and_eq_true, decide_eq_true_eq] at hd
    obtain ⟨haddr, hqty⟩ := hd
    refine ⟨_, exec_rir_server ha _,
      (readRegs_agrees i s (entryOf j tid now (.readInputRegisters a n)) _ hw .ir (.inr rfl) hir hlegal).trans ?_⟩
    simp only [entryOf, toNat_ofNat16 a haddr, toNat_ofNat16 n hqty, expected]
    rfl

end Sys2Proof.Machine
end

section
/-! SUPPORT. The age of pending entries (R175, R176, R177): only the tick moves the time base, and only while every
pending entry is younger than TIMEOUT. -/

namespace Sys2Proof.Machine

open Sys2Proof.Claims

/-- The age bound reads only the configuration, the table and the time base. -/
theorem AgeInv.congr {s t : State} (hs : AgeInv s) (h : t.cfg = s.cfg ∧ t.pt = s.pt ∧ t.now = s.now) : AgeInv t := by
  obtain ⟨hcfg, hpt, hnow⟩ := h
  simpa only [AgeInv, hcfg, hpt, hnow] using hs

/-- A row may be written that is not pending, or pending since now (R167, R180). -/
theorem AgeInv.set {s t : State} (hs : AgeInv s) {k : Nat} {x : Entry}
    (h : t.cfg = s.cfg ∧ t.pt = s.pt.set k x ∧ t.now = s.now) (hx : x.st = .pending → x.tSub = s.now) : AgeInv t := by
  obtain ⟨hcfg, hpt, hnow⟩ := h
  intro m e he hp
  rw [hpt, List.getElem?_set] at he
  rw [hcfg, hnow]
  split_ifs at he with hm
  · cases he
    rw [hx hp, BitVec.sub_self]
    exact Nat.zero_le _
  · exact hs m e he hp

/-- A terminal event ends the waiting of its row (R180). -/
theorem AgeInv.resolveAt {s : State} (hs : AgeInv s) {k : Nat} {e : Entry} (he : s.pt[k]? = some e) (r : CallResult) :
    AgeInv (resolveAt k r s) :=
  hs.set ⟨rfl, modify_eq_set _ _ _ _ he, rfl⟩ fun h => by cases h

/-- After a close nothing is pending (R178). -/
theorem closeClient_ageInv (s : State) : AgeInv (closeClient s) := by
  intro k e he hp
  rw [closeClient_pt, List.getElem?_map] at he
  obtain ⟨e', -, rfl⟩ := Option.map_eq_some_iff.1 he
  exact absurd hp (closeEntry_not_pending e')

/-- A tick makes a pending entry one tick older, and comes only while it is younger than TIMEOUT, which is below the
wrap of the time base (R175, R177). -/
theorem tickOffer_keeps_ageInv (s : State) (hl : s.cfg.legal = true) (hs : AgeInv s) : AgeInv (tickOffer s) := by
  obtain h | ⟨hyoung, h⟩ := tickOffer_cases s <;> rw [h]
  · exact hs
  · intro k e he hp
    have hage := hyoung e (List.mem_of_getElem? he) hp
    obtain ⟨⟨-, hwrap⟩, -⟩ := legal_bounds _ hl
    change (s.now + 1 - e.tSub).toNat ≤ s.cfg.timeout
    bv_omega

theorem timeoutOffer_keeps_ageInv (k : Nat) (s : State) (hs : AgeInv s) : AgeInv (timeoutOffer k s) := by
  obtain h | ⟨e, he, -, -, h⟩ := timeoutOffer_cases k s <;> rw [h]
  · exact hs
  · exact hs.resolveAt he _

theorem callOffer_keeps_ageInv (j : Nat) (op : FacadeOp) (s t : State) (hs : AgeInv s)
    (h : callOffer j op s = .next t) : AgeInv t := by
  obtain ⟨-, rfl | ⟨r, rfl⟩ | ⟨-, -, -, rfl⟩⟩ := callOffer_cases j op s t h
  · exact hs
  · exact hs.congr ⟨rfl, rfl, rfl⟩
  · exact hs.congr ⟨rfl, rfl, rfl⟩

/-- An issued entry is submitted now; a collected one is pending no more (R167, R181). -/
theorem callerOffer_keeps_ageInv (j : Nat) (sent : Bool) (s t : State) (hs : AgeInv s)
    (h : callerOffer j sent s = .next t) : AgeInv t := by
  obtain rfl | ⟨-, -, rfl⟩ | ⟨-, -, -, k, frame, -, -, rfl⟩ | ⟨-, e, r, -, -, -, rfl⟩ := callerOffer_cases j sent s t h
  · exact hs
  · exact hs.congr ⟨rfl, rfl, rfl⟩
  · cases sent with
    | true => exact hs.set ⟨rfl, rfl, rfl⟩ fun _ => rfl
    | false => exact closeClient_ageInv _
  · exact hs.set ⟨rfl, rfl, rfl⟩ fun h => by cases h

theorem clientReceiveOffer_keeps_ageInv (s t : State) (hs : AgeInv s) (h : clientReceiveOffer s = .next t) :
    AgeInv t := by
  obtain h' | ⟨-, x, rest, -, ⟨b, rx, -, -, h'⟩ | ⟨b, f, -, -, h'⟩ | ⟨-, h'⟩⟩ := clientReceiveOffer_cases s <;>
    rw [h'] at h
  · cases h; exact hs
  · cases h; exact hs.congr ⟨rfl, rfl, rfl⟩
  · have hactive : AgeInv { s with rlRx := [], clInp := rest, active := .client f.tid } := hs.congr ⟨rfl, rfl, rfl⟩
    obtain ⟨-, rfl⟩ | ⟨k, e, p, he, -, -, rfl⟩ := clientFrame_cases f _ t h
    · exact hs.congr ⟨rfl, rfl, rfl⟩
    · exact hactive.resolveAt he _
  · cases h; exact closeClient_ageInv _

/-- Whatever offer the client takes, the age bound is kept. -/
theorem takeOffer_client_keeps_ageInv (o : Offer) (s t : State) (ho : ofClient o = true) (hl : s.cfg.legal = true)
    (hs : AgeInv s) (h : takeOffer o s = .next t) : AgeInv t := by
  cases o with
  | connect ok =>
    cases h
    unfold connectOffer
    split_ifs <;> exact hs.congr ⟨rfl, rfl, rfl⟩
  | disconnect =>
    cases h
    unfold disconnectOffer
    split_ifs
    · exact closeClient_ageInv s
    · exact hs
  | call j op => exact callOffer_keeps_ageInv j op s t hs h
  | callerStep j sent => exact callerOffer_keeps_ageInv j sent s t hs h
  | clientDeliver x =>
    cases h
    unfold clientDeliverOffer
    split_ifs <;> exact hs.congr ⟨rfl, rfl, rfl⟩
  | clientReceive => exact clientReceiveOffer_keeps_ageInv s t hs h
  | tick => cases h; exact tickOffer_keeps_ageInv s hl hs
  | timeout k => cases h; exact timeoutOffer_keeps_ageInv k s hs
  | _ => cases ho

/-- Settles O59: a tick comes only while every pending entry is younger than TIMEOUT, an entry is issued with age 0,
and no other step but a reset, which leaves nothing pending, writes the time base or makes a row pending. -/
theorem stepKeepsAge : Obligations.StepKeepsAge := by
  intro s t hs h
  obtain ⟨hl, ⟨-, rfl⟩ | ⟨o, rest, -, ho⟩⟩ := step_cases s t h
  · exact hs
  · have hs' : AgeInv { s with sched := rest } := hs.congr ⟨rfl, rfl, rfl⟩
    cases hc : ofClient o with
    | true => exact takeOffer_client_keeps_ageInv o { s with sched := rest } t hc hl hs' ho
    | false =>
      by_cases hr : ∃ c now, o = .reset c now
      · obtain ⟨c, now, rfl⟩ := hr
        obtain ⟨-, rfl⟩ := resetOffer_cases c now _ t ho
        exact (boot_ageInv c now).congr ⟨rfl, rfl, rfl⟩
      · push Not at hr
        obtain ⟨hcfg, -, ⟨-, hpt, -, -, -, hnow, -⟩, -⟩ := takeOffer_outsideClient o _ t hc hr ho
        exact hs'.congr ⟨hcfg, hpt, hnow⟩

end Sys2Proof.Machine
end

section
/-! SUPPORT. Every instruction as a response PDU (R171, R172), and what `Check` gives of a response (R173, R174, R183). -/

namespace Sys2Proof.Machine

open Sys2Proof.Claims

/-! The step and its frame (R171, R172). -/

/-- Settles O28: the step that completes a frame decodes and executes it. -/
theorem readLoopStepRunsDecoded : Obligations.ReadLoopStepRunsDecoded := by
  intro s x inp f instr rest hl hs hup hi hd hp
  rw [step_of_sched s _ rest hl hs]
  simp only [takeOffer, clientReceiveOffer, hup, if_true, hi, hd, clientFrame, hp]

/-- Settles O10: at the read loop an instruction is the correlation of the PDU it stands for. -/
theorem responseIsCorrelatedById : Obligations.ResponseIsCorrelatedById := by
  intro s tid i ha
  rw [exec_client i tid s ha]
  exact ⟨fun k e h => congrArg Host.Outcome.next (correlate_of_onlyPending tid _ s k e h),
    fun h => congrArg Host.Outcome.next (correlate_of_nonePending tid _ s h)⟩

/-- Settles O14: the correlation emits one output, or writes `st` and `slot` of a row pending under the id. -/
theorem responsesLeaveEverythingElse : Obligations.ResponsesLeaveEverythingElse := by
  intro s t tid i ha h
  rw [exec_client i tid s ha] at h
  cases h
  obtain ⟨-, h⟩ | ⟨k, e, he, hp, htid, h⟩ := correlate_cases tid (encodePdu i) s <;> rw [h]
  · refine ⟨rfl, fun m x hx _ => hx, fun m x x' hx hx' => ?_⟩
    rw [Option.some.inj (hx'.symm.trans hx)]
  · rw [resolveAt_pt, modify_eq_set _ _ _ _ he]
    refine ⟨rfl, fun m x hx hother => ?_, fun m x x' hx hx' => ?_⟩
    · rw [List.getElem?_set_ne]
      · exact hx
      · rintro rfl
        rw [Option.some.inj (hx.symm.trans he)] at hother
        exact hother ⟨hp, htid⟩
    · rw [List.getElem?_set] at hx'
      split_ifs at hx' with hk
      · subst hk
        cases hx'
        rw [Option.some.inj (hx.symm.trans he)]
        rfl
      · rw [Option.some.inj (hx'.symm.trans hx)]

/-! `Check` by the first byte (R173, R174, R208). -/

theorem excByte_eq_or (fc : BitVec 7) : excByte fc = 0x80#8 ||| fc.setWidth 8 := by
  revert fc
  decide

/-- The first byte of an exception PDU has the exception bit already (R75, R83). -/
theorem withExceptionBit_excByte (fc : BitVec 7) : withExceptionBit (excByte fc) = excByte fc := by
  rw [withExceptionBit, excByte_eq_or, BitVec.or_comm, ← BitVec.or_assoc, BitVec.or_self]

section Check

variable (e : Entry)

/-- An exception PDU of two bytes gives its code (R174). -/
theorem checkResponse_exceptionCode (code : Byte) :
    checkResponse e [withExceptionBit e.fc, code] = .err (.exception code) := if_pos rfl

/-- An exception PDU that has not two bytes is malformed (R174). -/
theorem checkResponse_exception_length (payload : List Byte) (h : payload.length ≠ 1) :
    checkResponse e (withExceptionBit e.fc :: payload) = .err .malformedResponse := by
  simp only [checkResponse, if_true]
  match payload with
  | [] => rfl
  | [_] => exact absurd rfl h
  | _ :: _ :: _ => rfl

/-- A PDU of another function code is malformed (R173, R208). -/
theorem checkResponse_other_fc (fc : Byte) (payload : List Byte) (hfc : fc ≠ e.fc) (hexc : fc ≠ withExceptionBit e.fc) :
    checkResponse e (fc :: payload) = .err .malformedResponse := by
  simp only [checkResponse, if_neg hexc, if_neg hfc]
  rfl

/-- A PDU with bit 7 set is not of the expected function code unless it is that code's exception PDU (R75). -/
theorem checkResponse_other_exception (fc : BitVec 7) (payload : List Byte) (hexc : excByte fc ≠ withExceptionBit e.fc) :
    checkResponse e (excByte fc :: payload) = .err .malformedResponse := by
  refine checkResponse_other_fc e _ payload (fun hfc => hexc ?_) hexc
  rw [← hfc, withExceptionBit_excByte]

end Check

/-- Settles O47: the three branches of `Check`. -/
theorem mismatchedResponse : Obligations.MismatchedResponse := fun e fc payload =>
  ⟨checkResponse_other_fc e fc payload, checkResponse_exception_length e payload, checkResponse_exceptionCode e⟩

/-- Settles O9: an EXC has bit 7 set, so it is the exception PDU of the expected code or of another code. -/
theorem exceptionResponseResolves : Obligations.ExceptionResponseResolves := by
  intro s tid k e fc x ha h
  obtain ⟨hresolves, -⟩ := responseIsCorrelatedById s tid (.exc fc x) ha
  rw [hresolves k e h, encodePdu, ← excByte_eq_or]
  refine congrArg (fun r => Host.Outcome.next (resolved k e r s)) ?_
  split_ifs with hfc
  · have hbyte : excByte fc = withExceptionBit e.fc := hfc
    rw [hbyte]
    match x with
    | .cut => exact checkResponse_exception_length e [] (by decide)
    | .full code [] => exact checkResponse_exceptionCode e code
    | .full code (b :: tail) => exact checkResponse_exception_length e (code :: b :: tail) (by simp)
  · exact checkResponse_other_exception e fc _ hfc

/-! The parse of a coil response (R183). -/

theorem unpackBits_length (data : List Byte) : (unpackBits data).length = 8 * data.length := by
  induction data with
  | nil => rfl
  | cons b data ih => rw [unpackBits, List.length_append, ih, List.length_cons]; exact Nat.add_comm 8 _

/-- A response of function code 0x01 to a `readCoils` goes to its parse clause (R173, R183). -/
theorem checkResponse_coils (e : Entry) (payload : List Byte) (hfc : e.fc = 0x01#8) :
    checkResponse e (0x01#8 :: payload) = parseBits e (0x01#8 :: payload) := by
  rw [← hfc, checkResponse_same_fc e payload (by rw [hfc]; rfl)]
  simp [parseResponse, hfc]

/-- The parse clause on a payload with a byte count (R183). -/
theorem parseBits_cons (e : Entry) (fc bc : Byte) (data : List Byte) :
    parseBits e (fc :: bc :: data) =
      if data.length = bc.toNat ∧ e.qty.toNat ≤ 8 * bc.toNat then .ok (.bits ((unpackBits data).take e.qty.toNat))
      else .err .malformedResponse := by
  refine ite_congr (propext ?_) (fun _ => rfl) (fun _ => rfl)
  simp only [List.length_cons, List.getD_cons_succ, List.getD_cons_zero]
  omega

/-- Bit `k` of a byte sequence, as a coil, is bit `k % 8` of its byte `k / 8` (R54, R183). -/
theorem unpackBits_eq_one_iff (data : List Byte) (k : Nat) (hk : k < 8 * data.length) :
    (unpackBits data)[k]? = some 1#1 ↔ (data.getD (k / 8) 0).getLsbD (k % 8) = true := by
  rw [unpackBits_getElem data k hk, Option.some.injEq, bit_eq_iff]
  simp

/-- Settles O46: a payload with a byte count meets the parse clause's condition or not; one without has no bits. -/
theorem coilResponseParse : Obligations.CoilResponseParse := by
  intro e payload hfc
  refine ⟨fun bc data hpayload hlen hqty => ?_, fun hbad => ?_⟩ <;> rw [checkResponse_coils e payload hfc]
  · subst hpayload
    refine ⟨_, (parseBits_cons e _ bc data).trans (if_pos ⟨hlen, hqty⟩), ?_, fun k hk => ?_⟩
    · rw [List.length_take, unpackBits_length]; omega
    · rw [List.getElem?_take_of_lt hk, unpackBits_eq_one_iff data k (by omega)]
  · cases payload with
    | nil => rfl
    | cons bc data => rw [parseBits_cons, if_neg (hbad bc data rfl)]

end Sys2Proof.Machine
end

section
/-! SUPPORT. The steps of the client (R161 to R181): connecting, calling, issuing, collecting, closing, the time base. -/

namespace Sys2Proof.Machine

open Sys2Proof.Claims

/-! Connecting and calling (R161, R163, R164). -/

/-- Settles O48: the three branches of `connect()`. -/
theorem connectStep : Obligations.ConnectStep := by
  intro s ok rest hl hs
  rw [step_of_sched s _ rest hl hs]
  refine congrArg Host.Outcome.next ?_
  simp only [connectOffer]
  split_ifs <;> rfl

/-- Settles O42: the call looks at the count of callers first, then at the connection, then at its arguments. -/
theorem callStep : Obligations.CallStep := by
  intro s j op rest hl hs
  rw [step_of_sched s _ rest hl hs]
  refine ⟨fun hn hf => ?_, fun ⟨n, hn, hj⟩ => ?_⟩
  · have hcaller : hasCaller s.cfg j = true := below_eq_true _ _ hn
    have hidle : (callerAt { s with sched := rest } j).fsm = .idle := hf
    simp only [takeOffer, callOffer, if_pos hcaller, if_pos hidle]
    rfl
  · have hcaller : ¬ hasCaller s.cfg j = true := by simp [hasCaller, hn, hj]
    simp only [takeOffer, callOffer, if_neg hcaller]

/-! Allocating an id (R165). -/

/-- Settles O39: the loop skips only pending ids, and the table has too few rows for the one it stops at to be
pending. -/
theorem allocatedIdIsFresh : Obligations.AllocatedIdIsFresh := by
  intro pt tidc hlen
  obtain ⟨n, hn, heq, hskip, -⟩ := skipPending_spec pt pt.length tidc
  have hfresh := allocTid_fresh pt tidc hlen
  rw [allocTid, heq] at hfresh
  refine ⟨n, hn, heq, fun e he hp htid => ?_, fun m hm => (tidPending_iff _ _).1 (hskip m hm)⟩
  exact Bool.false_ne_true (hfresh.symm.trans ((tidPending_iff _ _).2 ⟨e, he, hp, htid⟩))

/-! Issuing (R166, R167). -/

/-- The lowest FREE row is the one an issue step uses (R167). -/
theorem lowestFree_eq_some (pt : List Entry) (k : Nat) (e : Entry) (hk : pt[k]? = some e) (he : e.st = .free)
    (hlow : ∀ (k' : Nat) (e' : Entry), k' < k → pt[k']? = some e' → e'.st ≠ .free) : lowestFree pt = some k := by
  obtain ⟨hlt, rfl⟩ := List.getElem?_eq_some_iff.1 hk
  refine List.findIdx?_eq_some_iff_getElem.2 ⟨hlt, decide_eq_true he, fun m hm => ?_⟩
  simpa using hlow m _ hm (List.getElem?_eq_getElem (by omega))

/-- The entry an issue step writes is the one R182 to R187 give the operation. -/
theorem issuedEntry_eq_entryOf (j : Nat) (t : Word) (now : Ticks) (op : FacadeOp) :
    issuedEntry j t (build op) now = entryOf j t now op := by
  cases op <;> rfl

/-- What an issue step leaves is the registration and the frame's output (R165, R167). -/
theorem issued_eq_registered (j k : Nat) (frame : List Byte) (sent : Bool) (s : State) :
    issued j k frame sent s = { registered j k s with outputs := s.outputs ++ [.ctx frame sent] } := by
  rw [registered, ← issuedEntry_eq_entryOf]
  rfl

/-- The arbiter is free again at the end of an issue step (R37). -/
theorem releaseTx_eq_issued (j k : Nat) (frame : List Byte) (sent : Bool) (s : State) (htx : s.tx = .free) :
    releaseTx (emit (.ctx frame sent) (register j k (allocTid s.pt s.tidc) { s with tx := .held j })) =
      issued j k frame sent s := by
  cases s
  cases htx
  rfl

/-- With the arbiter free, a FREE row and a PDU that `Encode` accepts, an issue step registers and transmits (R167). -/
theorem issue_eq (j k : Nat) (sent : Bool) (frame : List Byte) (s : State) (htx : s.tx = .free)
    (hk : lowestFree s.pt = some k)
    (he : encodeFrame s.cfg.maxPdu (allocTid s.pt s.tidc) s.cfg.unitId (build (callerAt s j).op).pdu = some frame) :
    issue j sent s =
      .next (if sent then issued j k frame sent s else closeClient (issued j k frame sent s)) := by
  have he' : encodeFrame s.cfg.maxPdu (allocTid s.pt s.tidc) s.cfg.unitId
      (build (callerAt { s with tx := .held j } j).op).pdu = some frame := he
  simp only [issue, acquireTx, htx, if_true, hk, he', releaseTx_eq_issued j k frame sent s htx]
  cases sent <;> rfl

/-- Without a FREE row an issue step holds, whoever has the arbiter (R166). -/
theorem issue_holds (j : Nat) (sent : Bool) (s : State) (hk : lowestFree s.pt = none) : issue j sent s = .next s := by
  by_cases htx : s.tx = .free
  · simp only [issue, acquireTx, htx, if_true, hk]
  · simp only [issue, acquireTx, htx, if_false]

theorem callerOffer_of_issue (j : Nat) (sent : Bool) (s : State) (hf : (callerAt s j).fsm = .issue)
    (hup : s.up = true) : callerOffer j sent s = issue j sent s := by
  simp only [callerOffer, hf, hup, if_true]

theorem callerOffer_of_wait (j : Nat) (sent : Bool) (s : State) (hf : (callerAt s j).fsm = .wait) :
    callerOffer j sent s = .next (collect j s) := by
  simp only [callerOffer, hf]

/-- The step of a caller that can issue (R164, R165, R167). -/
theorem step_of_canIssue (s : State) (j k : Nat) (sent : Bool) (rest : List Offer) (hl : s.cfg.legal = true)
    (hs : s.sched = .callerStep j sent :: rest) (h : canIssue j k s) :
    ∃ frame, encodeFrame s.cfg.maxPdu (allocTid s.pt s.tidc) s.cfg.unitId
        (encodePdu (expansion (callerAt s j).op)) = some frame ∧
      step s = .next (if sent then issued j k frame sent { s with sched := rest }
        else closeClient (issued j k frame sent { s with sched := rest })) := by
  obtain ⟨hf, hd, hup, htx, ⟨e, he, hfree⟩, hlow⟩ := h
  obtain ⟨hmin, hmax⟩ := build_pdu_length s.cfg _ hl hd
  obtain ⟨frame, hframe⟩ := encodeFrame_isSome s.cfg.maxPdu (allocTid s.pt s.tidc) s.cfg.unitId _ hmin hmax
  refine ⟨frame, build_pdu _ ▸ hframe, ?_⟩
  rw [step_of_sched s _ rest hl hs]
  exact (callerOffer_of_issue j sent { s with sched := rest } hf hup).trans
    (issue_eq j k sent frame { s with sched := rest } htx (lowestFree_eq_some _ _ _ he hfree hlow) hframe)

/-- Settles O40: the step of a caller that can issue, with the transmission granted. -/
theorem issueRegistersAndSends : Obligations.IssueRegistersAndSends := by
  intro s j k rest hl hs h
  obtain ⟨frame, hframe, hstep⟩ := step_of_canIssue s j k true rest hl hs h
  refine ⟨frame, hframe, hstep.trans ?_⟩
  rw [if_pos rfl, issued_eq_registered]
  rfl

/-! Waiting and collecting (R166, R169, R181). -/

/-- A caller holds in WAIT until its row is RESOLVED (R169). -/
theorem collect_holds (j : Nat) (s : State)
    (h : ∀ e, s.pt[(callerAt s j).k]? = some e → e.st ≠ .resolved) : collect j s = s := by
  obtain hc | ⟨e, r, he, hst, -⟩ := collect_cases j s
  · exact hc
  · exact absurd hst (h e he)

/-- Settles O43: both holds leave the state in which the offer is taken. -/
theorem callersHold : Obligations.CallersHold := by
  intro s j sent rest hl hs
  rw [step_of_sched s _ rest hl hs]
  refine ⟨fun hf hup hfull => ?_, fun hf hwait => ?_⟩
  · exact (callerOffer_of_issue j sent { s with sched := rest } hf hup).trans
      (issue_holds j sent { s with sched := rest } ((lowestFree_none _).2 hfull))
  · exact (callerOffer_of_wait j sent { s with sched := rest } hf).trans
      (congrArg Host.Outcome.next (collect_holds j { s with sched := rest } hwait))

/-- A caller collects the result of its RESOLVED row, frees the row and is IDLE (R181). -/
theorem collect_of_resolved (j : Nat) (e : Entry) (r : CallResult) (s : State)
    (he : s.pt[(callerAt s j).k]? = some e) (hst : e.st = .resolved) (hr : e.slot = some r) :
    collect j s = emit (.ret j r) (setCaller j { callerAt s j with fsm := .idle }
      (setEntry (callerAt s j).k { e with st := .free, slot := none } s)) := by
  simp only [collect, he, if_pos hst, hr]

/-- Settles O44: the collection, with the offer taken. -/
theorem collectFreesEntry : Obligations.CollectFreesEntry := by
  intro s j sent e r rest hl hs hf he hst hr
  rw [step_of_sched s _ rest hl hs]
  exact (callerOffer_of_wait j sent { s with sched := rest } hf).trans
    (congrArg Host.Outcome.next (collect_of_resolved j e r { s with sched := rest } he hst hr))

/-! The close (R178, R179). -/

/-- The close procedure does what R178 says, whatever its cause. -/
theorem isClosed_closeClient (s : State) (hw : sparseWf Caller.reset s.callers = true) :
    isClosed s (closeClient s) :=
  ⟨rfl, rfl, fun _ => List.getElem?_map, fun j => callerAt_closeClient s j hw,
    rfl, rfl, rfl, rfl, rfl, rfl, rfl, rfl⟩

theorem clientReceiveOffer_close (s : State) (x : StreamItem) (inp : List StreamItem) (hup : s.up = true)
    (hi : s.clInp = x :: inp)
    (hd : ∀ b, x = .byte b → ∃ tag, deframe s.cfg.maxPdu s.rlRx b = .malformed tag) :
    clientReceiveOffer s = .next (closeClient { s with clInp := inp }) := by
  simp only [clientReceiveOffer, hup, if_true, hi]
  cases x with
  | eof => rfl
  | ioError => rfl
  | byte b =>
    obtain ⟨tag, hd⟩ := hd b rfl
    simp only [hd]

/-- A key of a canonical store reads as a value other than the default exactly when the store lists that value. -/
theorem mem_sparse_iff_from {α : Type} [DecidableEq α] (d : α) (m : List (Nat × α)) (lo k : Nat) (v : α)
    (hw : sparseWfFrom d lo m = true) (hv : v ≠ d) : (k, v) ∈ m ↔ sparseGet d m k = v := by
  induction m generalizing lo with
  | nil => simp [sparseGet, Ne.symm hv]
  | cons p m ih =>
    obtain ⟨a, x⟩ := p
    simp only [sparseWfFrom, Bool.and_eq_true, decide_eq_true_eq] at hw
    obtain ⟨-, hm⟩ := hw
    rw [List.mem_cons, ih (a + 1) hm, sparseGet, Prod.mk.injEq]
    split_ifs with ha
    · subst ha
      rw [sparseGet_below d m (a + 1) a hm (Nat.lt_succ_self a)]
      simp [Ne.symm hv, eq_comm]
    · simp [Ne.symm ha]

/-- The close answers the callers listed in ISSUE (R167, R178). -/
theorem mem_issueReturns (m : List (Nat × Caller)) (o : Output) :
    o ∈ issueReturns m ↔ ∃ p ∈ m, p.2.fsm = .issue ∧ o = .ret p.1 (.err .connectionClosed) := by
  induction m with
  | nil => simp [issueReturns]
  | cons p m ih =>
    obtain ⟨j, c⟩ := p
    rw [issueReturns]
    split_ifs with hc
    · simp [ih, hc]
    · simp [ih, hc]

/-- The callers the close answers are the ones in ISSUE (R167, R178). -/
theorem mem_issueReturns_callers (s : State) (o : Output) (hw : sparseWf Caller.reset s.callers = true) :
    o ∈ issueReturns s.callers ↔ ∃ j, (callerAt s j).fsm = .issue ∧ o = .ret j (.err .connectionClosed) := by
  have hlisted (j : Nat) (c : Caller) (hf : c.fsm = .issue) : (j, c) ∈ s.callers ↔ callerAt s j = c :=
    mem_sparse_iff_from _ _ 0 j c hw (by rintro rfl; cases hf)
  rw [mem_issueReturns]
  constructor
  · rintro ⟨⟨j, c⟩, hm, hf, ho⟩
    exact ⟨j, by rwa [(hlisted j c hf).1 hm], ho⟩
  · rintro ⟨j, hf, ho⟩
    exact ⟨(j, callerAt s j), (hlisted j _ hf).2 rfl, hf, ho⟩

/-- Settles O49: each cause runs the close procedure in the step that meets it, the transmit error after the
registration. -/
theorem closeResolvesAllPending : Obligations.CloseResolvesAllPending := by
  refine ⟨fun s o rest hl hw hs hup hcause => ?_, fun s j k rest hl hw hs h => ?_, fun s o hw => ?_⟩
  · rw [step_of_sched s o rest hl hs]
    obtain rfl | ⟨rfl, x, inp, hi, hd⟩ := hcause
    · refine ⟨_, congrArg Host.Outcome.next (if_pos hup), ?_, rfl, rfl⟩
      exact isClosed_closeClient { s with sched := rest } hw
    · refine ⟨_, clientReceiveOffer_close { s with sched := rest } x inp hup hi hd, ?_, rfl, rfl⟩
      exact isClosed_closeClient { s with sched := rest, clInp := inp } hw
  · obtain ⟨frame, hframe, hstep⟩ := step_of_canIssue s j k false rest hl hs h
    rw [if_neg Bool.false_ne_true, issued_eq_registered] at hstep
    refine ⟨_, frame, hframe, hstep, ?_, rfl, List.append_assoc s.outputs [.ctx frame false] _⟩
    exact isClosed_closeClient { registered j k s with sched := rest, outputs := s.outputs ++ [.ctx frame false] }
      (sparsePut_wf _ _ _ _ hw)
  · exact mem_issueReturns_callers s o hw

/-! The time base and the timeout (R175, R176). -/

/-- Some entry is expired (R175). -/
theorem any_isExpired_iff (pt : List Entry) (timeout : Nat) (now : Ticks) :
    pt.any (isExpired timeout now) = true ↔ ∃ e ∈ pt, e.st = .pending ∧ timeout ≤ (now - e.tSub).toNat := by
  simp only [List.any_eq_true, isExpired_iff]

/-- Settles O50: the tick and the timeout look at the same condition on an entry. -/
theorem tickAndTimeout : Obligations.TickAndTimeout := by
  refine ⟨fun s rest hl hs => ⟨fun hyoung => ?_, fun hexpired => ?_⟩, fun s k e rest hl hs he => ?_⟩ <;>
    rw [step_of_sched s _ rest hl hs]
  · refine congrArg Host.Outcome.next (if_neg fun h => ?_)
    obtain ⟨e, he, hp, hage⟩ := (any_isExpired_iff _ _ _).1 h
    exact absurd hage (Nat.not_le.2 (hyoung e he hp))
  · exact congrArg Host.Outcome.next (if_pos ((any_isExpired_iff _ _ _).2 hexpired))
  · refine congrArg Host.Outcome.next ?_
    simp only [timeoutOffer, he, isExpired_iff, resolveAt, modify_eq_set _ _ _ _ he]
    rfl

end Sys2Proof.Machine
end

section
/-! SUPPORT. A function code outside the seven at the router (60_exceptions.md R202; 30_encoding.md R85). -/

namespace Sys2Proof.Machine

open Sys2Proof.Claims

/-- A first byte with bit 7 clear that is none of the seven function codes is refused, whatever follows it (R85). -/
theorem decodePdu_of_unrecognised (fc : Byte) (payload : List Byte) (hfc : recognised fc = false)
    (h7 : ¬ fc.getLsbD 7 = true) : decodePdu (fc :: payload) = .error (.illegalFunction fc) := by
  simp only [recognised, Bool.or_eq_false_iff, beq_eq_false_iff_ne, ne_eq] at hfc
  obtain ⟨⟨⟨⟨⟨⟨h1, h2⟩, h3⟩, h4⟩, h5⟩, h6⟩, h16⟩ := hfc
  simp only [decodePdu, if_neg h1, if_neg h2, if_neg h3, if_neg h4, if_neg h5, if_neg h6, if_neg h16, if_neg h7]

/-- The route step answers a function code the decoder refuses with IllegalFunction (R85, R126). -/
theorem routeOffer_of_illegalFunction (i : Nat) (fc : Byte) (s : State) (hf : (connAt s i).fsm = .route)
    (hd : decodePdu (connAt s i).req = .error (.illegalFunction fc)) :
    routeOffer i s = .next (raiseExc i fc .illegalFunction { s with active := .server i }) := by
  simp only [routeOffer, if_pos hf, hd]

/-- Settles O8: with bit 7 set the byte is the exception byte of an EXC, which a server refuses; with bit 7 clear the
decoder refuses it. -/
theorem unrecognisedFunctionCode : Obligations.UnrecognisedFunctionCode := by
  intro s i fc payload rest hl hs hf hreq hfc
  by_cases h7 : fc.getLsbD 7 = true
  · have hd := decodePdu_of_getLsbD_seven fc payload h7
    rw [← hreq] at hd
    calc step s = exec (.exc (fc.extractLsb' 0 7) (decodeExc payload)) { s with sched := rest, active := .server i } :=
          routeStepRunsDecoded s i _ rest hl hs hf hd
      _ = .next (raiseExc i (excByte (fc.extractLsb' 0 7)) .illegalFunction
            { s with sched := rest, active := .server i }) := rfl
      _ = _ := by rw [excByte_of_low fc h7]; rfl
  · have hd := decodePdu_of_unrecognised fc payload hfc h7
    rw [← hreq] at hd
    exact (step_of_sched s _ rest hl hs).trans (routeOffer_of_illegalFunction i fc { s with sched := rest } hf hd)

end Sys2Proof.Machine
end
